-- ==== Sys2Proof/Word.lean ====
section
/-! DEFINITION. The widths of the machine's words (spec/00_scope.md R13, R14; spec/30_encoding.md R91, R101). -/

namespace Sys2Proof

/-- A byte, the only data item of the core (R13, R64). -/
abbrev Byte := BitVec 8

/-- A word of the command port or of the response port (R90). -/
abbrev Half := BitVec 16

/-- A channel number as the header's `CH` field holds it (R91, R94). -/
abbrev ChNum := BitVec 3

/-- A request number `irq = ch ++ t` (R101). -/
abbrev IrqNum := BitVec 4

end Sys2Proof
end

