-- ==== Sys2Proof/Config.lean ====
section
/-! DEFINITION. What an implementation fixes (spec/00_scope.md R7) and the values the spec leaves open. -/

namespace Sys2Proof

/-- When a pending, enabled request is granted (R213). -/
inductive GrantPolicy where
  | any
  | eager
  deriving DecidableEq, Repr

/-- Which of several pending requests is granted (R214). -/
inductive ArbOrder where
  | any
  | lowest
  deriving DecidableEq, Repr

/-- The implementation parameters of R7 that a rule reads. They stand in one field of the state that no step
writes, so that a claim about every state is a claim about every value of them (assumption log 1). -/
structure Params where
  /-- `C`, the capacity of every ring buffer -/
  cap : Nat
  /-- `N_CH`, the number of channels -/
  nCh : Nat
  /-- `GRANT_POLICY` -/
  grantPolicy : GrantPolicy
  /-- `ARB_ORDER` -/
  arbOrder : ArbOrder
  deriving DecidableEq, Repr

/-- The default value of every parameter (R7). -/
def Params.default : Params :=
  { cap := 128, nCh := 5, grantPolicy := .any, arbOrder := .any }

/-- The legal range of the parameters: `C >= 1`, `N_CH` from 1 to 8 (R7). -/
def Params.wf (p : Params) : Bool :=
  decide (1 ≤ p.cap) && decide (1 ≤ p.nCh) && decide (p.nCh ≤ 8)

namespace Config

/-- `BYTE_W` (R7). -/
def byteW : Nat := 8

/-- `IDX_W`, the width of `head` and `tail`: `max(1, ceil(log2 C))` (R7). -/
def idxW (cap : Nat) : Nat := max 1 (Nat.clog 2 cap)

/-- `OCC_W`, the width of `occ`: `ceil(log2(C + 1))` (R7). -/
def occW (cap : Nat) : Nat := Nat.clog 2 (cap + 1)

/-- `K_MAX`, the largest batch length of one `ENQ_OUT` (R7, R94). -/
def kMax : Nat := 255

/-- `REG_BASE[c]`, the bus address of a channel's register pair: an open parameter that no rule reads (R7, R70). -/
opaque regBase : ChNum → Nat

/-- A free byte: `rx_data[c]` after a receive overrun (R226), `tx_data[c]` after a write to a busy transmitter
(R66). The argument is the state's count of free values drawn (assumption log 8, 9). -/
opaque freeByte : Nat → Byte

/-- A free byte sequence: `txlog[c]` after a write to a busy transmitter (R66; assumption log 8). -/
opaque freeLog : Nat → List Byte

/-- The free contents of a buffer slot that no `push` has written since reset (R45, U1 of
93_implementation_defined.md). The arguments are the buffer's draw number and the slot (assumption log 7). -/
opaque freeSlot : Nat → Nat → Byte

/-- A free request number: `cur_irq` while no handler runs (R36, U2 of 93_implementation_defined.md; log 10). -/
opaque freeIrq : Nat → IrqNum

end Config

end Sys2Proof
end

