-- ==== Sys2Proof/Syntax.lean ====
section
/-! DEFINITION. The ten operations (spec/00_scope.md R11), one constructor per row of spec/opcode_table.json. -/

namespace Sys2Proof

/-- The direction of a ring buffer: `OUT` (main writes, interrupt reads) or `IN` (R14, R28). -/
inductive Dir where
  | out
  | inp
  deriving DecidableEq, Repr

/-- The operations. The first eight are host commands (R93), the last two are handler entries, started by the
arbiter and never by a command (R101). -/
inductive Instr where
  /-- `PUSH dir, ch, v` (R123) -/
  | push (d : Dir) (ch : ChNum) (v : Byte)
  /-- `POP dir, ch` (R124) -/
  | pop (d : Dir) (ch : ChNum)
  /-- `ENQ_OUT ch, [p0, ..., p(k-1)]` (R140) -/
  | enqOut (ch : ChNum) (p : List Byte)
  /-- `ENQ_IN ch, v` (R155) -/
  | enqIn (ch : ChNum) (v : Byte)
  /-- `DEQ_IN ch` (R156) -/
  | deqIn (ch : ChNum)
  /-- `PUMP ch` (R170) -/
  | pump (ch : ChNum)
  /-- `IE_SET` (R190) -/
  | ieSet
  /-- `IE_CLR` (R191) -/
  | ieClr
  /-- `RXIRQ(c)` (R157) -/
  | rxirq (c : ChNum)
  /-- `TXIRQ(c)` (R171) -/
  | txirq (c : ChNum)
  deriving DecidableEq, Repr

/-- The pseudo-operation `KICK chN`, a batch of length 0 (R103, R146 (a)). -/
def Instr.kick (ch : ChNum) : Instr := .enqOut ch []

/-- Is the operation a host command, that is one HOST can issue (R11)? -/
def Instr.isCommand : Instr → Bool
  | .push _ _ _ => true
  | .pop _ _ => true
  | .enqOut _ _ => true
  | .enqIn _ _ => true
  | .deqIn _ => true
  | .pump _ => true
  | .ieSet => true
  | .ieClr => true
  | .rxirq _ => false
  | .txirq _ => false

/-- The channel an operation names, none for `IE_SET` and `IE_CLR`. -/
def Instr.chan? : Instr → Option ChNum
  | .push _ ch _ => some ch
  | .pop _ ch => some ch
  | .enqOut ch _ => some ch
  | .enqIn ch _ => some ch
  | .deqIn ch => some ch
  | .pump ch => some ch
  | .ieSet => none
  | .ieClr => none
  | .rxirq c => some c
  | .txirq c => some c

end Sys2Proof
end

