-- ==== Sys2Proof/WellFormed.lean ====
section
/-! DEFINITION. Which terms of `Instr` are operations of a core with `nCh` channels. -/

namespace Sys2Proof

/-- A batch has at most `K_MAX` bytes (R94); a handler exists only for a channel of the core, request numbers
`2*N_CH` to 15 being no requests (R101). A command's channel number `>= N_CH` is a legal encoding (R91, R99). -/
def Instr.wf (nCh : Nat) : Instr → Bool
  | .push _ _ _ => true
  | .pop _ _ => true
  | .enqOut _ p => decide (p.length ≤ Config.kMax)
  | .enqIn _ _ => true
  | .deqIn _ => true
  | .pump _ => true
  | .ieSet => true
  | .ieClr => true
  | .rxirq c => decide (c.toNat < nCh)
  | .txirq c => decide (c.toNat < nCh)

end Sys2Proof
end

