-- ==== Sys2Proof/Decode.lean ====
section
/-! DEFINITION. Decoding and encoding (spec/30_encoding.md). A command is read from the words of the command
port (R90, R96); a handler entry is read from a request number (R101). -/

namespace Sys2Proof

/-- The header's `OP` field, bits 15:12 (R91). -/
def fieldOp (w : Half) : BitVec 4 := w.extractLsb' 12 4

/-- The header's `DIR` field, bit 11 (R91). -/
def fieldDir (w : Half) : BitVec 1 := w.extractLsb' 11 1

/-- The header's `CH` field, bits 10:8 (R91). -/
def fieldCh (w : Half) : ChNum := w.extractLsb' 8 3

/-- The header's `ARG` field, bits 7:0 (R91). -/
def fieldArg (w : Half) : Byte := w.extractLsb' 0 8

/-- `DIR` 0 is `OUT`, 1 is `IN` (R91, R94). -/
def dirOf (b : BitVec 1) : Dir := if b = 0 then .out else .inp

/-- The inverse of `dirOf`. -/
def dirBit : Dir → BitVec 1
  | .out => 0
  | .inp => 1

/-- Why a command is illegal (R99). -/
inductive Illegal where
  /-- `OP` is 0 or 9 to 15 -/
  | opcode
  /-- `DIR = 1` on an operation that has no direction -/
  | dirSet
  /-- `ARG != 0` on an operation that has no argument -/
  | argSet
  /-- `IE_SET` or `IE_CLR` with one of bits 11:0 set -/
  | zeroFieldSet
  /-- a payload word with one of bits 15:8 set -/
  | payload
  deriving DecidableEq, Repr

/-- What a header alone says: a whole one-word command, or an `ENQ_OUT` whose `k` payload words follow (R96). -/
inductive Head where
  | single (i : Instr)
  | batch (ch : ChNum) (k : Nat)
  deriving DecidableEq, Repr

/-- The opcode map of R93 with the illegal words of R99. -/
def decodeHeader (w : Half) : Except Illegal Head :=
  match (fieldOp w).toNat with
  | 1 => .ok (.single (.push (dirOf (fieldDir w)) (fieldCh w) (fieldArg w)))
  | 2 => if fieldArg w = 0 then .ok (.single (.pop (dirOf (fieldDir w)) (fieldCh w))) else .error .argSet
  | 3 => if fieldDir w = 0 then .ok (.batch (fieldCh w) (fieldArg w).toNat) else .error .dirSet
  | 4 => if fieldDir w = 0 then .ok (.single (.enqIn (fieldCh w) (fieldArg w))) else .error .dirSet
  | 5 =>
    if fieldDir w = 0 then
      if fieldArg w = 0 then .ok (.single (.deqIn (fieldCh w))) else .error .argSet
    else .error .dirSet
  | 6 =>
    if fieldDir w = 0 then
      if fieldArg w = 0 then .ok (.single (.pump (fieldCh w))) else .error .argSet
    else .error .dirSet
  | 7 => if w.extractLsb' 0 12 = 0 then .ok (.single .ieSet) else .error .zeroFieldSet
  | 8 => if w.extractLsb' 0 12 = 0 then .ok (.single .ieClr) else .error .zeroFieldSet
  | _ => .error .opcode

/-- A payload word is legal when its bits 15:8 are 0 (R95, R99). -/
def payloadLegal (w : Half) : Bool := w.extractLsb' 8 8 == 0

/-- A payload word's byte, bits 7:0 (R95). -/
def payloadByte (w : Half) : Byte := w.extractLsb' 0 8

/-- What a decoder answers, with the words after the command. -/
inductive Decoded where
  /-- a legal instruction -/
  | instr (i : Instr) (rest : List Half)
  /-- a command that is illegal, and why (R99) -/
  | illegal (why : Illegal) (rest : List Half)
  /-- not all words of the command have been issued: it has not started (R96, U17) -/
  | incomplete
  deriving DecidableEq, Repr

/-- Decode the first command of the command port's words. The length is decided by the header alone, and all
words of a command are collected before its payload is judged (R96; assumption log 15). -/
def decodeCommand : List Half → Decoded
  | [] => .incomplete
  | w :: ws =>
    match decodeHeader w with
    | .error why => .illegal why ws
    | .ok (.single i) => .instr i ws
    | .ok (.batch ch k) =>
      if ws.length < k then .incomplete
      else if (ws.take k).all payloadLegal then
        .instr (.enqOut ch ((ws.take k).map payloadByte)) (ws.drop k)
      else .illegal .payload (ws.drop k)

/-- The channel of a request number, `irq[3:1]` (R101). -/
def irqCh (r : IrqNum) : ChNum := r.extractLsb' 1 3

/-- Is the request number of the "transmit complete/ready" kind, `irq[0] = 1` (R101)? -/
def irqIsTx (r : IrqNum) : Bool := r.getLsbD 0

/-- The handler that a request number names, the patterns `ccc0` and `ccc1` (R101). Whether the core has that
channel is `Instr.wf`, not this function (assumption log 22). -/
def decodeRequest (r : IrqNum) : Instr :=
  if irqIsTx r then .txirq (irqCh r) else .rxirq (irqCh r)

/-- The two places an instruction is read from. -/
inductive Source where
  /-- the words of the command port (R90) -/
  | command (ws : List Half)
  /-- a request number, as `cur_irq` holds it (R101, R217) -/
  | request (r : IrqNum)
  deriving DecidableEq, Repr

/-- The decoder, total on both sources. -/
def decode : Source → Decoded
  | .command ws => decodeCommand ws
  | .request r => .instr (decodeRequest r) []

/-! ### The encoder -/

/-- `header = OP ++ DIR ++ CH ++ ARG` (R91). -/
def header (op : BitVec 4) (dir : BitVec 1) (ch : ChNum) (arg : Byte) : Half := op ++ dir ++ ch ++ arg

/-- A payload word, `0x00pp` (R95). -/
def payloadWord (b : Byte) : Half := (0 : BitVec 8) ++ b

/-- `irq = ch ++ t` (R101). -/
def requestNumber (ch : ChNum) (tx : Bool) : IrqNum := ch ++ BitVec.ofBool tx

/-- Where an instruction is written, and as what (R92, R93, R95, R101). -/
def encode : Instr → Source
  | .push d ch v => .command [header 1 (dirBit d) ch v]
  | .pop d ch => .command [header 2 (dirBit d) ch 0]
  | .enqOut ch p => .command (header 3 0 ch (BitVec.ofNat 8 p.length) :: p.map payloadWord)
  | .enqIn ch v => .command [header 4 0 ch v]
  | .deqIn ch => .command [header 5 0 ch 0]
  | .pump ch => .command [header 6 0 ch 0]
  | .ieSet => .command [header 7 0 0 0]
  | .ieClr => .command [header 8 0 0 0]
  | .rxirq c => .request (requestNumber c false)
  | .txirq c => .request (requestNumber c true)

/-- The command words of an instruction, none for a handler entry. -/
def encodeWords (i : Instr) : List Half :=
  match encode i with
  | .command ws => ws
  | .request _ => []

/-- The length of a command in words, by its header alone: `1 + header[7:0]` for `ENQ_OUT`, 1 for every other
header, an illegal one included (R96; assumption log 15). -/
def commandLength (w : Half) : Nat :=
  match decodeHeader w with
  | .ok (.batch _ k) => 1 + k
  | .ok (.single _) => 1
  | .error _ => 1

/-! ### The opcode map as the spec's table gives it -/

/-- A row of R93: the operation's opcode, its `match` and its `mask`. -/
structure OpRow where
  op : Nat
  pattern : Half
  mask : Half
  deriving DecidableEq, Repr

/-- The eight rows of R93. -/
def opTable : List OpRow :=
  [ ⟨1, 0x1000, 0xF000⟩, ⟨2, 0x2000, 0xF0FF⟩, ⟨3, 0x3000, 0xF800⟩, ⟨4, 0x4000, 0xF800⟩,
    ⟨5, 0x5000, 0xF8FF⟩, ⟨6, 0x6000, 0xF8FF⟩, ⟨7, 0x7000, 0xFFFF⟩, ⟨8, 0x8000, 0xFFFF⟩ ]

/-- "A header word selects the operation whose `match` equals `header AND mask`" (R93). -/
def OpRow.selects (r : OpRow) (w : Half) : Bool := w &&& r.mask == r.pattern

/-- The number of the row a decoded header belongs to. -/
def Head.op : Head → Nat
  | .single (.push _ _ _) => 1
  | .single (.pop _ _) => 2
  | .single (.enqOut _ _) => 3
  | .single (.enqIn _ _) => 4
  | .single (.deqIn _) => 5
  | .single (.pump _) => 6
  | .single .ieSet => 7
  | .single .ieClr => 8
  | .single (.rxirq _) => 0
  | .single (.txirq _) => 0
  | .batch _ _ => 3

/-! ### Words numbered as spec/opcode_table.json numbers them -/

/-- `n` 16-bit words of a number, the first in its low bits. -/
def wordsOf : Nat → Nat → List Half
  | 0, _ => []
  | n + 1, w => BitVec.ofNat 16 w :: wordsOf n (w / 65536)

/-- The words of the one command a number spells: as many as its header says (R96), bits it does not have being 0. -/
def commandWordsOf (w : Nat) : List Half := wordsOf (commandLength (BitVec.ofNat 16 w)) w

/-- The instruction read from the bits of a table row: up to 8 bits are a request number (the rows `RXIRQ` and
`TXIRQ`, whose 4 bits are padded with 0), more are command words. -/
def decodeTableWord (nbits w : Nat) : Option Instr :=
  if nbits ≤ 8 then
    if w < 16 then some (decodeRequest (BitVec.ofNat 4 w)) else none
  else
    match decode (.command (commandWordsOf (w % 2 ^ nbits))) with
    | .instr i _ => some i
    | .illegal _ _ => none
    | .incomplete => none

end Sys2Proof
end

