-- ==== Sys2Proof/Machine/State.lean ====
section
/-! DEFINITION. The state of the machine (spec/10_state.md), the reasons a step can stop, and the state after
reset (spec/10_state.md section 5). -/

namespace Sys2Proof.Machine

/-- The written slots of one ring buffer: (slot, byte) pairs, slots strictly rising. A slot that is not listed is one
no `push` has written since reset: it holds a free value, `any` (R22, R45; assumption log 7). -/
abbrev Mem := List Host.Cell

/-- One ring buffer `F[c][d]` (R22 to R25). A slot is read through `Ring.slot`. -/
structure Ring where
  /-- `mem`, the slots written so far -/
  mem : Mem
  /-- the model's own: the draw number of the free values in the slots not written so far (assumption log 7) -/
  fill : Nat
  /-- `head`, `IDX_W` bits (assumption log 19) -/
  head : Nat
  /-- `tail`, `IDX_W` bits -/
  tail : Nat
  /-- `occ`, `OCC_W` bits -/
  occ : Nat
  deriving DecidableEq, Repr

/-- Everything a channel owns: its two buffers (R21), its boundary registers (R30 to R32), its request flags
(R33, R34), its fault flags (R40) and its ghost traces (R41). -/
structure Chan where
  /-- `F[c][OUT]` -/
  out : Ring
  /-- `F[c][IN]` -/
  inp : Ring
  /-- `tx_data[c]` -/
  txData : Byte
  /-- `txe[c]` -/
  txe : Bool
  /-- `rx_data[c]` -/
  rxData : Byte
  /-- `tx_pending[c]` -/
  txPending : Bool
  /-- `rx_pending[c]` -/
  rxPending : Bool
  /-- `tx_overrun[c]` -/
  txOverrun : Bool
  /-- `rx_overrun[c]` -/
  rxOverrun : Bool
  /-- `txlog[c]` -/
  txlog : List Byte
  /-- `rxlog[c]` -/
  rxlog : List Byte
  deriving DecidableEq, Repr

/-- The micro-step HOST takes next (R37): `IDLE` or a label of the command in progress. `s2` is `S2.i` with the
loop index `i` in `hostI`. -/
inductive HostPc where
  | idle | s0 | s1 | s2 | s3 | p1 | p2 | p3
  deriving DecidableEq, Repr

/-- The micro-step the running handler takes next (R37, R157, R171). -/
inductive IrqPc where
  | idle | g1 | g2 | g3 | p1 | p2 | p3 | t4
  deriving DecidableEq, Repr

/-- One entry of the schedule: whose step comes next, and what the environment brings (R8, R42, R104). -/
inductive Event where
  /-- HOST's next micro-step -/
  | host
  /-- the running handler's next micro-step -/
  | irq
  /-- the arbiter's step `GRANT(r)` (R213) -/
  | grant (r : IrqNum)
  /-- `TX_DONE(c)` (R225) -/
  | txDone (c : ChNum)
  /-- `RX_ARRIVE(c, b)` (R226) -/
  | rxArrive (c : ChNum) (b : Byte)
  /-- `RESET` (R240) -/
  | reset
  deriving DecidableEq, Repr

/-- The whole state (R20), and what is the model's own: `cfg`, `words`, `sched`, `hostlog`, `freeCtr`, and each buffer's
`fill`. -/
structure State where
  /-- the parameters of R7; no step writes them (assumption log 1) -/
  cfg : Params
  /-- the channels, indexed by a 3-bit number; those below `N_CH` are the machine's (assumption log 16) -/
  chans : Vector Chan 8
  /-- `ie` (R35) -/
  ie : Bool
  /-- `in_handler` (R36) -/
  inHandler : Bool
  /-- `cur_irq` (R36) -/
  curIrq : IrqNum
  /-- `host_pc` (R37) -/
  hostPc : HostPc
  /-- the command in progress with its latched operands (R37) -/
  hostCmd : Option Instr
  /-- the loop index `i` of `ENQ_OUT` (R140) -/
  hostI : Nat
  /-- `occ_s`, the pre-check's sample (R140) -/
  hostOcc : Nat
  /-- `t`, the flag as HOST's command last read it (R140, R170) -/
  hostT : Bool
  /-- `b`, the byte HOST's pump popped (R170) -/
  hostB : Byte
  /-- `irq_pc` (R37) -/
  irqPc : IrqPc
  /-- `t` of the running handler's pump (R171) -/
  irqT : Bool
  /-- `b` of the running handler (R157, R171) -/
  irqB : Byte
  /-- `cmd_fault` (R40) -/
  cmdFault : Bool
  /-- the command words HOST has issued or will issue and the core has not taken (R42; assumption log 2) -/
  words : List Half
  /-- who moves next (R42; assumption log 3); when it is empty the machine runs by itself (log 4) -/
  sched : List Event
  /-- the commands that have returned, oldest first, each with its response word (assumption log 12) -/
  hostlog : List (Instr × Half)
  /-- how many free values have been drawn (assumption log 11) -/
  freeCtr : Nat
  deriving DecidableEq, Repr

/-- Why the machine stops. The spec's own faults are sticky flags of the state and stop nothing (R229). -/
inductive Fault where
  /-- Raised by `push` and `pop` at a slot `>= C`, which does not exist. No run from reset meets it (R61). Safe. -/
  | noSuchSlot
  /-- Raised by an operation past its channel check on a channel `>= N_CH`, which has no buffer and no register
  (R141, R208). No run from reset meets it. Safe. -/
  | noSuchChannel
  deriving DecidableEq, Repr

/-- Why there is no step to take. -/
inductive Refusal where
  /-- Raised by `exec`'s arm of an operation that has no meaning yet. None is left. Safe. -/
  | notModelled (mnemonic : String)
  /-- Raised by a meaning when the sequencer stands at a label the operation does not have (R37). No run from
  reset meets it. Safe. -/
  | notAtMicroStep
  /-- Raised by HOST's step when `host_pc` is a label and no command is latched (R37). No run from reset meets
  it. Safe. -/
  | noCommandLatched
  /-- Raised by IRQ's step when `cur_irq` is no request number of this core (R101). No run from reset meets
  it. Safe. -/
  | notARequest
  /-- Raised when the schedule names a step whose guard is false: such a script line is ill-formed (R104, R213,
  R225). Safe. -/
  | notEnabled
  deriving DecidableEq, Repr

/-- A fresh buffer: empty, indices 0, every slot `any` (R44, R45): the free values of draw `n`. -/
def Ring.fresh (n : Nat) : Ring := { mem := [], fill := n, head := 0, tail := 0, occ := 0 }

/-- A channel after reset (R44 to R47, R49); `tx_data` and `rx_data` are `any` there (assumption log 5). Its two
buffers have the draws `n` and `n + 1`. -/
def Chan.fresh (n : Nat) : Chan :=
  { out := Ring.fresh n, inp := Ring.fresh (n + 1), txData := 0, txe := true, rxData := 0,
    txPending := false, rxPending := false, txOverrun := false, rxOverrun := false, txlog := [], rxlog := [] }

/-- The state after a reset, of a core with parameters `p` of which `n` free values have been drawn (R44 to R49, R241):
each of the sixteen buffers has a draw of its own. `cur_irq` is `any` there (log 6). -/
def State.resetFrom (p : Params) (n : Nat) : State :=
  { cfg := p,
    chans := #v[Chan.fresh n, Chan.fresh (n + 2), Chan.fresh (n + 4), Chan.fresh (n + 6), Chan.fresh (n + 8),
      Chan.fresh (n + 10), Chan.fresh (n + 12), Chan.fresh (n + 14)],
    ie := false, inHandler := false, curIrq := 0,
    hostPc := .idle, hostCmd := none, hostI := 0, hostOcc := 0, hostT := false, hostB := 0,
    irqPc := .idle, irqT := false, irqB := 0, cmdFault := false,
    words := [], sched := [], hostlog := [], freeCtr := n + 16 }

/-- The state after reset of a core with parameters `p`. -/
def State.resetOf (p : Params) : State := State.resetFrom p 0

/-- The reference core after reset. -/
def State.reset : State := State.resetOf Params.default

end Sys2Proof.Machine
end

