-- ==== Sys2Proof/Machine/Flags.lean ====
section
/-! DEFINITION. The error values and the response word (spec/30_encoding.md R97, R98; spec/60_exceptions.md R201),
and the derived conditions of a buffer (spec/10_state.md R27). The core has no arithmetic flags (R43). -/

namespace Sys2Proof.Machine

/-- The closed enumeration of error values (R98, R201). -/
inductive ErrVal where
  | none
  | full
  | empty
  | hardwareNotReady
  | unexpectedFull
  | unexpectedEmpty
  | invalidChannel
  deriving DecidableEq, Repr

/-- The numbers of the error values (R98). -/
def ErrVal.code : ErrVal → BitVec 3
  | .none => 0
  | .full => 1
  | .empty => 2
  | .hardwareNotReady => 3
  | .unexpectedFull => 4
  | .unexpectedEmpty => 5
  | .invalidChannel => 6

/-- `response = 0b00000 ++ ERR ++ DATA` (R97). -/
def responseWord (e : ErrVal) (data : Byte) : Half := (0 : BitVec 5) ++ e.code ++ data

/-- The `ERR` field of a response word, bits 10:8 (R97). -/
def responseErr (r : Half) : BitVec 3 := r.extractLsb' 8 3

/-- The `DATA` field of a response word, bits 7:0 (R97). -/
def responseData (r : Half) : Byte := r.extractLsb' 0 8

/-- The buffer is empty iff `occ = 0` (R27). -/
def Ring.isEmpty (F : Ring) : Bool := F.occ == 0

/-- The buffer is full iff `occ = C` (R27). -/
def Ring.isFull (cap : Nat) (F : Ring) : Bool := F.occ == cap

/-- The room `C - occ` (R125 (c)). -/
def Ring.room (cap : Nat) (F : Ring) : Nat := cap - F.occ

/-- Index advance modulo `C` (R125 (a)). -/
def advance (cap x : Nat) : Nat := (x + 1) % cap

end Sys2Proof.Machine
end

