-- ==== Sys2Proof/Machine/Operands.lean ====
section
/-! DEFINITION. How an operation's operands name state: channels, buffers, the first label of a command. -/

namespace Sys2Proof.Machine

/-- Channel `c`'s state (R21). -/
def State.chan (s : State) (c : ChNum) : Chan := s.chans[c.toNat]'c.isLt

/-- Replace channel `c`'s state. -/
def State.setChan (s : State) (c : ChNum) (x : Chan) : State :=
  { s with chans := s.chans.set c.toNat x c.isLt }

/-- Valid means `ch < N_CH` (R141, R94). -/
def State.validCh (s : State) (c : ChNum) : Bool := decide (c.toNat < s.cfg.nCh)

/-- The buffer of direction `d` of a channel. -/
def Chan.ring (x : Chan) : Dir → Ring
  | .out => x.out
  | .inp => x.inp

/-- Replace the buffer of direction `d` of a channel. -/
def Chan.setRing (x : Chan) (d : Dir) (F : Ring) : Chan :=
  match d with
  | .out => { x with out := F }
  | .inp => { x with inp := F }

/-- `F[c][d]` (R14). -/
def State.ring (s : State) (c : ChNum) (d : Dir) : Ring := (s.chan c).ring d

/-- Replace `F[c][d]`. -/
def State.setRing (s : State) (c : ChNum) (d : Dir) (F : Ring) : State :=
  s.setChan c ((s.chan c).setRing d F)

/-- `F.head` as the register of `IDX_W` bits that R14 and R23 make it. -/
def Ring.headReg (cap : Nat) (F : Ring) : BitVec (Config.idxW cap) := BitVec.ofNat _ F.head

/-- `F.tail` as the register of `IDX_W` bits that R14 and R24 make it. -/
def Ring.tailReg (cap : Nat) (F : Ring) : BitVec (Config.idxW cap) := BitVec.ofNat _ F.tail

/-- `F.occ` as the register of `OCC_W` bits that R14 and R25 make it. -/
def Ring.occReg (cap : Nat) (F : Ring) : BitVec (Config.occW cap) := BitVec.ofNat _ F.occ

/-- The first micro-step of a command (R123, R124, R140, R155, R156, R170, R190, R191). -/
def firstLabel : Instr → HostPc
  | .ieSet => .s1
  | .ieClr => .s1
  | _ => .s0

/-- The first micro-step of the handler of a request (R157, R171, R213). -/
def firstIrqLabel (r : IrqNum) : IrqPc := if irqIsTx r then .p1 else .g1

end Sys2Proof.Machine
end

