-- ==== Sys2Proof/Machine/Ops.lean ====
section
/-! DEFINITION. The shared operations: buffer storage, the micro-steps `push` and `pop`, the atomic section, the
boundary registers, the pump's three micro-steps, the response, and the grant and return of a handler, which are
this core's taking of an interrupt and return from one. -/

namespace Sys2Proof.Machine

/-! ### Buffer storage (R61, R69) -/

/-- The byte that `push` wrote to slot `i`, none where no `push` has written it. -/
def Mem.read : Mem → Nat → Option Byte
  | [], _ => none
  | (a, b) :: m, i => if a = i then some b else Mem.read m i

/-- Store byte `v` in slot `i`, keeping the slots strictly rising. -/
def Mem.write : Mem → Nat → Byte → Mem
  | [], i, v => [(i, v)]
  | (a, b) :: m, i, v =>
    if i < a then (i, v) :: (a, b) :: m
    else if i = a then (i, v) :: m
    else (a, b) :: Mem.write m i v

/-- The canonical form: slots strictly rising. -/
def Mem.wf (m : Mem) : Bool := decide ((m.map Prod.fst).Pairwise (· < ·))

/-- The byte in slot `i`, `F.mem[i]`: what `push` wrote last, else the free value the slot holds since reset (R22, R45;
assumption log 7). -/
def Ring.slot (F : Ring) (i : Nat) : Byte :=
  match Mem.read F.mem i with
  | some b => b
  | none => Config.freeSlot F.fill i

/-- `MemRead(F.mem + i, 1)` (R14). -/
def slotRead (cap : Nat) (F : Ring) (i : Nat) : Except Fault Byte :=
  if i < cap then .ok (F.slot i) else .error .noSuchSlot

/-- `MemWrite(F.mem + i, 1, v)` (R14). -/
def slotWrite (cap : Nat) (m : Mem) (i : Nat) (v : Byte) : Except Fault Mem :=
  if i < cap then .ok (Mem.write m i v) else .error .noSuchSlot

/-! ### The micro-steps on one buffer -/

/-- The body of `push(F, v)` (R120). -/
def Ring.push (cap : Nat) (F : Ring) (v : Byte) : Except Fault (ErrVal × Ring) :=
  if F.occ = cap then .ok (.full, F)
  else
    match slotWrite cap F.mem F.head v with
    | .error f => .error f
    | .ok m => .ok (.none, { F with mem := m, head := advance cap F.head, occ := F.occ + 1 })

/-- The body of `pop(F)` (R121); no byte is `Empty`. The slot just read keeps its value. -/
def Ring.pop (cap : Nat) (F : Ring) : Except Fault (Option Byte × Ring) :=
  if F.occ = 0 then .ok (none, F)
  else
    match slotRead cap F F.tail with
    | .error f => .error f
    | .ok b => .ok (some b, { F with tail := advance cap F.tail, occ := F.occ - 1 })

/-- `atomic { body }`: save `ie`, clear it, run the body, restore it on every exit path (R192). -/
def State.atomic {α : Type} (s : State) (body : State → Except Fault (α × State)) : Except Fault (α × State) :=
  match body { s with ie := false } with
  | .error f => .error f
  | .ok (r, t) => .ok (r, { t with ie := s.ie })

/-- The micro-step `push(F[c][d], v)` (R120). -/
def State.pushRing (s : State) (c : ChNum) (d : Dir) (v : Byte) : Except Fault (ErrVal × State) :=
  s.atomic fun u =>
    match (u.ring c d).push u.cfg.cap v with
    | .error f => .error f
    | .ok (e, F) => .ok (e, u.setRing c d F)

/-- The micro-step `pop(F[c][d])` (R121). -/
def State.popRing (s : State) (c : ChNum) (d : Dir) : Except Fault (Option Byte × State) :=
  s.atomic fun u =>
    match (u.ring c d).pop u.cfg.cap with
    | .error f => .error f
    | .ok (b, F) => .ok (b, u.setRing c d F)

/-! ### The register boundary (R62) -/

/-- A read of `txe[c]`, without side effect (R68). -/
def State.readTxe (s : State) (c : ChNum) : Bool := (s.chan c).txe

/-- `RegRead(rx_data[c])`: the value, and `rx_pending[c] <- 0` (R67). -/
def State.readRxData (s : State) (c : ChNum) : Byte × State :=
  ((s.chan c).rxData, s.setChan c { s.chan c with rxPending := false })

/-- A transmitter that has been overrun: `tx_data[c]` and `txlog[c]` are `any` (R66; assumption log 8). -/
def State.txFree (s : State) (c : ChNum) (txe : Bool) : State :=
  { s.setChan c { s.chan c with
      txData := Config.freeByte s.freeCtr, txlog := Config.freeLog s.freeCtr, txe := txe, txOverrun := true } with
    freeCtr := s.freeCtr + 1 }

/-- `RegWrite(tx_data[c], v)` (R66): a ready transmitter takes the byte; a busy one sets `tx_overrun[c]`, and from
then on `tx_data[c]` and `txlog[c]` are `any`, after later writes too. -/
def State.writeTxData (s : State) (c : ChNum) (v : Byte) : State :=
  if (s.chan c).txe then
    if (s.chan c).txOverrun then s.txFree c false
    else s.setChan c { s.chan c with txData := v, txe := false, txlog := (s.chan c).txlog ++ [v] }
  else s.txFree c false

/-! ### The pump (R170) -/

/-- Which of the pump's three micro-steps. -/
inductive PumpPc where
  | p1 | p2 | p3
  deriving DecidableEq, Repr

/-- What one micro-step of the pump leads to. -/
inductive PumpOut where
  | fault (f : Fault)
  /-- P1 read `t = 1`: P2 is next -/
  | ready (s : State)
  /-- P2 popped a byte: P3 is next -/
  | popped (b : Byte) (s : State)
  /-- the pump returns -/
  | returns (e : ErrVal) (s : State)

/-- P1, P2 or P3 of `PUMP(c)`; `b` is the byte P2 popped. The same three steps at every call site (R172). -/
def State.pumpStep (s : State) (c : ChNum) (b : Byte) : PumpPc → PumpOut
  | .p1 => if s.readTxe c then .ready s else .returns .hardwareNotReady s
  | .p2 =>
    match s.popRing c .out with
    | .error f => .fault f
    | .ok (none, t) => .returns .empty t
    | .ok (some v, t) => .popped v t
  | .p3 => .returns .none (s.writeTxData c b)

/-! ### HOST's commands -/

/-- The end of command `i` with error value `e` and byte `data`: the response word, and `host_pc <- IDLE` with
nothing latched (R37, R97; assumption log 13). -/
def State.respond (s : State) (i : Instr) (e : ErrVal) (data : Byte) : State :=
  { s with
    hostPc := .idle, hostCmd := none, hostI := 0, hostOcc := 0, hostT := false, hostB := 0,
    hostlog := s.hostlog ++ [(i, responseWord e data)] }

/-- The micro-step S0 of a command that takes a channel: `InvalidChannel`, or on to `next` (R141, R208). -/
def State.checkChannel (s : State) (i : Instr) (c : ChNum) (next : HostPc) : Host.Outcome State Fault Refusal :=
  if s.validCh c then .next { s with hostPc := next } else .next (s.respond i .invalidChannel 0)

/-- Past the channel check an operation acts on a channel that exists; no other has a buffer or a register. -/
def State.onChannel (s : State) (c : ChNum) (act : Host.Outcome State Fault Refusal) :
    Host.Outcome State Fault Refusal :=
  if s.validCh c then act else .fault .noSuchChannel

/-- The micro-step "return push(F[ch][dir], v)" of command `i` (R123, R155). -/
def State.pushAndRespond (s : State) (i : Instr) (c : ChNum) (d : Dir) (v : Byte) :
    Host.Outcome State Fault Refusal :=
  match s.pushRing c d v with
  | .error f => .fault f
  | .ok (e, t) => .next (t.respond i e 0)

/-- The micro-step "return pop(F[ch][dir])" of command `i` (R124, R156). -/
def State.popAndRespond (s : State) (i : Instr) (c : ChNum) (d : Dir) : Host.Outcome State Fault Refusal :=
  match s.popRing c d with
  | .error f => .fault f
  | .ok (none, t) => .next (t.respond i .empty 0)
  | .ok (some b, t) => .next (t.respond i .none b)

/-- A micro-step of the pump in the host context, for command `i`; `ret` is the error value the command answers
when its pump returned `e` (R145, R170). -/
def State.hostPump (s : State) (i : Instr) (c : ChNum) (ret : ErrVal → ErrVal) (at' : PumpPc) :
    Host.Outcome State Fault Refusal :=
  match s.pumpStep c s.hostB at' with
  | .fault f => .fault f
  | .ready t => .next { t with hostT := true, hostPc := .p2 }
  | .popped b t => .next { t with hostPc := .p3, hostB := b }
  | .returns e t => .next (t.respond i (ret e) 0)

/-! ### Handlers -/

/-- The effect of `GRANT(r)` (R213, R217): the handler of `r` starts at its first micro-step; a transmit request
is cleared by it; `ie`, the buffers and HOST's sequencer are left as they are. -/
def State.enterHandler (s : State) (r : IrqNum) : State :=
  let u := if irqIsTx r then s.setChan (irqCh r) { s.chan (irqCh r) with txPending := false } else s
  { u with inHandler := true, curIrq := r, irqPc := firstIrqLabel r }

/-- The handler's last micro-step: `in_handler <- 0 ; irq_pc <- IDLE` (R218). `cur_irq` has no meaning from here
on (R36): a free value (assumption log 10). -/
def State.leaveHandler (s : State) : State :=
  { s with
    inHandler := false, irqPc := .idle, irqT := false, irqB := 0,
    curIrq := Config.freeIrq s.freeCtr, freeCtr := s.freeCtr + 1 }

/-- A micro-step of the pump in the handler context: at the first return the handler goes to T4, the returned
value being discarded (R171). -/
def State.irqPump (s : State) (c : ChNum) (at' : PumpPc) : Host.Outcome State Fault Refusal :=
  match s.pumpStep c s.irqB at' with
  | .fault f => .fault f
  | .ready t => .next { t with irqT := true, irqPc := .p2 }
  | .popped b t => .next { t with irqPc := .p3, irqB := b }
  | .returns e t => .next { t with irqT := if e = .hardwareNotReady then false else t.irqT, irqPc := .t4 }

end Sys2Proof.Machine
end

