-- ==== Sys2Proof/Machine/Arbiter.lean ====
section
/-! DEFINITION. The interrupt arbiter (spec/60_exceptions.md section 3). -/

namespace Sys2Proof.Machine

/-- `pending(r)`: the request flag of `r`, for a channel of the core (R213). -/
def State.pending (s : State) (r : IrqNum) : Bool :=
  s.validCh (irqCh r) && if irqIsTx r then (s.chan (irqCh r)).txPending else (s.chan (irqCh r)).rxPending

/-- The sixteen request numbers, rising. -/
def requestNumbers : List IrqNum := (List.range 16).map (BitVec.ofNat 4)

/-- The pending request with the lowest number (R214). -/
def State.lowestPending (s : State) : Option IrqNum := requestNumbers.find? s.pending

/-- Is some grant's guard true, whatever `ARB_ORDER` is? -/
def State.grantWaiting (s : State) : Bool := s.ie && !s.inHandler && s.lowestPending.isSome

/-- The guard of `GRANT(r)` (R213), with the choice `ARB_ORDER` leaves (R214). -/
def State.canGrant (s : State) (r : IrqNum) : Bool :=
  s.ie && !s.inHandler && s.pending r &&
    match s.cfg.arbOrder with
    | .any => true
    | .lowest => s.lowestPending == some r

/-- The arbiter's step (R213). -/
def State.grant (s : State) (r : IrqNum) : Host.Outcome State Fault Refusal :=
  if s.canGrant r then .next (s.enterHandler r) else .refused .notEnabled

end Sys2Proof.Machine
end

