-- ==== Sys2Proof/Machine/InputPath.lean ====
section
/-! DEFINITION. The input path: `ENQ_IN`, `DEQ_IN` and the handler `RXIRQ` (spec/42_input_path.md). -/

namespace Sys2Proof.Machine

/-- `ENQ_IN ch, v` (R155): S0 checks the channel, S1 pushes into `F[ch][IN]`; a full buffer drops the byte. -/
def execEnqIn (ch : ChNum) (v : Byte) (s : State) : Host.Outcome State Fault Refusal :=
  match s.hostPc with
  | .s0 => s.checkChannel (.enqIn ch v) ch .s1
  | .s1 => s.onChannel ch (s.pushAndRespond (.enqIn ch v) ch .inp v)
  | _ => .refused .notAtMicroStep

/-- `DEQ_IN ch` (R156): S0 checks the channel, S1 pops from `F[ch][IN]` and always delivers the byte (R159). -/
def execDeqIn (ch : ChNum) (s : State) : Host.Outcome State Fault Refusal :=
  match s.hostPc with
  | .s0 => s.checkChannel (.deqIn ch) ch .s1
  | .s1 => s.onChannel ch (s.popAndRespond (.deqIn ch) ch .inp)
  | _ => .refused .notAtMicroStep

/-- G1: read the arrived byte, which clears the request (R67, R157). -/
def State.takeArrival (s : State) (c : ChNum) : Host.Outcome State Fault Refusal :=
  let r := s.readRxData c
  .next { r.2 with irqB := r.1, irqPc := .g2 }

/-- G2: push it into the input buffer; the result is discarded, so a full buffer drops it (R157, R158). -/
def State.storeArrival (s : State) (c : ChNum) : Host.Outcome State Fault Refusal :=
  match s.pushRing c .inp s.irqB with
  | .error f => .fault f
  | .ok (_, t) => .next { t with irqPc := .g3 }

/-- `RXIRQ(c)` (R157). -/
def execRxirq (c : ChNum) (s : State) : Host.Outcome State Fault Refusal :=
  match s.irqPc with
  | .g1 => s.onChannel c (s.takeArrival c)
  | .g2 => s.onChannel c (s.storeArrival c)
  | .g3 => s.onChannel c (.next s.leaveHandler)
  | _ => .refused .notAtMicroStep

end Sys2Proof.Machine
end

