-- ==== Sys2Proof/Machine/InterruptControl.lean ====
section
/-! DEFINITION. Interrupt control: `IE_SET` and `IE_CLR` (spec/44_interrupt_control.md). -/

namespace Sys2Proof.Machine

/-- `IE_SET` (R190): `ie <- 1`, answer `None`. -/
def execIeSet (s : State) : Host.Outcome State Fault Refusal :=
  match s.hostPc with
  | .s1 => .next (State.respond { s with ie := true } .ieSet .none 0)
  | _ => .refused .notAtMicroStep

/-- `IE_CLR` (R191): `ie <- 0`, answer `None`. -/
def execIeClr (s : State) : Host.Outcome State Fault Refusal :=
  match s.hostPc with
  | .s1 => .next (State.respond { s with ie := false } .ieClr .none 0)
  | _ => .refused .notAtMicroStep

end Sys2Proof.Machine
end

