-- ==== Sys2Proof/Machine/OutputPath.lean ====
section
/-! DEFINITION. The output path's host side, `ENQ_OUT` (spec/41_output_path.md). -/

namespace Sys2Proof.Machine

/-- S1, the pre-check (R142): sample `occ` once; `Full` if the room is less than `k`, else on to the fill, or past
it when the batch is empty (R146 (a)). -/
def State.preCheck (s : State) (ch : ChNum) (p : List Byte) : Host.Outcome State Fault Refusal :=
  let F := s.ring ch .out
  if F.room s.cfg.cap < p.length then .next (s.respond (.enqOut ch p) .full 0)
  else .next { s with hostOcc := F.occ, hostI := 0, hostPc := if p.isEmpty then .s3 else .s2 }

/-- S2.i, one push of the fill (R143): `UnexpectedFull` stops it, the bytes already pushed stay. -/
def State.fillStep (s : State) (ch : ChNum) (p : List Byte) : Host.Outcome State Fault Refusal :=
  match p[s.hostI]? with
  | none => .refused .notAtMicroStep
  | some v =>
    match s.pushRing ch .out v with
    | .error f => .fault f
    | .ok (.none, t) =>
      .next { t with hostI := s.hostI + 1, hostPc := if s.hostI + 1 < p.length then .s2 else .s3 }
    | .ok (_, t) => .next (t.respond (.enqOut ch p) .unexpectedFull 0)

/-- S3, the read of the flag (R144): a busy transmitter ends the command, an idle one is armed by the pump. -/
def State.armCheck (s : State) (ch : ChNum) (p : List Byte) : Host.Outcome State Fault Refusal :=
  if s.readTxe ch then .next { s with hostT := true, hostPc := .p1 }
  else .next (s.respond (.enqOut ch p) .none 0)

/-- `ENQ_OUT ch, p` (R140). The arming pump's result is dropped: the command answers `None` (R145). -/
def execEnqOut (ch : ChNum) (p : List Byte) (s : State) : Host.Outcome State Fault Refusal :=
  match s.hostPc with
  | .s0 => s.checkChannel (.enqOut ch p) ch .s1
  | .s1 => s.onChannel ch (s.preCheck ch p)
  | .s2 => s.onChannel ch (s.fillStep ch p)
  | .s3 => s.onChannel ch (s.armCheck ch p)
  | .p1 => s.onChannel ch (s.hostPump (.enqOut ch p) ch (fun _ => .none) .p1)
  | .p2 => s.onChannel ch (s.hostPump (.enqOut ch p) ch (fun _ => .none) .p2)
  | .p3 => s.onChannel ch (s.hostPump (.enqOut ch p) ch (fun _ => .none) .p3)
  | .idle => .refused .notAtMicroStep

end Sys2Proof.Machine
end

