-- ==== Sys2Proof/Machine/RingBuffer.lean ====
section
/-! DEFINITION. The host commands `PUSH` and `POP` (spec/40_ring_buffer.md). -/

namespace Sys2Proof.Machine

/-- `PUSH d, ch, v` (R123): S0 checks the channel, S1 pushes. -/
def execPush (d : Dir) (ch : ChNum) (v : Byte) (s : State) : Host.Outcome State Fault Refusal :=
  match s.hostPc with
  | .s0 => s.checkChannel (.push d ch v) ch .s1
  | .s1 => s.onChannel ch (s.pushAndRespond (.push d ch v) ch d v)
  | _ => .refused .notAtMicroStep

/-- `POP d, ch` (R124): S0 checks the channel, S1 pops. -/
def execPop (d : Dir) (ch : ChNum) (s : State) : Host.Outcome State Fault Refusal :=
  match s.hostPc with
  | .s0 => s.checkChannel (.pop d ch) ch .s1
  | .s1 => s.onChannel ch (s.popAndRespond (.pop d ch) ch d)
  | _ => .refused .notAtMicroStep

end Sys2Proof.Machine
end

