-- ==== Sys2Proof/Machine/TransmitPump.lean ====
section
/-! DEFINITION. The transmit pump: `PUMP`, the handler `TXIRQ`, and the derived output state of a channel
(spec/43_transmit_pump.md). -/

namespace Sys2Proof.Machine

/-- `PUMP ch` (R170): S0 checks the channel, P1 to P3 are the pump, whose error value is the answer. -/
def execPump (ch : ChNum) (s : State) : Host.Outcome State Fault Refusal :=
  match s.hostPc with
  | .s0 => s.checkChannel (.pump ch) ch .p1
  | .p1 => s.onChannel ch (s.hostPump (.pump ch) ch id .p1)
  | .p2 => s.onChannel ch (s.hostPump (.pump ch) ch id .p2)
  | .p3 => s.onChannel ch (s.hostPump (.pump ch) ch id .p3)
  | _ => .refused .notAtMicroStep

/-- `TXIRQ(c)` (R171): the pump's micro-steps up to its first return, then T4. -/
def execTxirq (c : ChNum) (s : State) : Host.Outcome State Fault Refusal :=
  match s.irqPc with
  | .p1 => s.onChannel c (s.irqPump c .p1)
  | .p2 => s.onChannel c (s.irqPump c .p2)
  | .p3 => s.onChannel c (s.irqPump c .p3)
  | .t4 => s.onChannel c (.next s.leaveHandler)
  | _ => .refused .notAtMicroStep

/-- The output state of a channel (R174). -/
inductive OutState where
  | idle
  | arming
  | draining
  deriving DecidableEq, Repr

/-- Is `ENQ_OUT c` between its S3, having read 1, and the end of its pump (R174)? -/
def State.armingOf (s : State) (c : ChNum) : Bool :=
  match s.hostCmd with
  | some (.enqOut ch _) => ch == c && (s.hostPc == .p1 || s.hostPc == .p2 || s.hostPc == .p3)
  | _ => false

/-- Is the handler of request `ch ++ t` running? -/
def State.running (s : State) (c : ChNum) (tx : Bool) : Bool :=
  s.inHandler && irqCh s.curIrq == c && irqIsTx s.curIrq == tx

/-- Is a drain in progress: a byte in flight, `TXIRQ(c)` running, or its request waiting for a grant that `ie` lets
through (R174)? With `ie = 0` a request that waits drains nothing, and the channel is Idle (R250). -/
def State.drainingOf (s : State) (c : ChNum) : Bool :=
  !(s.chan c).txe || s.running c true || ((s.chan c).txPending && s.ie)

/-- The output state, inferred and never stored (R39, R174, R250). Where R174's descriptions overlap, an arming command
comes first and a drain in progress second (assumption log 21). -/
def State.outState (s : State) (c : ChNum) : OutState :=
  if s.armingOf c then .arming
  else if s.drainingOf c then .draining
  else .idle

end Sys2Proof.Machine
end

