-- ==== Sys2Proof/Machine/Dispatch.lean ====
section
/-! DEFINITION. One arm per operation: the micro-step of `i` at which its agent's sequencer stands (R9, R37). -/

namespace Sys2Proof.Machine

def exec (i : Instr) (s : State) : Host.Outcome State Fault Refusal :=
  match i with
  | .push d ch v => Sys2Proof.Machine.execPush d ch v s
  | .pop d ch => Sys2Proof.Machine.execPop d ch s
  | .enqOut ch p => Sys2Proof.Machine.execEnqOut ch p s
  | .enqIn ch v => Sys2Proof.Machine.execEnqIn ch v s
  | .deqIn ch => Sys2Proof.Machine.execDeqIn ch s
  | .pump ch => Sys2Proof.Machine.execPump ch s
  | .ieSet => Sys2Proof.Machine.execIeSet s
  | .ieClr => Sys2Proof.Machine.execIeClr s
  | .rxirq c => Sys2Proof.Machine.execRxirq c s
  | .txirq c => Sys2Proof.Machine.execTxirq c s

end Sys2Proof.Machine
end

