-- ==== Sys2Proof/Machine/Environment.lean ====
section
/-! DEFINITION. The environment's steps: `TX_DONE`, `RX_ARRIVE` (spec/60_exceptions.md section 5) and `RESET`
(spec/70_reset_and_hazards.md section 1). -/

namespace Sys2Proof.Machine

/-- `TX_DONE(c)` (R225): the byte in flight is finished; two unserved events merge (R211). -/
def State.txDone (s : State) (c : ChNum) : Host.Outcome State Fault Refusal :=
  if s.validCh c && !(s.chan c).txe then
    .next (s.setChan c { s.chan c with txe := true, txPending := true })
  else .refused .notEnabled

/-- The effect of `RX_ARRIVE(c, b)` (R226): an arrival while the previous byte is unread sets `rx_overrun[c]` and
leaves `rx_data[c]` open (assumption log 9). -/
def State.arrive (s : State) (c : ChNum) (b : Byte) : State :=
  let x := s.chan c
  if x.rxPending then
    { s.setChan c { x with
        rxlog := x.rxlog ++ [b], rxOverrun := true, rxData := Config.freeByte s.freeCtr } with
      freeCtr := s.freeCtr + 1 }
  else s.setChan c { x with rxlog := x.rxlog ++ [b], rxData := b, rxPending := true }

/-- `RX_ARRIVE(c, b)` (R226), for a channel of the core. -/
def State.rxArrive (s : State) (c : ChNum) (b : Byte) : Host.Outcome State Fault Refusal :=
  if s.validCh c then .next (s.arrive c b) else .refused .notEnabled

/-- `RESET` (R240): every piece of the machine's state goes to its reset value, a command or handler in progress is
abandoned; the `any` contents of the buffers are drawn anew. The parameters, HOST's words, the rest of the schedule and
the count of free values are no state of the machine and go on (assumption log 26). -/
def State.resetEvent (s : State) : State :=
  { State.resetFrom s.cfg s.freeCtr with words := s.words, sched := s.sched }

end Sys2Proof.Machine
end

