-- ==== Sys2Proof/Machine/Agents.lean ====
section
/-! DEFINITION. What each agent's step is: HOST's fetch from the command port and its micro-step, the handler's
micro-step, and one step of the whole machine by its schedule (spec/00_scope.md R8, R9; spec/20_memory.md R72). -/

namespace Sys2Proof.Machine

/-- Have all words of HOST's next command been issued (R96)? -/
def State.commandReady (s : State) : Bool :=
  match decodeCommand s.words with
  | .incomplete => false
  | _ => true

/-- Has HOST a step? Not while a handler runs (R9), not after a command fault (R99), not under `eager` while a
grant's guard holds (R213), and not when it is idle with no whole command issued (R96). -/
def State.hostEnabled (s : State) : Bool :=
  !s.inHandler && !s.cmdFault && !(s.cfg.grantPolicy == .eager && s.grantWaiting) &&
    (s.hostPc != .idle || s.commandReady)

/-- The core takes command `i`: its words leave the port, its operands are latched, its first micro-step is next
(R37, R96). -/
def State.accept (s : State) (i : Instr) (rest : List Half) : State :=
  { s with words := rest, hostCmd := some i, hostPc := firstLabel i }

/-- An illegal command: `cmd_fault <- 1`, nothing else, no response (R99). Its words are gone (log 15). -/
def State.illegalCommand (s : State) (rest : List Half) : State :=
  { s with words := rest, cmdFault := true }

/-- HOST's step: when idle it takes the next command of the port and runs its first micro-step, else it runs the
next micro-step of the command in progress. -/
def State.hostStep (s : State) : Host.Outcome State Fault Refusal :=
  if s.hostEnabled then
    match s.hostPc with
    | .idle =>
      match decodeCommand s.words with
      | .incomplete => .refused .notEnabled
      | .illegal _ rest => .next (s.illegalCommand rest)
      | .instr i rest => exec i (s.accept i rest)
    | _ =>
      match s.hostCmd with
      | none => .refused .noCommandLatched
      | some i => exec i s
  else .refused .notEnabled

/-- IRQ's step: the next micro-step of the handler that `cur_irq` names (R217). -/
def State.irqStep (s : State) : Host.Outcome State Fault Refusal :=
  if s.inHandler then
    if (decodeRequest s.curIrq).wf s.cfg.nCh then exec (decodeRequest s.curIrq) s else .refused .notARequest
  else .refused .notEnabled

/-- The step of one entry of the schedule. -/
def State.eventStep (s : State) : Event → Host.Outcome State Fault Refusal
  | .host => s.hostStep
  | .irq => s.irqStep
  | .grant r => s.grant r
  | .txDone c => s.txDone c
  | .rxArrive c b => s.rxArrive c b
  | .reset => .next s.resetEvent

/-- Who moves when the schedule is empty: the running handler, else the pending request with the lowest number,
else HOST; no one when none of these has a step (assumption log 4). -/
def State.ownChoice (s : State) : Option Event :=
  if s.inHandler then some .irq
  else
    match (if s.ie then s.lowestPending else none) with
    | some r => some (.grant r)
    | none => if s.hostEnabled then some .host else none

/-- One step of the machine. -/
def State.stepOnce (s : State) : Host.Outcome State Fault Refusal :=
  match s.sched with
  | e :: es => State.eventStep { s with sched := es } e
  | [] =>
    match s.ownChoice with
    | some e => s.eventStep e
    | none => .next s

/-- Put a command's words where HOST's next step fetches, and make that step HOST's: idle, no handler running, no
command fault, not held back by an eager grant (assumption log 23). -/
def State.withCommandWords (s : State) (ws : List Half) : State :=
  { s with
    words := ws ++ s.words, sched := .host :: s.sched, hostPc := .idle, hostCmd := none,
    inHandler := false, irqPc := .idle, cmdFault := false,
    cfg := { s.cfg with grantPolicy := .any } }

/-- Put a request number where IRQ's next step fetches, with the handler at its first micro-step, and make that
step IRQ's (assumption log 23). -/
def State.withRequest (s : State) (r : IrqNum) : State :=
  { s with sched := .irq :: s.sched, inHandler := true, curIrq := r, irqPc := firstIrqLabel r }

end Sys2Proof.Machine
end

