-- ==== Sys2Proof/Machine/Step.lean ====
section
/-! DEFINITION. One step of the machine: one micro-step of one agent (spec/00_scope.md R9). -/

namespace Sys2Proof.Machine

/-- One step. -/
def step (s : State) : Host.Outcome State Fault Refusal := s.stepOnce

/-- The state `s` with the instruction of `nbits` bits `w` where the very next step runs it. -/
def State.withFetchWord (s : State) (nbits w : Nat) : State :=
  if nbits ≤ 8 then s.withRequest (BitVec.ofNat 4 w)
  else s.withCommandWords (commandWordsOf (w % 2 ^ nbits))

end Sys2Proof.Machine
end

