-- ==== Sys2Proof/Safety.lean ====
section
/-! DEFINITION. What a sound state and a sound run of the core are, in the terms the claims use: the buffer and
sequencer invariants, the traces' accounting, quiescence, fairness. -/

namespace Sys2Proof.Machine

/-! ### Buffers -/

/-- The held bytes, oldest first (R26). -/
def Ring.held (cap : Nat) (F : Ring) : List Byte :=
  (List.range F.occ).map fun j => F.slot ((F.tail + j) % cap)

/-- The buffer invariant (R26), with what R22 derives (every held slot was written) and the storage's form. -/
abbrev Ring.Inv (cap : Nat) (F : Ring) : Prop :=
  F.occ ≤ cap ∧ F.head < cap ∧ F.tail < cap ∧ (F.tail + F.occ) % cap = F.head ∧
    Mem.wf F.mem = true ∧ (∀ x ∈ F.mem, x.1 < cap) ∧
    ∀ j < F.occ, (Mem.read F.mem ((F.tail + j) % cap)).isSome = true

/-- The buffer after a successful `push` of `v` (R120). -/
def Ring.pushed (cap : Nat) (F : Ring) (v : Byte) : Ring :=
  { mem := Mem.write F.mem F.head v, fill := F.fill, head := (F.head + 1) % cap, tail := F.tail, occ := F.occ + 1 }

/-- The buffer after a successful `pop` (R121). -/
def Ring.popped (cap : Nat) (F : Ring) : Ring :=
  { mem := F.mem, fill := F.fill, head := F.head, tail := (F.tail + 1) % cap, occ := F.occ - 1 }

/-- Push a sequence, none unless every push succeeds. -/
def Ring.pushAll (cap : Nat) : Ring → List Byte → Option Ring
  | F, [] => some F
  | F, v :: vs =>
    match F.push cap v with
    | .ok (.none, G) => Ring.pushAll cap G vs
    | _ => none

/-- Pop `n` bytes, none unless every pop succeeds. -/
def Ring.popAll (cap : Nat) : Ring → Nat → Option (List Byte × Ring)
  | F, 0 => some ([], F)
  | F, n + 1 =>
    match F.pop cap with
    | .ok (some b, G) =>
      match Ring.popAll cap G n with
      | some (bs, H) => some (b :: bs, H)
      | none => none
    | _ => none

/-! ### Commands -/

/-- Command `i` has returned with response word `r` (R37, R97): HOST is idle, nothing is latched, nothing else changed.
The trace `hostlog` and the locals' value 0 are the model's own (assumption log 12 and 13). -/
def State.answered (s : State) (i : Instr) (r : Half) : State :=
  { s with
    hostPc := .idle, hostCmd := none, hostI := 0, hostOcc := 0, hostT := false, hostB := 0,
    hostlog := s.hostlog ++ [(i, r)] }

/-- The command HOST's next micro-step belongs to: the one in progress, else the one its words spell. -/
def State.hostInstr (s : State) : Option Instr :=
  if s.hostPc = .idle then
    match decodeCommand s.words with
    | .instr i _ => some i
    | _ => none
  else s.hostCmd

/-- The labels at which an operation's own sequencer can stand. -/
def hasHostLabel : Instr → HostPc → Bool
  | .push _ _ _, pc => pc == .s0 || pc == .s1
  | .pop _ _, pc => pc == .s0 || pc == .s1
  | .enqOut _ _, pc => pc != .idle
  | .enqIn _ _, pc => pc == .s0 || pc == .s1
  | .deqIn _, pc => pc == .s0 || pc == .s1
  | .pump _, pc => pc == .s0 || pc == .p1 || pc == .p2 || pc == .p3
  | .ieSet, pc => pc == .s1
  | .ieClr, pc => pc == .s1
  | .rxirq _, _ => false
  | .txirq _, _ => false

/-! ### Sequencers -/

/-- HOST's sequencer stands at a label of the command in progress, whose channel has been checked, and the rest of
a batch fits into the room there is (R37, R148 (c)). -/
def State.hostSeqOk (s : State) : Bool :=
  match s.hostPc, s.hostCmd with
  | .idle, none => true
  | .s0, some i => i.isCommand && i.wf 8 && firstLabel i == .s0
  | .s1, some (.push _ c _) => s.validCh c
  | .s1, some (.pop _ c) => s.validCh c
  | .s1, some (.enqOut c p) => s.validCh c && Instr.wf 8 (.enqOut c p)
  | .s1, some (.enqIn c _) => s.validCh c
  | .s1, some (.deqIn c) => s.validCh c
  | .s1, some .ieSet => true
  | .s1, some .ieClr => true
  | .s2, some (.enqOut c p) =>
    s.validCh c && Instr.wf 8 (.enqOut c p) && decide (s.hostI < p.length) &&
      decide ((s.ring c .out).occ + (p.length - s.hostI) ≤ s.cfg.cap)
  | .s3, some (.enqOut c p) => s.validCh c && Instr.wf 8 (.enqOut c p)
  | .p1, some (.enqOut c p) => s.validCh c && Instr.wf 8 (.enqOut c p)
  | .p2, some (.enqOut c p) => s.validCh c && Instr.wf 8 (.enqOut c p)
  | .p3, some (.enqOut c p) => s.validCh c && Instr.wf 8 (.enqOut c p)
  | .p1, some (.pump c) => s.validCh c
  | .p2, some (.pump c) => s.validCh c
  | .p3, some (.pump c) => s.validCh c
  | _, _ => false

/-- IRQ's sequencer stands at a label of the running handler; an RXIRQ before G1 has its request still pending, a
TXIRQ past P1 finds its transmitter ready (R36, R157, R171). -/
def State.irqSeqOk (s : State) : Bool :=
  match s.irqPc with
  | .idle => !s.inHandler
  | .g1 => s.inHandler && s.validCh (irqCh s.curIrq) && !irqIsTx s.curIrq && (s.chan (irqCh s.curIrq)).rxPending
  | .g2 => s.inHandler && s.validCh (irqCh s.curIrq) && !irqIsTx s.curIrq
  | .g3 => s.inHandler && s.validCh (irqCh s.curIrq) && !irqIsTx s.curIrq
  | .p1 => s.inHandler && s.validCh (irqCh s.curIrq) && irqIsTx s.curIrq
  | .p2 => s.inHandler && s.validCh (irqCh s.curIrq) && irqIsTx s.curIrq && (s.chan (irqCh s.curIrq)).txe
  | .p3 => s.inHandler && s.validCh (irqCh s.curIrq) && irqIsTx s.curIrq && (s.chan (irqCh s.curIrq)).txe
  | .t4 => s.inHandler && s.validCh (irqCh s.curIrq) && irqIsTx s.curIrq

/-! ### Responses -/

/-- The response words the core can produce: `0x0000 .. 0x00FF`, 0x0100, 0x0200, 0x0300, 0x0600 (R98, R148 (c),
R207; 95_test_vectors.md section 3.1). -/
def legalResponse (r : Half) : Bool :=
  decide (r.toNat < 256) || r == 0x0100 || r == 0x0200 || r == 0x0300 || r == 0x0600

/-! ### The machine's invariant -/

/-- The parameters are legal, every buffer satisfies R26, both sequencers are sound, and every response is one the
core can produce. -/
abbrev State.Inv (s : State) : Prop :=
  s.cfg.wf = true ∧
    (∀ c : ChNum, Ring.Inv s.cfg.cap (s.ring c .out) ∧ Ring.Inv s.cfg.cap (s.ring c .inp)) ∧
    s.hostSeqOk = true ∧ s.irqSeqOk = true ∧ s.hostlog.all (fun x => legalResponse x.2) = true

/-- No fault flag is set (R40, R229). -/
def State.noFault (s : State) : Prop :=
  s.cmdFault = false ∧ ∀ c : ChNum, (s.chan c).txOverrun = false ∧ (s.chan c).rxOverrun = false

/-! ### The arming race (R177, R246) -/

/-- Is the command in progress one whose pump is on channel `c`? -/
def State.pumpsOn (s : State) (c : ChNum) : Bool :=
  match s.hostCmd with
  | some (.enqOut ch _) => ch == c
  | some (.pump ch) => ch == c
  | _ => false

/-- Is HOST between P1, having read 1, and P3 of a pump on channel `c`? -/
def State.hostArmed (s : State) (c : ChNum) : Bool := (s.hostPc == .p2 || s.hostPc == .p3) && s.pumpsOn c

/-- The event whose step is next: the schedule's first entry, or the machine's own choice. -/
def State.nextEvent (s : State) : Option Event :=
  match s.sched with
  | e :: _ => some e
  | [] => s.ownChoice

/-- Is the next step P1 of HOST's pump on channel `c`? -/
def State.startsPump (s : State) (c : ChNum) : Bool :=
  s.hostPc == .p1 && s.pumpsOn c && s.nextEvent == some .host

/-- Is the next step a grant of `TXIRQ(c)` between P1 and P3 of HOST's pump on `c`: what R246 asks software to rule out? -/
def State.grantsIntoPump (s : State) (c : ChNum) : Bool :=
  s.hostArmed c && s.nextEvent == some (.grant (requestNumber c true))

/-- The transmitter of `c` has not been overrun, and HOST's pump finds it ready: from its P1 to its P3 `txe` is 1 and no
`TXIRQ(c)` runs. -/
def State.PumpSafe (s : State) (c : ChNum) : Prop :=
  (s.chan c).txOverrun = false ∧
    (s.hostArmed c = true → (s.chan c).txe = true ∧ s.running c true = false)

/-- From P1 to P3 of HOST's pump on `c` the transmitter is ready and no `TXIRQ(c)` runs or can be granted. -/
def State.QuietPump (s : State) (c : ChNum) : Prop :=
  s.hostArmed c = true →
    (s.chan c).txe = true ∧ (s.ie = true → (s.chan c).txPending = false) ∧ s.running c true = false

/-- No transmitter has been overrun, and none can be by HOST's pump. -/
def State.EagerSafe (s : State) : Prop :=
  ∀ c : ChNum, (s.chan c).txOverrun = false ∧ s.QuietPump c

/-! ### The order of bytes (R75, R148 (d), R161) -/

/-- Has a command of `q` returned, or is one in progress? -/
def State.issued (s : State) (q : Instr → Bool) : Bool :=
  s.hostlog.any (fun x => q x.1) || s.hostCmd.any q

/-- HOST keeps to the discipline on the output buffer of `c`: no `PUSH OUT` and no `POP OUT` (R75). -/
def State.outDisciplined (s : State) (c : ChNum) : Bool :=
  !s.issued fun i =>
    match i with
    | .push .out ch _ => ch == c
    | .pop .out ch => ch == c
    | _ => false

/-- HOST is no producer of the input buffer of `c`: no `PUSH IN` and no `ENQ_IN` (R75). -/
def State.inDisciplined (s : State) (c : ChNum) : Bool :=
  !s.issued fun i =>
    match i with
    | .push .inp ch _ => ch == c
    | .enqIn ch _ => ch == c
    | _ => false

/-- The bytes of the batches that `ENQ_OUT c` commands have had accepted and pushed, in order: those of commands
that answered `None`, then the pushed part of the command in progress. -/
def State.acceptedOut (s : State) (c : ChNum) : List Byte :=
  (s.hostlog.flatMap fun x =>
    match x.1 with
    | .enqOut ch p => if ch = c ∧ x.2 = 0x0000 then p else []
    | _ => []) ++
  match s.hostCmd with
  | some (.enqOut ch p) =>
    if ch = c then
      match s.hostPc with
      | .s2 => p.take s.hostI
      | .s3 => p
      | .p1 => p
      | .p2 => p
      | .p3 => p
      | _ => []
    else []
  | _ => []

/-- The bytes of channel `c` that a pump has popped and not yet written, in the order popped: HOST's, then the handler's
(HOST pops nothing while a handler runs, R9). -/
def State.inPump (s : State) (c : ChNum) : List Byte :=
  (if s.hostPc == .p3 && s.hostArmed c then [s.hostB] else []) ++
  (if s.irqPc == .p3 && s.running c true then [s.irqB] else [])

/-- The bytes sent, being sent and held are the bytes enqueued, in order (R41, R148 (d)). -/
def State.OutputOrder (s : State) (c : ChNum) : Prop :=
  s.outDisciplined c = true →
    (s.chan c).txlog ++ s.inPump c ++ Ring.held s.cfg.cap (s.ring c .out) = s.acceptedOut c

/-- HOST holds a popped byte at the P3 of its pump on `c`, and the transmitter is busy: a `TXIRQ(c)` wrote since HOST's P1.
HOST's own write is then an overrun unless a `TX_DONE(c)` comes first (R66, R177). -/
def State.racing (s : State) (c : ChNum) : Bool := s.hostPc == .p3 && s.pumpsOn c && !(s.chan c).txe

/-- R148 (d) from step to step: the output keeps its order, or HOST is in a race that its next step turns into an overrun. -/
def State.OrderOrRace (s : State) (c : ChNum) : Prop := s.OutputOrder c ∨ s.racing c = true

/-- The bytes of channel `c` that HOST's `DEQ_IN` and `POP IN` commands returned, in order. -/
def State.delivered (s : State) (c : ChNum) : List Byte :=
  s.hostlog.filterMap fun x =>
    match x.1 with
    | .deqIn ch => if ch = c ∧ responseErr x.2 = 0 then some (responseData x.2) else none
    | .pop .inp ch => if ch = c ∧ responseErr x.2 = 0 then some (responseData x.2) else none
    | _ => none

/-- The byte the running `RXIRQ(c)` has read and not yet pushed, then the byte that is still unread. -/
def State.arriving (s : State) (c : ChNum) : List Byte :=
  (if s.irqPc == .g2 && s.running c false then [s.irqB] else []) ++
  (if (s.chan c).rxPending then [(s.chan c).rxData] else [])

/-- The bytes delivered, held and arriving are a subsequence of the bytes that arrived, in order (R161). -/
def State.InputOrder (s : State) (c : ChNum) : Prop :=
  s.inDisciplined c = true → (s.chan c).rxOverrun = false →
    List.Sublist (s.delivered c ++ Ring.held s.cfg.cap (s.ring c .inp) ++ s.arriving c) (s.chan c).rxlog

/-- The bytes delivered, held and arriving are all the bytes that arrived, in order (R161): what is true as long as no
arrived byte was dropped. -/
def State.InputComplete (s : State) (c : ChNum) : Prop :=
  s.inDisciplined c = true → (s.chan c).rxOverrun = false →
    s.delivered c ++ Ring.held s.cfg.cap (s.ring c .inp) ++ s.arriving c = (s.chan c).rxlog

/-- Is the next step a G2 of `RXIRQ(c)` whose push answers `Full`, so that the arrived byte is dropped (R158)? -/
def State.dropsArrival (s : State) (c : ChNum) : Bool :=
  s.nextEvent == some .irq && s.irqPc == .g2 && s.running c false && (s.ring c .inp).isFull s.cfg.cap

/-! ### The drain (R174, R175, R250) -/

/-- No `PUSH OUT c` has been issued (R250). -/
def State.noPushOut (s : State) (c : ChNum) : Bool :=
  !s.issued fun i =>
    match i with
    | .push .out ch _ => ch == c
    | _ => false

/-- Is an `ENQ_OUT c` past its pre-check? -/
def State.enqueuing (s : State) (c : ChNum) : Bool :=
  match s.hostCmd with
  | some (.enqOut ch _) =>
    ch == c && (s.hostPc == .s2 || s.hostPc == .s3 || s.hostPc == .p1 || s.hostPc == .p2 || s.hostPc == .p3)
  | _ => false

/-- A channel that holds output bytes is not forgotten: it is busy, or its request is pending, or its handler is
running its pump, or an `ENQ_OUT` is about to arm it. -/
def State.DrainAlive (s : State) (c : ChNum) : Prop :=
  s.noPushOut c = true → 0 < (s.ring c .out).occ →
    (s.chan c).txe = false ∨ (s.chan c).txPending = true ∨
      (s.running c true = true ∧ (s.irqPc = .p1 ∨ s.irqPc = .p2 ∨ s.irqPc = .p3)) ∨ s.enqueuing c = true

/-! ### Runs -/

/-- The run is quiescent: nothing in progress, nothing to issue, nothing in flight, nothing that could be granted,
nothing left in the schedule (R257). -/
def State.Quiescent (s : State) : Prop :=
  s.hostPc = .idle ∧ s.words = [] ∧ s.inHandler = false ∧
    (∀ c : ChNum, s.validCh c = true → (s.chan c).txe = true) ∧
    (s.ie = false ∨ ∀ c : ChNum, s.validCh c = true → (s.chan c).txPending = false ∧ (s.chan c).rxPending = false) ∧
    s.sched = []

/-- An infinite run: each state is the next of the one before by some agent's step, whatever the schedules say. -/
def IsRun (run : Nat → State) : Prop :=
  ∀ n, ∃ e u, (run n).eventStep e = .next u ∧ run (n + 1) = { u with sched := (run (n + 1)).sched }

/-- The fairness of R79, which is about infinite runs and no part of a step (assumption log 17): a busy
transmitter finishes, a request that stays grantable is granted, a started operation or handler goes on. -/
def Fair (run : Nat → State) : Prop :=
  (∀ n c, (run n).validCh c = true → ((run n).chan c).txe = false → ∃ m, n ≤ m ∧ ((run m).chan c).txe = true) ∧
  (∀ n r, ∃ m, n ≤ m ∧ ¬((run m).pending r = true ∧ (run m).ie = true ∧ (run m).inHandler = false)) ∧
  (∀ n, (run n).hostPc ≠ .idle → ∃ m, n < m ∧
    ((run m).hostPc ≠ (run n).hostPc ∨ (run m).hostI ≠ (run n).hostI)) ∧
  (∀ n, (run n).irqPc ≠ .idle → ∃ m, n < m ∧ (run m).irqPc ≠ (run n).irqPc)

end Sys2Proof.Machine
end

