-- ==== Sys2Proof/Certificates/Slice0/Obligations.lean ====
section
/-! DEFINITION. The statements for the provers, each a `def Obligations.<Name> : Prop` with the rule of spec/ it
formalises. An operation's own step is stated at each of its micro-steps, as an equation for the next state: what
the equation does not name is unchanged. In those equations the trace `hostlog` (assumption log 12) and the value 0 of a
sequencer's locals once its operation has returned (log 13) are the model's own, not a rule's. -/

open Sys2Proof Sys2Proof.Machine

/-! ### Encoding -/

/-- Every command with every operand is read back from its words, whatever words follow, and every handler entry
from its request number (R91 to R96, R101). -/
def Obligations.DecodeReadsBackEveryEncoding : Prop :=
  (∀ (i : Instr) (rest : List Half), i.isCommand = true → i.wf 8 = true →
    decodeCommand (encodeWords i ++ rest) = .instr i rest) ∧
  (∀ i : Instr, i.isCommand = false → decode (encode i) = .instr i [])

/-- Every command that is read is the encoding of one well-formed command: each word has one meaning (R93, R95, R96). -/
def Obligations.EveryDecodedCommandIsItsEncoding : Prop :=
  ∀ (ws rest : List Half) (i : Instr), decodeCommand ws = .instr i rest →
    i.isCommand = true ∧ i.wf 8 = true ∧ ws = encodeWords i ++ rest

/-- The decoder's choice is the match and mask of R93's table, and no word matches two rows. -/
def Obligations.HeaderSelectsByMatchAndMask : Prop :=
  (∀ (w : Half) (r : OpRow), r ∈ opTable →
    (r.selects w = true ↔ ∃ h, decodeHeader w = .ok h ∧ h.op = r.op)) ∧
  (∀ (w : Half) (r r' : OpRow), r ∈ opTable → r' ∈ opTable → r.selects w = true → r'.selects w = true → r = r')

/-- A command is illegal exactly as R99 lists: by its header, the fields being read by arithmetic on the word's number, or,
for an `ENQ_OUT` all of whose words are there, by a payload word with one of bits 15:8 set. -/
def Obligations.IllegalHeadersAreThoseListed : Prop :=
  (∀ w : Half, (∃ why, decodeHeader w = .error why) ↔
    (w.toNat / 4096 = 0 ∨ 9 ≤ w.toNat / 4096 ∨
      (w.toNat / 4096 = 2 ∧ w.toNat % 256 ≠ 0) ∨
      (3 ≤ w.toNat / 4096 ∧ w.toNat / 4096 ≤ 6 ∧ w.toNat / 2048 % 2 = 1) ∨
      (5 ≤ w.toNat / 4096 ∧ w.toNat / 4096 ≤ 6 ∧ w.toNat % 256 ≠ 0) ∨
      (7 ≤ w.toNat / 4096 ∧ w.toNat / 4096 ≤ 8 ∧ w.toNat % 4096 ≠ 0))) ∧
  (∀ (w : Half) (ws : List Half) (why : Illegal), decodeHeader w = .error why →
    ∃ rest, decodeCommand (w :: ws) = .illegal why rest) ∧
  (∀ (ch : ChNum) (k : Byte) (ws : List Half), k.toNat ≤ ws.length →
    ((∃ why rest, decodeCommand (header 3 0 ch k :: ws) = .illegal why rest) ↔
      ∃ w ∈ ws.take k.toNat, 256 ≤ w.toNat))

/-- The words of R102's table, written out from the fields, decode to the commands it names. -/
def Obligations.SpecWordsDecode : Prop :=
  decodeCommand [0x1011] = .instr (.push .out 0 0x11) [] ∧
  decodeCommand [0x1AAB] = .instr (.push .inp 2 0xAB) [] ∧
  decodeCommand [0x2000] = .instr (.pop .out 0) [] ∧
  decodeCommand [0x2A00] = .instr (.pop .inp 2) [] ∧
  decodeCommand [0x3103, 0x0041, 0x0042, 0x0043] = .instr (.enqOut 1 [0x41, 0x42, 0x43]) [] ∧
  decodeCommand [0x447F] = .instr (.enqIn 4 0x7F) [] ∧
  decodeCommand [0x5200] = .instr (.deqIn 2) [] ∧
  decodeCommand [0x6100] = .instr (.pump 1) [] ∧
  decodeCommand [0x7000] = .instr .ieSet [] ∧
  decodeCommand [0x8000] = .instr .ieClr [] ∧
  decodeRequest 4 = .rxirq 2 ∧ decodeRequest 9 = .txirq 4

/-- `irq[3:1] = ch`, `irq[0] = t`: the number is `2 * ch + t`, its handler is read back from it, and it is a request
of a core with `n` channels exactly when it is below `2 * n` (R101). -/
def Obligations.RequestNumbersNameHandlers : Prop :=
  ∀ (c : ChNum) (n : Nat),
    (requestNumber c false).toNat = 2 * c.toNat ∧ (requestNumber c true).toNat = 2 * c.toNat + 1 ∧
    decodeRequest (requestNumber c false) = .rxirq c ∧ decodeRequest (requestNumber c true) = .txirq c ∧
    ((Instr.rxirq c).wf n = true ↔ (requestNumber c false).toNat < 2 * n) ∧
    ((Instr.txirq c).wf n = true ↔ (requestNumber c true).toNat < 2 * n)

/-- A response word is 256 times the error's number plus the byte; the numbers are 0 to 6 in the order of R98, and
bits 15:11 are 0 (R97, R98, R100). -/
def Obligations.ResponseWordIsErrorAndByte : Prop :=
  (∀ (e : ErrVal) (b : Byte), (responseWord e b).toNat = 256 * e.code.toNat + b.toNat ∧
    responseErr (responseWord e b) = e.code ∧ responseData (responseWord e b) = b) ∧
  [ErrVal.none, .full, .empty, .hardwareNotReady, .unexpectedFull, .unexpectedEmpty, .invalidChannel].map
    (fun e => e.code.toNat) = [0, 1, 2, 3, 4, 5, 6]

/-! ### One buffer -/

/-- The micro-steps `push` and `pop` on buffer `F[c][d]` (R120, R121). `push`: `Full` with the whole state as before
exactly when `occ = C`; else the byte is stored at `head`, every other slot reads as before, `head` advances modulo `C`,
`occ` grows by one. `pop`: `Empty` with the whole state as before exactly when `occ = 0`; else the byte at `tail`, no slot
changed, `tail` advanced, `occ` one less. Nothing else of the state changes, `ie` included. -/
def Obligations.PushAndPopAreOneMicroStep : Prop :=
  (∀ (s : State) (c : ChNum) (d : Dir) (v : Byte), (s.ring c d).head < s.cfg.cap →
    ((s.ring c d).occ = s.cfg.cap → s.pushRing c d v = .ok (.full, s)) ∧
    ((s.ring c d).occ ≠ s.cfg.cap → ∃ G, s.pushRing c d v = .ok (.none, s.setRing c d G) ∧
      G.head = ((s.ring c d).head + 1) % s.cfg.cap ∧ G.tail = (s.ring c d).tail ∧ G.occ = (s.ring c d).occ + 1 ∧
      ∀ i, G.slot i = if i = (s.ring c d).head then v else (s.ring c d).slot i)) ∧
  (∀ (s : State) (c : ChNum) (d : Dir), (s.ring c d).tail < s.cfg.cap →
    ((s.ring c d).occ = 0 → s.popRing c d = .ok (none, s)) ∧
    ((s.ring c d).occ ≠ 0 → ∃ G,
      s.popRing c d = .ok (some ((s.ring c d).slot (s.ring c d).tail), s.setRing c d G) ∧
      G.tail = ((s.ring c d).tail + 1) % s.cfg.cap ∧ G.head = (s.ring c d).head ∧ G.occ = (s.ring c d).occ - 1 ∧
      ∀ i, G.slot i = (s.ring c d).slot i))

/-- The buffer invariant of R26, with R22's consequence and the storage's form, holds of a fresh buffer of any
capacity and survives every `push` and every `pop`, which under it never fault; and under it `head`, `tail` and `occ` are
the values of registers of `IDX_W`, `IDX_W` and `OCC_W` bits (R14, R22 to R26, R61). -/
def Obligations.BufferInvariantIsKept : Prop :=
  (∀ cap n, 1 ≤ cap → Ring.Inv cap (Ring.fresh n)) ∧
  (∀ (cap : Nat) (F : Ring) (v : Byte), Ring.Inv cap F →
    ∃ e G, F.push cap v = .ok (e, G) ∧ Ring.Inv cap G) ∧
  (∀ (cap : Nat) (F : Ring), Ring.Inv cap F → ∃ r G, F.pop cap = .ok (r, G) ∧ Ring.Inv cap G) ∧
  (∀ (cap : Nat) (F : Ring), Ring.Inv cap F →
    (F.headReg cap).toNat = F.head ∧ (F.tailReg cap).toNat = F.tail ∧ (F.occReg cap).toNat = F.occ)

/-- FIFO order on the held sequence `s`: a push succeeds exactly when there is room and makes it `s ++ [v]`, a pop
succeeds exactly when it is not empty, returns its first element and leaves the rest, a failed operation leaves it `s`;
it has `occ` elements. So behaviour depends only on `occ` and the held sequence (R26, R127, R128). -/
def Obligations.HeldBytesFollowFifoOrder : Prop :=
  ∀ (cap : Nat) (F : Ring), Ring.Inv cap F →
    (Ring.held cap F).length = F.occ ∧
    (∀ v : Byte, F.occ < cap → ∃ G, F.push cap v = .ok (.none, G) ∧ Ring.held cap G = Ring.held cap F ++ [v]) ∧
    (∀ v : Byte, F.occ = cap → F.push cap v = .ok (.full, F)) ∧
    (∀ (b : Byte) (bs : List Byte), Ring.held cap F = b :: bs →
      ∃ G, F.pop cap = .ok (some b, G) ∧ Ring.held cap G = bs) ∧
    (Ring.held cap F = [] → F.pop cap = .ok (none, F))

/-- From an empty buffer at any index, `n <= C` pushes all succeed and the next `n` pops return exactly those bytes in
order; after `C` pushes the pointers are where they were and `occ = C`, after the pops they are where the pushes left
them and `occ = 0`: no drift (R127, R128). -/
def Obligations.PushesThenPopsReturnTheBytesInOrder : Prop :=
  ∀ (cap : Nat) (F : Ring) (vs : List Byte), Ring.Inv cap F → F.occ = 0 → vs.length ≤ cap →
    ∃ G H, Ring.pushAll cap F vs = some G ∧ G.head = (F.head + vs.length) % cap ∧ G.tail = F.tail ∧
      G.occ = vs.length ∧
      Ring.popAll cap G vs.length = some (vs, H) ∧ H.head = G.head ∧ H.tail = G.head ∧ H.occ = 0 ∧
      (vs.length = cap → G.head = F.head)

/-- On a buffer neither empty nor full a push and a pop give the same state and the same byte in either order (R76). -/
def Obligations.PushAndPopCommuteBetweenTheBounds : Prop :=
  ∀ (cap : Nat) (F : Ring) (v : Byte), Ring.Inv cap F → 0 < F.occ → F.occ < cap →
    ∃ b G1 G2 H, F.push cap v = .ok (.none, G1) ∧ G1.pop cap = .ok (some b, H) ∧
      F.pop cap = .ok (some b, G2) ∧ G2.push cap v = .ok (.none, H)

/-- The atomic section restores the `ie` it found, on the success and on the `Full` and `Empty` paths, from 0 and
from 1, and runs its body with `ie = 0` (R192). -/
def Obligations.AtomicSectionRestoresIe : Prop :=
  (∀ (s t : State) (r : Bool) (body : State → Except Fault (Bool × State)),
    s.atomic body = .ok (r, t) → t.ie = s.ie ∧
      ∃ u, body { s with ie := false } = .ok (r, u) ∧ t = { u with ie := s.ie }) ∧
  (∀ (s t : State) (c : ChNum) (d : Dir) (v : Byte) (e : ErrVal), s.pushRing c d v = .ok (e, t) → t.ie = s.ie) ∧
  (∀ (s t : State) (c : ChNum) (d : Dir) (r : Option Byte), s.popRing c d = .ok (r, t) → t.ie = s.ie)

/-! ### The commands, micro-step by micro-step -/

/-- S0 of every command that takes a channel: `InvalidChannel` when `ch >= N_CH`, nothing being read or written (R208);
on a channel of the core only the sequencer moves on, to P1 for `PUMP` and to S1 for the five others. -/
def Obligations.ChannelCheckComesFirst : Prop :=
  ∀ (s : State) (i : Instr) (ch : ChNum), i.isCommand = true → i.chan? = some ch → s.hostPc = .s0 →
    (s.cfg.nCh ≤ ch.toNat → exec i s = .next (s.answered i 0x0600)) ∧
    (ch.toNat < s.cfg.nCh → exec i s = .next { s with hostPc := if i = .pump ch then .p1 else .s1 })

/-- S1 of `PUSH` and of `ENQ_IN`. With room: the byte is stored in the named buffer, the answer is 0x0000, and every
other slot and every other buffer reads as before. On a full buffer: `Full`, the byte is dropped, nothing else
changes (R120, R123, R155, R158). -/
def Obligations.PushAndEnqInStoreOrReject : Prop :=
  ∀ (s : State) (d : Dir) (ch : ChNum) (v : Byte), s.hostPc = .s1 → ch.toNat < s.cfg.nCh →
    ((s.ring ch d).occ < s.cfg.cap → (s.ring ch d).head < s.cfg.cap →
      exec (.push d ch v) s =
        .next ((s.setRing ch d (Ring.pushed s.cfg.cap (s.ring ch d) v)).answered (.push d ch v) 0x0000) ∧
      (d = .inp → exec (.enqIn ch v) s =
        .next ((s.setRing ch .inp (Ring.pushed s.cfg.cap (s.ring ch .inp) v)).answered (.enqIn ch v) 0x0000)) ∧
      (∀ i, (Ring.pushed s.cfg.cap (s.ring ch d) v).slot i =
        if i = (s.ring ch d).head then v else (s.ring ch d).slot i) ∧
      (∀ (c' : ChNum) (d' : Dir), (c' ≠ ch ∨ d' ≠ d) →
        (s.setRing ch d (Ring.pushed s.cfg.cap (s.ring ch d) v)).ring c' d' = s.ring c' d')) ∧
    ((s.ring ch d).occ = s.cfg.cap →
      exec (.push d ch v) s = .next (s.answered (.push d ch v) 0x0100) ∧
      (d = .inp → exec (.enqIn ch v) s = .next (s.answered (.enqIn ch v) 0x0100)))

/-- S1 of `POP` and of `DEQ_IN`. On a buffer that holds a byte: the byte at `tail` is the answer's `DATA`, and every slot
of every buffer reads as before. On an empty buffer: `Empty`, no byte, nothing else changes (R121, R124, R156, R159). -/
def Obligations.PopAndDeqInReturnOrReject : Prop :=
  ∀ (s : State) (d : Dir) (ch : ChNum), s.hostPc = .s1 → ch.toNat < s.cfg.nCh →
    (∀ b : Byte, 0 < (s.ring ch d).occ → (s.ring ch d).tail < s.cfg.cap →
      b = (s.ring ch d).slot (s.ring ch d).tail →
      exec (.pop d ch) s =
        .next ((s.setRing ch d (Ring.popped s.cfg.cap (s.ring ch d))).answered (.pop d ch) (b.setWidth 16)) ∧
      (d = .inp → exec (.deqIn ch) s =
        .next ((s.setRing ch .inp (Ring.popped s.cfg.cap (s.ring ch .inp))).answered (.deqIn ch) (b.setWidth 16))) ∧
      (∀ (c' : ChNum) (d' : Dir) (i : Nat),
        ((s.setRing ch d (Ring.popped s.cfg.cap (s.ring ch d))).ring c' d').slot i = (s.ring c' d').slot i)) ∧
    ((s.ring ch d).occ = 0 →
      exec (.pop d ch) s = .next (s.answered (.pop d ch) 0x0200) ∧
      (d = .inp → exec (.deqIn ch) s = .next (s.answered (.deqIn ch) 0x0200)))

/-- S1 of `ENQ_OUT`, the pre-check: `Full` and nothing written when the room is less than `k`; else the occupancy is
sampled and the fill, or for an empty batch S3, is next (R142, R146). -/
def Obligations.EnqOutPreChecksTheWholeBatch : Prop :=
  ∀ (s : State) (ch : ChNum) (p : List Byte), s.hostPc = .s1 → ch.toNat < s.cfg.nCh →
    (s.cfg.cap - (s.ring ch .out).occ < p.length →
      exec (.enqOut ch p) s = .next (s.answered (.enqOut ch p) 0x0100)) ∧
    (p.length ≤ s.cfg.cap - (s.ring ch .out).occ →
      exec (.enqOut ch p) s = .next { s with
        hostOcc := (s.ring ch .out).occ, hostI := 0, hostPc := if p = [] then .s3 else .s2 })

/-- S2.i of `ENQ_OUT`: byte `p[i]` is pushed, every other slot reading as before, and S2.(i+1) or after the last byte
S3 is next; on a full buffer `UnexpectedFull` stops the command, the bytes already pushed stay, the rest are not pushed
and no pump runs (R143). -/
def Obligations.EnqOutFillsByteByByte : Prop :=
  ∀ (s : State) (ch : ChNum) (p : List Byte), s.hostPc = .s2 → ch.toNat < s.cfg.nCh →
    (∀ v : Byte, p[s.hostI]? = some v → (s.ring ch .out).occ < s.cfg.cap → (s.ring ch .out).head < s.cfg.cap →
      exec (.enqOut ch p) s = .next
        { s.setRing ch .out (Ring.pushed s.cfg.cap (s.ring ch .out) v) with
          hostI := s.hostI + 1, hostPc := if s.hostI + 1 = p.length then .s3 else .s2 } ∧
      (∀ i, (Ring.pushed s.cfg.cap (s.ring ch .out) v).slot i =
        if i = (s.ring ch .out).head then v else (s.ring ch .out).slot i)) ∧
    (s.hostI < p.length → (s.ring ch .out).occ = s.cfg.cap →
      exec (.enqOut ch p) s = .next (s.answered (.enqOut ch p) 0x0400))

/-- S3 of `ENQ_OUT`: a busy transmitter ends the command with `None` and no pump call; an idle one is armed (R144). -/
def Obligations.EnqOutReadsTheFlag : Prop :=
  ∀ (s : State) (ch : ChNum) (p : List Byte), s.hostPc = .s3 → ch.toNat < s.cfg.nCh →
    ((s.chan ch).txe = false → exec (.enqOut ch p) s = .next (s.answered (.enqOut ch p) 0x0000)) ∧
    ((s.chan ch).txe = true → exec (.enqOut ch p) s = .next { s with hostT := true, hostPc := .p1 })

/-- The pump in the host context, run by `PUMP` and by `ENQ_OUT`'s arming. P1 reads the flag again: ready, P2 is next;
not ready, `PUMP` answers `HardwareNotReady`. P2 takes the oldest output byte; on an empty buffer `PUMP` answers `Empty`.
P3 on a ready transmitter that was never overrun gives it the byte, `txe` falls, and the command answers `None`.
`ENQ_OUT` drops the pump's result and answers `None` in every case (R66, R145, R170). -/
def Obligations.HostPumpMovesOneByte : Prop :=
  ∀ (s : State) (ch : ChNum) (p : List Byte), ch.toNat < s.cfg.nCh →
    (s.hostPc = .p1 → (s.chan ch).txe = true →
      exec (.pump ch) s = .next { s with hostT := true, hostPc := .p2 } ∧
      exec (.enqOut ch p) s = .next { s with hostT := true, hostPc := .p2 }) ∧
    (s.hostPc = .p1 → (s.chan ch).txe = false →
      exec (.pump ch) s = .next (s.answered (.pump ch) 0x0300) ∧
      exec (.enqOut ch p) s = .next (s.answered (.enqOut ch p) 0x0000)) ∧
    (s.hostPc = .p2 → (s.ring ch .out).occ = 0 →
      exec (.pump ch) s = .next (s.answered (.pump ch) 0x0200) ∧
      exec (.enqOut ch p) s = .next (s.answered (.enqOut ch p) 0x0000)) ∧
    (∀ b, s.hostPc = .p2 → 0 < (s.ring ch .out).occ → (s.ring ch .out).tail < s.cfg.cap →
      b = (s.ring ch .out).slot (s.ring ch .out).tail →
      exec (.pump ch) s = .next
        { s.setRing ch .out (Ring.popped s.cfg.cap (s.ring ch .out)) with hostPc := .p3, hostB := b } ∧
      exec (.enqOut ch p) s = .next
        { s.setRing ch .out (Ring.popped s.cfg.cap (s.ring ch .out)) with hostPc := .p3, hostB := b }) ∧
    (s.hostPc = .p3 → (s.chan ch).txe = true → (s.chan ch).txOverrun = false →
      exec (.pump ch) s = .next ((s.setChan ch { s.chan ch with
        txData := s.hostB, txe := false, txlog := (s.chan ch).txlog ++ [s.hostB] }).answered (.pump ch) 0x0000) ∧
      exec (.enqOut ch p) s = .next ((s.setChan ch { s.chan ch with
        txData := s.hostB, txe := false, txlog := (s.chan ch).txlog ++ [s.hostB] }).answered (.enqOut ch p) 0x0000))

/-- P3 on a busy transmitter, or on one that has been overrun before, at each of the pump's call sites: the fault flag
`tx_overrun` is set, `txe` is 0 afterwards, and the operation goes on as after any P3; every buffer, every other channel
and the rest of the channel are as before, `tx_data` and `txlog` being open (R66). -/
def Obligations.WriteToABusyTransmitterIsAFault : Prop :=
  ∀ (s : State) (ch : ChNum) (p : List Byte), ch.toNat < s.cfg.nCh →
    ((s.chan ch).txe = false ∨ (s.chan ch).txOverrun = true) →
    (s.hostPc = .p3 → ∃ t b l, exec (.pump ch) s = .next t ∧
      t = { (s.setChan ch { s.chan ch with
          txOverrun := true, txe := false, txData := b, txlog := l }).answered (.pump ch) 0x0000 with
        freeCtr := t.freeCtr }) ∧
    (s.hostPc = .p3 → ∃ t b l, exec (.enqOut ch p) s = .next t ∧
      t = { (s.setChan ch { s.chan ch with
          txOverrun := true, txe := false, txData := b, txlog := l }).answered (.enqOut ch p) 0x0000 with
        freeCtr := t.freeCtr }) ∧
    (s.irqPc = .p3 → ∃ t b l, exec (.txirq ch) s = .next t ∧
      t = { s.setChan ch { s.chan ch with txOverrun := true, txe := false, txData := b, txlog := l } with
        irqPc := .t4, freeCtr := t.freeCtr })

/-- `IE_SET` is the word 0x7000 exactly and `IE_CLR` the word 0x8000; the one micro-step of each writes `ie` and answers
0x0000, changing no request and nothing else. While `ie = 0` no grant is taken; right after `IE_SET` a pending request may
be granted, and under `eager` HOST has no step before that (R190, R191). -/
def Obligations.InterruptControlWritesIe : Prop :=
  (∀ w : Half, decodeCommand [w] = .instr .ieSet [] ↔ w = 0x7000) ∧
  (∀ w : Half, decodeCommand [w] = .instr .ieClr [] ↔ w = 0x8000) ∧
  (∀ s : State, s.hostPc = .s1 →
    exec .ieSet s = .next (({ s with ie := true } : State).answered .ieSet 0x0000) ∧
    exec .ieClr s = .next (({ s with ie := false } : State).answered .ieClr 0x0000)) ∧
  (∀ (s : State) (r : IrqNum), s.ie = false → s.eventStep (.grant r) = .refused .notEnabled) ∧
  (∀ (s : State) (r : IrqNum), s.hostPc = .s1 → s.inHandler = false → s.cfg.arbOrder = .any → s.pending r = true →
    ∃ t u, exec .ieSet s = .next t ∧ t.eventStep (.grant r) = .next u ∧
      (s.cfg.grantPolicy = .eager → t.eventStep .host = .refused .notEnabled))

/-- The three micro-steps of `RXIRQ(c)`: G1 reads `rx_data` and clears the request, G2 pushes the byte or drops it on a
full buffer, G3 returns; nothing is reported (R67, R157, R158, R218). -/
def Obligations.RxirqMovesTheArrivedByte : Prop :=
  ∀ (s : State) (c : ChNum), c.toNat < s.cfg.nCh →
    (s.irqPc = .g1 → exec (.rxirq c) s = .next
      { s.setChan c { s.chan c with rxPending := false } with irqB := (s.chan c).rxData, irqPc := .g2 }) ∧
    (s.irqPc = .g2 → (s.ring c .inp).occ = s.cfg.cap → exec (.rxirq c) s = .next { s with irqPc := .g3 }) ∧
    (s.irqPc = .g2 → (s.ring c .inp).occ < s.cfg.cap → (s.ring c .inp).head < s.cfg.cap →
      exec (.rxirq c) s = .next
        { s.setRing c .inp (Ring.pushed s.cfg.cap (s.ring c .inp) s.irqB) with irqPc := .g3 }) ∧
    (s.irqPc = .g3 → ∃ t, exec (.rxirq c) s = .next t ∧
      t = { s with inHandler := false, irqPc := .idle, irqT := false, irqB := 0,
                   curIrq := t.curIrq, freeCtr := t.freeCtr })

/-- The micro-steps of `TXIRQ(c)`: P1 to P3 of the pump up to the first return, whose value is discarded, then T4
returns (R170, R171, R218). -/
def Obligations.TxirqPumpsOneByte : Prop :=
  ∀ (s : State) (c : ChNum), c.toNat < s.cfg.nCh →
    (s.irqPc = .p1 → (s.chan c).txe = true → exec (.txirq c) s = .next { s with irqT := true, irqPc := .p2 }) ∧
    (s.irqPc = .p1 → (s.chan c).txe = false → exec (.txirq c) s = .next { s with irqT := false, irqPc := .t4 }) ∧
    (s.irqPc = .p2 → (s.ring c .out).occ = 0 → exec (.txirq c) s = .next { s with irqPc := .t4 }) ∧
    (∀ b, s.irqPc = .p2 → 0 < (s.ring c .out).occ → (s.ring c .out).tail < s.cfg.cap →
      b = (s.ring c .out).slot (s.ring c .out).tail →
      exec (.txirq c) s = .next
        { s.setRing c .out (Ring.popped s.cfg.cap (s.ring c .out)) with irqPc := .p3, irqB := b }) ∧
    (s.irqPc = .p3 → (s.chan c).txe = true → (s.chan c).txOverrun = false →
      exec (.txirq c) s = .next
        { s.setChan c { s.chan c with
            txData := s.irqB, txe := false, txlog := (s.chan c).txlog ++ [s.irqB] } with irqPc := .t4 }) ∧
    (s.irqPc = .t4 → ∃ t, exec (.txirq c) s = .next t ∧
      t = { s with inHandler := false, irqPc := .idle, irqT := false, irqB := 0,
                   curIrq := t.curIrq, freeCtr := t.freeCtr })

/-- Where no micro-step of the operation is: at a label it does not have (S2.i with no byte p[i] too) an operation is
refused by name, and past its channel check on a channel the core does not have it faults by name (the model's choice,
assumption log 14). -/
def Obligations.OffItsLabelsAnOperationStops : Prop :=
  (∀ (s : State) (i : Instr), i.isCommand = true → hasHostLabel i s.hostPc = false →
    exec i s = .refused .notAtMicroStep) ∧
  (∀ (s : State) (c : ChNum), s.irqPc ≠ .g1 → s.irqPc ≠ .g2 → s.irqPc ≠ .g3 →
    exec (.rxirq c) s = .refused .notAtMicroStep) ∧
  (∀ (s : State) (c : ChNum), s.irqPc ≠ .p1 → s.irqPc ≠ .p2 → s.irqPc ≠ .p3 → s.irqPc ≠ .t4 →
    exec (.txirq c) s = .refused .notAtMicroStep) ∧
  (∀ (s : State) (i : Instr) (ch : ChNum), i.isCommand = true → i.chan? = some ch → hasHostLabel i s.hostPc = true →
    s.hostPc ≠ .s0 → s.cfg.nCh ≤ ch.toNat → exec i s = .fault .noSuchChannel) ∧
  (∀ (s : State) (c : ChNum), s.cfg.nCh ≤ c.toNat →
    (s.irqPc = .g1 ∨ s.irqPc = .g2 ∨ s.irqPc = .g3 → exec (.rxirq c) s = .fault .noSuchChannel) ∧
    (s.irqPc = .p1 ∨ s.irqPc = .p2 ∨ s.irqPc = .p3 ∨ s.irqPc = .t4 →
      exec (.txirq c) s = .fault .noSuchChannel)) ∧
  (∀ (s : State) (ch : ChNum) (p : List Byte), s.hostPc = .s2 → ch.toNat < s.cfg.nCh → p.length ≤ s.hostI →
    exec (.enqOut ch p) s = .refused .notAtMicroStep)

/-! ### The machine's step -/

/-- A step runs the decoded instruction. HOST's entry of the schedule takes the command its words spell (the words leave
the port, the command is latched, its first label is S1 for `IE_SET` and `IE_CLR` and S0 for the others) and runs its
first micro-step, or runs the next micro-step of the command in progress. IRQ's entry runs the next micro-step of the
handler that `cur_irq` names. The rest of the schedule is left (R37, R96, R101, R217). That the words leave the port and the
command is latched in the same step as its first micro-step is the model's reading (assumption log 13); the schedule is
the model's own (log 3). -/
def Obligations.StepRunsTheDecodedInstruction : Prop :=
  (∀ (s : State) (es : List Event) (i : Instr) (rest : List Half),
    s.sched = .host :: es → s.inHandler = false → s.cmdFault = false →
    (s.cfg.grantPolicy = .any ∨ s.grantWaiting = false) →
    (s.hostPc = .idle → decodeCommand s.words = .instr i rest →
      step s = exec i { s with
        sched := es, words := rest, hostCmd := some i,
        hostPc := if i = .ieSet ∨ i = .ieClr then .s1 else .s0 }) ∧
    (s.hostPc ≠ .idle → s.hostCmd = some i → step s = exec i { s with sched := es })) ∧
  (∀ (s : State) (es : List Event) (c : ChNum), s.sched = .irq :: es → s.inHandler = true → c.toNat < s.cfg.nCh →
    (s.curIrq = requestNumber c false → step s = exec (.rxirq c) { s with sched := es }) ∧
    (s.curIrq = requestNumber c true → step s = exec (.txirq c) { s with sched := es }))

/-- An illegal command sets `cmd_fault` and changes no other state of the core: no response. After it HOST has no step; a
grant, a micro-step of a handler, `TX_DONE` and `RX_ARRIVE` answer what they answer without the flag, the next state too
(R99). Which words of the port an illegal command takes (`rest`) is the model's choice (assumption log 15). -/
def Obligations.IllegalCommandStopsTheHost : Prop :=
  (∀ (s : State) (es : List Event) (why : Illegal) (rest : List Half),
    s.sched = .host :: es → s.hostPc = .idle → s.inHandler = false → s.cmdFault = false →
    (s.cfg.grantPolicy = .any ∨ s.grantWaiting = false) → decodeCommand s.words = .illegal why rest →
    step s = .next { s with sched := es, words := rest, cmdFault := true }) ∧
  (∀ s : State, s.cmdFault = true → s.eventStep .host = .refused .notEnabled) ∧
  (∀ (s : State) (e : Event), e ≠ .host → e ≠ .reset →
    (∀ t, s.eventStep e = .next t →
      ({ s with cmdFault := true } : State).eventStep e = .next { t with cmdFault := true }) ∧
    (∀ f, s.eventStep e = .fault f → ({ s with cmdFault := true } : State).eventStep e = .fault f) ∧
    (∀ r, s.eventStep e = .refused r → ({ s with cmdFault := true } : State).eventStep e = .refused r))

/-- A command whose words have not all been issued has not started: HOST has no step (R96). -/
def Obligations.IncompleteCommandHasNotStarted : Prop :=
  (∀ s : State, s.hostPc = .idle → decodeCommand s.words = .incomplete →
    s.eventStep .host = .refused .notEnabled) ∧
  (∀ (ch : ChNum) (k : Byte) (ws : List Half), ws.length < k.toNat →
    decodeCommand (header 3 0 ch k :: ws) = .incomplete)

/-! ### The arbiter and the environment -/

/-- `GRANT(r)`: taken exactly when `ie = 1`, no handler runs and `r` is pending on a channel of the core; it starts the
handler of `r` at its first micro-step, clears a transmit request, and changes nothing else; under `eager` HOST has no
step while one can be taken (R213, R217). -/
def Obligations.GrantStartsTheHandler : Prop :=
  ∀ (s : State) (c : ChNum), s.cfg.arbOrder = .any →
    (s.ie = true → s.inHandler = false → c.toNat < s.cfg.nCh → (s.chan c).txPending = true →
      s.eventStep (.grant (requestNumber c true)) = .next
        { s.setChan c { s.chan c with txPending := false } with
          inHandler := true, curIrq := requestNumber c true, irqPc := .p1 }) ∧
    (s.ie = true → s.inHandler = false → c.toNat < s.cfg.nCh → (s.chan c).rxPending = true →
      s.eventStep (.grant (requestNumber c false)) = .next
        { s with inHandler := true, curIrq := requestNumber c false, irqPc := .g1 }) ∧
    (s.ie = false ∨ s.inHandler = true ∨ s.cfg.nCh ≤ c.toNat ∨ (s.chan c).txPending = false →
      s.eventStep (.grant (requestNumber c true)) = .refused .notEnabled) ∧
    (s.ie = false ∨ s.inHandler = true ∨ s.cfg.nCh ≤ c.toNat ∨ (s.chan c).rxPending = false →
      s.eventStep (.grant (requestNumber c false)) = .refused .notEnabled) ∧
    (s.cfg.grantPolicy = .eager → (∃ r t, s.eventStep (.grant r) = .next t) →
      s.eventStep .host = .refused .notEnabled)

/-- Under `ARB_ORDER = lowest` a grant is taken exactly for the pending request with the lowest number, and it does what
it does under `any` (R214). -/
def Obligations.LowestOrderGrantsTheLowestRequest : Prop :=
  ∀ (s : State) (r : IrqNum), s.cfg.arbOrder = .lowest →
    ((∃ t, s.eventStep (.grant r) = .next t) ↔
      (s.ie = true ∧ s.inHandler = false ∧ s.pending r = true ∧
        ∀ r', s.pending r' = true → r.toNat ≤ r'.toNat)) ∧
    (∀ t, s.eventStep (.grant r) = .next t →
      ({ s with cfg := { s.cfg with arbOrder := .any } } : State).eventStep (.grant r) =
        .next { t with cfg := { s.cfg with arbOrder := .any } })

/-- While a handler runs HOST takes no micro-step and no grant occurs; UART steps do (R9, R219). -/
def Obligations.RunningHandlerExcludesHostAndGrants : Prop :=
  ∀ s : State, s.inHandler = true →
    s.eventStep .host = .refused .notEnabled ∧
    (∀ r, s.eventStep (.grant r) = .refused .notEnabled) ∧
    (∀ c b, c.toNat < s.cfg.nCh → ∃ t, s.eventStep (.rxArrive c b) = .next t) ∧
    (∀ c, c.toNat < s.cfg.nCh → (s.chan c).txe = false → ∃ t, s.eventStep (.txDone c) = .next t)

/-- `TX_DONE(c)`: enabled exactly while `txe[c] = 0`, in any context and whatever `ie` is; it sets `txe[c]` and
`tx_pending[c]`. It is the only step but reset that sets `txe[c]`, and `txe[c]` falls only with a write of `tx_data[c]`,
which adds a byte to `txlog[c]` (R31, R225). -/
def Obligations.TxDoneReadiesTheTransmitter : Prop :=
  (∀ (s : State) (c : ChNum), c.toNat < s.cfg.nCh →
    ((s.chan c).txe = false →
      s.eventStep (.txDone c) = .next (s.setChan c { s.chan c with txe := true, txPending := true })) ∧
    ((s.chan c).txe = true → s.eventStep (.txDone c) = .refused .notEnabled)) ∧
  (∀ (s t : State) (e : Event) (c : ChNum), s.eventStep e = .next t →
    ((s.chan c).txe = false → (t.chan c).txe = true → e = .txDone c ∨ e = .reset) ∧
    ((s.chan c).txe = true → (t.chan c).txe = false → (s.chan c).txOverrun = false →
      (t.chan c).txlog = (s.chan c).txlog ++ [(t.chan c).txData]))

/-- `RX_ARRIVE(c, b)`: always enabled; into an empty register the byte goes to `rx_data` and raises the request; onto
an unread byte it sets `rx_overrun` and leaves `rx_data` open; `rxlog` records it either way (R226). -/
def Obligations.RxArriveDeliversOrOverruns : Prop :=
  ∀ (s : State) (c : ChNum) (b : Byte), c.toNat < s.cfg.nCh →
    ((s.chan c).rxPending = false →
      s.eventStep (.rxArrive c b) = .next (s.setChan c { s.chan c with
        rxlog := (s.chan c).rxlog ++ [b], rxData := b, rxPending := true })) ∧
    ((s.chan c).rxPending = true →
      ∃ t x, s.eventStep (.rxArrive c b) = .next t ∧
        t = { s.setChan c { s.chan c with
          rxlog := (s.chan c).rxlog ++ [b], rxOverrun := true, rxData := x } with freeCtr := t.freeCtr })

/-- The values R44 and R46 to R49 state for reset, for every channel, of a core with any parameters; the values of
`mem`, `tx_data`, `rx_data` and `cur_irq`, which they leave open, are not stated. -/
def Obligations.ResetLeavesTheStatedValues : Prop :=
  ∀ p : Params,
    (∀ (c : ChNum) (d : Dir), ((State.resetOf p).ring c d).occ = 0 ∧ ((State.resetOf p).ring c d).head = 0 ∧
      ((State.resetOf p).ring c d).tail = 0) ∧
    (∀ c : ChNum, ((State.resetOf p).chan c).txe = true ∧
      ((State.resetOf p).chan c).txPending = false ∧ ((State.resetOf p).chan c).rxPending = false ∧
      ((State.resetOf p).chan c).txOverrun = false ∧ ((State.resetOf p).chan c).rxOverrun = false ∧
      ((State.resetOf p).chan c).txlog = [] ∧ ((State.resetOf p).chan c).rxlog = []) ∧
    (State.resetOf p).ie = false ∧ (State.resetOf p).inHandler = false ∧
    (State.resetOf p).hostPc = .idle ∧ (State.resetOf p).hostCmd = none ∧ (State.resetOf p).irqPc = .idle ∧
    (State.resetOf p).cmdFault = false ∧
    State.reset = State.resetOf { cap := 128, nCh := 5, grantPolicy := .any, arbOrder := .any }

/-- `RESET` is possible at any boundary, whatever is in progress; every buffer is empty, every flag and sequencer at its
reset value, the traces are empty, no response is returned; the parameters stay (R29, R240, R241). That HOST's remaining
words and the schedule stay is the model's choice (assumption log 26), and so is that the model's own trace `hostlog` is
cleared (log 12). -/
def Obligations.ResetEventAbandonsEverything : Prop :=
  ∀ (s : State) (es : List Event), s.sched = .reset :: es →
    ∃ t, step s = .next t ∧ t.cfg = s.cfg ∧ t.sched = es ∧ t.words = s.words ∧
      (∀ (c : ChNum) (d : Dir), (t.ring c d).occ = 0 ∧ (t.ring c d).head = 0 ∧ (t.ring c d).tail = 0) ∧
      (∀ c : ChNum, (t.chan c).txe = true ∧ (t.chan c).txPending = false ∧ (t.chan c).rxPending = false ∧
        (t.chan c).txOverrun = false ∧ (t.chan c).rxOverrun = false ∧
        (t.chan c).txlog = [] ∧ (t.chan c).rxlog = []) ∧
      t.ie = false ∧ t.inHandler = false ∧ t.hostPc = .idle ∧ t.hostCmd = none ∧ t.irqPc = .idle ∧
      t.cmdFault = false ∧ t.hostlog = []

/-! ### Rules over every operation and every step -/

/-- The access table of R50. An operation on a channel leaves every other channel as it is, whole (R21, R80); no
operation writes `tx_pending`, `rxlog`, `rx_data` or `rx_overrun`; the output operations and `TXIRQ` leave the input
buffer and `rx_pending` as they are; the input operations and `RXIRQ` the output buffer and the transmit registers;
`PUSH` and `POP` write one buffer of their channel and nothing else of it; `IE_SET` and `IE_CLR` write no channel. -/
def Obligations.OperationsKeepToTheirSideOfTheirChannel : Prop :=
  (∀ (s t : State) (i : Instr) (c c' : ChNum), exec i s = .next t → i.chan? = some c → c' ≠ c →
    t.chan c' = s.chan c') ∧
  (∀ (s t : State) (i : Instr) (c : ChNum), exec i s = .next t →
    (t.chan c).txPending = (s.chan c).txPending ∧ (t.chan c).rxlog = (s.chan c).rxlog ∧
    (t.chan c).rxData = (s.chan c).rxData ∧ (t.chan c).rxOverrun = (s.chan c).rxOverrun) ∧
  (∀ (s t : State) (ch : ChNum) (p : List Byte) (c : ChNum),
    (exec (.enqOut ch p) s = .next t ∨ exec (.pump ch) s = .next t ∨ exec (.txirq ch) s = .next t) →
    (t.chan c).inp = (s.chan c).inp ∧ (t.chan c).rxPending = (s.chan c).rxPending) ∧
  (∀ (s t : State) (ch : ChNum) (v : Byte) (c : ChNum),
    (exec (.enqIn ch v) s = .next t ∨ exec (.deqIn ch) s = .next t ∨ exec (.rxirq ch) s = .next t) →
    (t.chan c).out = (s.chan c).out ∧ (t.chan c).txData = (s.chan c).txData ∧ (t.chan c).txe = (s.chan c).txe ∧
    (t.chan c).txOverrun = (s.chan c).txOverrun ∧ (t.chan c).txlog = (s.chan c).txlog) ∧
  (∀ (s t : State) (d : Dir) (ch : ChNum) (v : Byte) (c : ChNum),
    (exec (.push d ch v) s = .next t ∨ exec (.pop d ch) s = .next t) →
    t.chan c = (s.chan c).setRing d ((t.chan c).ring d)) ∧
  (∀ (s t : State) (c : ChNum), (exec .ieSet s = .next t ∨ exec .ieClr s = .next t) → t.chan c = s.chan c)

/-- Only `IE_SET`, `IE_CLR` and `RESET` leave `ie` other than they found it: the atomic section, grants and handler
returns do not (R35, R192, R217, R218). -/
def Obligations.OnlyInterruptControlChangesIe : Prop :=
  ∀ (s t : State) (e : Event), s.eventStep e = .next t → t.ie ≠ s.ie →
    e = .reset ∨ (e = .host ∧ (s.hostInstr = some .ieSet ∨ s.hostInstr = some .ieClr))

/-- The fault flags are sticky: only `RESET` clears one (R40). -/
def Obligations.FaultFlagsAreSticky : Prop :=
  ∀ (s t : State) (e : Event), s.eventStep e = .next t → e ≠ .reset →
    (s.cmdFault = true → t.cmdFault = true) ∧
    (∀ c : ChNum, ((s.chan c).txOverrun = true → (t.chan c).txOverrun = true) ∧
      ((s.chan c).rxOverrun = true → (t.chan c).rxOverrun = true))

/-- `C`, `N_CH` and the policies never change (R29, R7). -/
def Obligations.ParametersNeverChange : Prop :=
  ∀ s t : State, step s = .next t → t.cfg = s.cfg

/-! ### Invariants -/

/-- The machine's invariant holds at reset, of a core with any legal parameters, and so do the other properties that the
statements below say every step keeps: a safe pump, the order of the output and of the input, and a live drain. -/
def Obligations.InvariantHoldsAtReset : Prop :=
  State.reset.Inv ∧
  ∀ p : Params, p.wf = true → (State.resetOf p).Inv ∧ (State.resetOf p).EagerSafe ∧
    ∀ c : ChNum, (State.resetOf p).PumpSafe c ∧ (State.resetOf p).QuietPump c ∧ (State.resetOf p).OutputOrder c ∧
      (State.resetOf p).InputOrder c ∧ (State.resetOf p).InputComplete c ∧ (State.resetOf p).DrainAlive c

/-- Every step keeps the machine's invariant: R26 of every buffer, sound sequencers, room for the rest of a batch being
pushed, and only responses the core can produce. -/
def Obligations.EveryStepKeepsTheInvariant : Prop :=
  ∀ s t : State, s.Inv → step s = .next t → t.Inv

/-- Under the invariant the machine never stops: no step faults, and the only refusal is of a scheduled step whose guard
is false. So no access is out of range (R61, R200); that the slots read were written is part of the invariant (R22). -/
def Obligations.InvariantRulesOutEveryStop : Prop :=
  ∀ s : State, s.Inv →
    (∀ f, step s ≠ .fault f) ∧ (∀ r, step s = .refused r → r = .notEnabled) ∧
    (s.sched = [] → ∃ t, step s = .next t)

/-- No response ever carries `UnexpectedFull` (4), `UnexpectedEmpty` (5) or 7, and bits 15:11 are 0: from every state
that satisfies the invariant, `ENQ_OUT`'s failure branch included (R100, R148 (c), R206, R207). -/
def Obligations.NoResponseIsUnexpected : Prop :=
  ∀ s t : State, s.Inv → step s = .next t → ∀ x ∈ t.hostlog,
    responseErr x.2 ≠ 4 ∧ responseErr x.2 ≠ 5 ∧ responseErr x.2 ≠ 7 ∧ x.2.toNat < 2048

/-- Under `GRANT_POLICY = eager` the arming race cannot happen: no step overruns a transmitter (R213, R246). -/
def Obligations.EagerGrantsNeverOverrunATransmitter : Prop :=
  ∀ s t : State, s.cfg.grantPolicy = .eager → s.Inv → s.EagerSafe → step s = .next t → t.EagerSafe

/-- Under `eager` the bytes sent are the bytes enqueued, in order: sent, in a pump and held, together, are what the
accepted batches brought, and every step keeps that (R148 (d), R75). -/
def Obligations.EagerKeepsOutputOrder : Prop :=
  ∀ (s t : State) (c : ChNum), s.cfg.grantPolicy = .eager → s.Inv → s.EagerSafe → s.OutputOrder c →
    step s = .next t → t.OutputOrder c

/-- Under any policy, while no receive overrun happened: the bytes delivered, held and arriving are a subsequence of those
that arrived, in order, and every step keeps that; they are all of those that arrived, in order, and every step keeps that
but one in which the push of `RXIRQ(c)` answers `Full` (R158, R161). -/
def Obligations.EveryStepKeepsInputOrder : Prop :=
  (∀ (s t : State) (c : ChNum), s.Inv → s.InputOrder c → step s = .next t → t.InputOrder c) ∧
  (∀ (s t : State) (c : ChNum), s.Inv → s.InputComplete c → s.dropsArrival c = false → step s = .next t →
    t.InputComplete c)

/-- A channel with output bytes that only `ENQ_OUT` brought is never forgotten: it is busy, requested, being pumped or
about to be armed, and every step keeps that (R174, R175, R250). -/
def Obligations.EveryStepKeepsTheDrainAlive : Prop :=
  ∀ (s t : State) (c : ChNum), s.Inv → s.DrainAlive c → step s = .next t → t.DrainAlive c

/-- In a quiescent state with `ie = 1` an output buffer is empty or was left non-empty by `PUSH OUT`; and quiescent
means that no agent but the environment's arrivals and reset has a step (R257). That `step` then stays put is the model's
choice (assumption log 4). -/
def Obligations.QuiescentOutputsAreEmpty : Prop :=
  ∀ s : State, s.Inv → s.Quiescent →
    step s = .next s ∧
    (∀ e : Event, e ≠ .reset → (∀ c b, e ≠ .rxArrive c b) → s.eventStep e = .refused .notEnabled) ∧
    (∀ c : ChNum, c.toNat < s.cfg.nCh → s.ie = true → s.DrainAlive c →
      (s.ring c .out).occ = 0 ∨ s.noPushOut c = false)

/-! ### Whole operations -/

/-- A batch that fits, enqueued to an idle channel with interrupts off, takes `k + 6` micro-steps, triggers exactly one
pump call, which sends the oldest byte, and leaves the rest of the old bytes and the batch in the buffer, in order
(R140, R148 (b), R178 (b), R178 (d), R256). -/
def Obligations.EnqOutToAnIdleChannelSendsOneByte : Prop :=
  ∀ (s : State) (ch : ChNum) (p : List Byte) (rest : List Half) (es : List Event),
    s.Inv → s.hostPc = .idle → s.inHandler = false → s.ie = false → s.cmdFault = false →
    ch.toNat < s.cfg.nCh → p ≠ [] → p.length ≤ 255 → (s.ring ch .out).occ + p.length ≤ s.cfg.cap →
    (s.chan ch).txe = true → (s.chan ch).txOverrun = false →
    s.words = encodeWords (.enqOut ch p) ++ rest → s.sched = List.replicate (p.length + 6) .host ++ es →
    ∃ t b bs, Host.Core.run Sys2Proof.core (p.length + 6) s = .next t ∧
      Ring.held s.cfg.cap (s.ring ch .out) ++ p = b :: bs ∧
      Ring.held t.cfg.cap (t.ring ch .out) = bs ∧
      (t.chan ch).txData = b ∧ (t.chan ch).txe = false ∧ (t.chan ch).txlog = (s.chan ch).txlog ++ [b] ∧
      t.hostPc = .idle ∧ t.hostlog = s.hostlog ++ [(.enqOut ch p, 0x0000)] ∧ t.words = rest ∧ t.sched = es ∧
      t.chan ch = { s.chan ch with out := t.ring ch .out, txData := b, txe := false, txlog := (t.chan ch).txlog } ∧
      t.cfg = s.cfg ∧ t.ie = false ∧ t.cmdFault = false ∧ t.inHandler = false ∧ t.irqPc = s.irqPc ∧
      ∀ c, c ≠ ch → t.chan c = s.chan c

/-- A batch that fits, enqueued to a busy channel with interrupts off, takes `k + 3` micro-steps and triggers no pump
call: all its bytes wait in the buffer, and the rest of the channel, every other channel, `ie` and the handler are as
before (R144, R148 (b)). -/
def Obligations.EnqOutToABusyChannelOnlyFills : Prop :=
  ∀ (s : State) (ch : ChNum) (p : List Byte) (rest : List Half) (es : List Event),
    s.Inv → s.hostPc = .idle → s.inHandler = false → s.ie = false → s.cmdFault = false →
    ch.toNat < s.cfg.nCh → p.length ≤ 255 → (s.ring ch .out).occ + p.length ≤ s.cfg.cap →
    (s.chan ch).txe = false →
    s.words = encodeWords (.enqOut ch p) ++ rest → s.sched = List.replicate (p.length + 3) .host ++ es →
    ∃ t, Host.Core.run Sys2Proof.core (p.length + 3) s = .next t ∧
      Ring.held t.cfg.cap (t.ring ch .out) = Ring.held s.cfg.cap (s.ring ch .out) ++ p ∧
      t.chan ch = { s.chan ch with out := t.ring ch .out } ∧
      t.hostPc = .idle ∧ t.hostlog = s.hostlog ++ [(.enqOut ch p, 0x0000)] ∧ t.words = rest ∧ t.sched = es ∧
      t.cfg = s.cfg ∧ t.ie = false ∧ t.cmdFault = false ∧ t.inHandler = false ∧ t.irqPc = s.irqPc ∧
      ∀ c, c ≠ ch → t.chan c = s.chan c

/-- Drain termination: with `k` bytes held, `k` `PUMP` commands, each with a `TX_DONE` after it, succeed and send the
bytes in order, and the next one answers `Empty` (R175). -/
def Obligations.PumpDrainsExactlyTheHeldBytes : Prop :=
  ∀ (s : State) (ch : ChNum) (k : Nat) (rest : List Half) (es : List Event),
    s.Inv → s.hostPc = .idle → s.inHandler = false → s.ie = false → s.cmdFault = false →
    ch.toNat < s.cfg.nCh → (s.ring ch .out).occ = k → (s.chan ch).txe = true → (s.chan ch).txOverrun = false →
    s.words = (List.replicate (k + 1) (encodeWords (.pump ch))).flatten ++ rest →
    s.sched = (List.replicate k [.host, .host, .host, .host, .txDone ch]).flatten ++ [.host, .host, .host] ++ es →
    ∃ t, Host.Core.run Sys2Proof.core (5 * k + 3) s = .next t ∧
      (t.ring ch .out).occ = 0 ∧ (t.chan ch).txe = true ∧
      (t.chan ch).txlog = (s.chan ch).txlog ++ Ring.held s.cfg.cap (s.ring ch .out) ∧
      t.hostlog = s.hostlog ++ List.replicate k (.pump ch, 0x0000) ++ [(.pump ch, 0x0200)] ∧
      t.words = rest ∧ t.sched = es

/-- The interrupt-driven drain: from a busy transmitter with `k` bytes held and `ie = 1`, `k` rounds of `TX_DONE`, grant
and `TXIRQ` send all of them, in order, whatever HOST was doing (R171, R175, R178 (c) for this schedule). -/
def Obligations.InterruptsDrainTheHeldBytes : Prop :=
  ∀ (s : State) (ch : ChNum) (k : Nat) (es : List Event),
    s.Inv → s.cfg.arbOrder = .any → s.inHandler = false → s.ie = true →
    ch.toNat < s.cfg.nCh → (s.ring ch .out).occ = k → (s.chan ch).txe = false → (s.chan ch).txOverrun = false →
    s.sched = (List.replicate k
      [.txDone ch, .grant (requestNumber ch true), .irq, .irq, .irq, .irq]).flatten ++ es →
    ∃ t, Host.Core.run Sys2Proof.core (6 * k) s = .next t ∧
      (t.ring ch .out).occ = 0 ∧ (t.chan ch).txlog = (s.chan ch).txlog ++ Ring.held s.cfg.cap (s.ring ch .out) ∧
      (t.chan ch).txOverrun = false ∧ t.inHandler = false ∧ t.ie = true ∧
      t.hostPc = s.hostPc ∧ t.hostCmd = s.hostCmd ∧ t.hostI = s.hostI ∧ t.hostB = s.hostB ∧ t.sched = es

/-- The way of an arrived byte: arrival, grant and `RXIRQ` put it at the end of the input buffer, or drop it when the
buffer is full; either way every fault flag is as before (R157, R158, R226). -/
def Obligations.ArrivedByteReachesTheInputBuffer : Prop :=
  ∀ (s : State) (c : ChNum) (b : Byte) (es : List Event),
    s.Inv → s.cfg.arbOrder = .any → s.inHandler = false → s.ie = true → c.toNat < s.cfg.nCh →
    (s.chan c).rxPending = false →
    s.sched = [.rxArrive c b, .grant (requestNumber c false), .irq, .irq, .irq] ++ es →
    ∃ t, Host.Core.run Sys2Proof.core 5 s = .next t ∧
      Ring.held t.cfg.cap (t.ring c .inp) = Ring.held s.cfg.cap (s.ring c .inp) ++
        (if (s.ring c .inp).occ < s.cfg.cap then [b] else []) ∧
      (t.chan c).rxPending = false ∧ (t.chan c).rxOverrun = (s.chan c).rxOverrun ∧
      (t.chan c).txOverrun = (s.chan c).txOverrun ∧ t.cmdFault = s.cmdFault ∧
      (t.chan c).rxlog = (s.chan c).rxlog ++ [b] ∧ (t.chan c).out = (s.chan c).out ∧
      t.inHandler = false ∧ t.ie = true ∧ t.hostPc = s.hostPc ∧ t.hostlog = s.hostlog ∧ t.sched = es ∧
      ∀ c', c' ≠ c → t.chan c' = s.chan c'

/-- A stale request is harmless: its `TXIRQ` finds the transmitter busy, and only the request flag is different
afterwards (R176, R247). -/
def Obligations.StaleRequestChangesNothingElse : Prop :=
  ∀ (s : State) (c : ChNum) (es : List Event),
    s.cfg.arbOrder = .any → s.inHandler = false → s.irqPc = .idle → s.ie = true → c.toNat < s.cfg.nCh →
    (s.chan c).txPending = true → (s.chan c).txe = false →
    s.sched = [.grant (requestNumber c true), .irq, .irq] ++ es →
    ∃ t, Host.Core.run Sys2Proof.core 3 s = .next t ∧
      t = { s.setChan c { s.chan c with txPending := false } with
        sched := es, irqT := false, irqB := 0, curIrq := t.curIrq, freeCtr := t.freeCtr }

/-- The output state machine: S3 reading 1 arms, P3 starts the drain, `TX_DONE` continues it if `ie = 1`, and a `TXIRQ` that
found the buffer empty ends it (R174; where its descriptions overlap the order is the model's, assumption log 21). With
`ie = 0` nothing drains by itself (R250): after a `TX_DONE` the channel is Idle with the bytes it holds, no handler starts,
a byte leaves an output buffer only at the P2 of a pump that HOST runs, or by `POP OUT`, and an Idle channel stays Idle
until HOST moves. -/
def Obligations.OutputStateMovesAsDescribed : Prop :=
  (∀ (s t : State) (c : ChNum) (p : List Byte), s.hostPc = .s3 → s.hostCmd = some (.enqOut c p) →
    (s.chan c).txe = true → exec (.enqOut c p) s = .next t → t.outState c = .arming) ∧
  (∀ (s t : State) (c : ChNum) (p : List Byte), s.hostPc = .p3 → s.hostCmd = some (.enqOut c p) →
    exec (.enqOut c p) s = .next t → s.outState c = .arming ∧ t.outState c = .draining) ∧
  (∀ (s t : State) (c : ChNum), s.armingOf c = false → s.eventStep (.txDone c) = .next t →
    s.outState c = .draining ∧ t.ring c .out = s.ring c .out ∧
      t.outState c = if s.ie || s.running c true then .draining else .idle) ∧
  (∀ (s t u : State) (c : ChNum), s.armingOf c = false → s.inHandler = true → s.curIrq = requestNumber c true →
    s.irqPc = .p2 → (s.ring c .out).occ = 0 → (s.chan c).txe = true → (s.chan c).txPending = false →
    s.eventStep .irq = .next t → t.eventStep .irq = .next u →
    s.outState c = .draining ∧ u.outState c = .idle) ∧
  (∀ (s t : State) (c : ChNum) (e : Event), s.Inv → s.ie = false → s.inHandler = false → e ≠ .reset →
    s.eventStep e = .next t →
    t.inHandler = false ∧
    ((t.ring c .out).occ < (s.ring c .out).occ →
      e = .host ∧ ((s.hostPc = .p2 ∧ s.pumpsOn c = true) ∨ s.hostCmd = some (.pop .out c))) ∧
    (s.outState c = .idle → e ≠ .host → t.outState c = .idle ∧ t.ring c .out = s.ring c .out))

/-! ### Litmus runs -/

/-- The race of the arming pump, run C of 95_test_vectors.md P5: `IE_SET`; two batches on channel 0; `TX_DONE` between
them; the grant falls between P1 and P2 of the second one's pump. The host's P3 writes a busy transmitter (R177). -/
def Obligations.ArmingRaceOverrunsTheTransmitter : Prop :=
  ∃ t, Host.Core.run Sys2Proof.core 21
      { State.reset with
        words := [0x7000, 0x3002, 0x0061, 0x0062, 0x3001, 0x0063],
        sched := List.replicate 9 .host ++ [.txDone 0] ++ List.replicate 5 .host ++ [.grant 1] ++
          List.replicate 4 .irq ++ [.host] } = .next t ∧
    (t.chan 0).txOverrun = false ∧ (t.chan 0).txlog = [0x61, 0x62] ∧ t.hostPc = .p3 ∧
    ∃ u, step { t with sched := [.host] } = .next u ∧ (u.chan 0).txOverrun = true ∧ (u.ring 0 .out).occ = 0 ∧
      u.hostlog.map (fun x => x.2) = [0x0000, 0x0000, 0x0000]

/-- The same race with a `TX_DONE` before the host's P3: no fault flag is set, and of the bytes 61 62 63 64, enqueued in
that order, 63 is sent before 62. So R148 (d) does not hold of every run under `GRANT_POLICY = any` with the premise it
names (assumption log 24). -/
def Obligations.ArmingRaceReordersWithoutAFault : Prop :=
  ∃ t, Host.Core.run Sys2Proof.core 24
      { State.reset with
        words := [0x7000, 0x3003, 0x0061, 0x0062, 0x0063, 0x3001, 0x0064],
        sched := List.replicate 10 .host ++ [.txDone 0] ++ List.replicate 6 .host ++ [.grant 1] ++
          List.replicate 4 .irq ++ [.txDone 0, .host] } = .next t ∧
    (t.chan 0).txOverrun = false ∧ (t.chan 0).rxOverrun = false ∧ t.cmdFault = false ∧
    (t.chan 0).txlog = [0x61, 0x63, 0x62] ∧
    t.hostlog = [(.ieSet, 0x0000), (.enqOut 0 [0x61, 0x62, 0x63], 0x0000), (.enqOut 0 [0x64], 0x0000)]

/-- A grant may fall inside a host command (95_test_vectors.md V-ARB-3): `DEQ_IN ch2` with `RXIRQ(2)` between its S0 and
its S1 returns the byte, with `RXIRQ(2)` after its S1 it returns `Empty`; both are runs (R213, R216). -/
def Obligations.GrantMayFallInsideACommand : Prop :=
  (∃ t, Host.Core.run Sys2Proof.core 8
      { State.reset with
        words := [0x7000, 0x5200],
        sched := [.host, .rxArrive 2 0xA1, .host, .grant 4, .irq, .irq, .irq, .host] } = .next t ∧
    t.hostlog = [(.ieSet, 0x0000), (.deqIn 2, 0x00A1)]) ∧
  (∃ t, Host.Core.run Sys2Proof.core 8
      { State.reset with
        words := [0x7000, 0x5200],
        sched := [.host, .rxArrive 2 0xA1, .host, .host, .grant 4, .irq, .irq, .irq] } = .next t ∧
    t.hostlog = [(.ieSet, 0x0000), (.deqIn 2, 0x0200)] ∧
    Ring.held t.cfg.cap (t.ring 2 .inp) = [0xA1])

/-! ### The order of the output under any grant policy -/

/-- Under any policy, whatever grants fall into HOST's pumps, the bytes sent are the bytes enqueued, in order, provided no
`tx_overrun` fault occurs (R148 (d)): every step that leaves the flag clear keeps the order, or the race that ends in an
overrun, but for one step: a `TX_DONE(c)` on a transmitter that `TXIRQ(c)` has filled with a newer byte than the one HOST
holds at its P3. There the step rules contradict R148 (d) (assumption log 24). Second: no transmitter is overrun either as
long as software keeps what R246 asks for, that no `TXIRQ(c)` is granted between P1 and P3 of a pump that HOST runs on `c`. -/
def Obligations.AnyPolicyKeepsOutputOrder : Prop :=
  (∀ (s t : State) (c : ChNum), s.Inv → s.OrderOrRace c → (s.OutputOrder c ∨ s.nextEvent ≠ some (.txDone c)) →
    step s = .next t → (t.chan c).txOverrun = false → t.OrderOrRace c) ∧
  (∀ (s t : State) (c : ChNum), s.Inv → s.PumpSafe c → s.OutputOrder c → s.grantsIntoPump c = false →
    step s = .next t → t.PumpSafe c ∧ t.OutputOrder c)

/-- What is enough for R246: under `GRANT_POLICY = eager`, or when each of HOST's pumps on `c` starts with `tx_pending[c] = 0`
or `ie = 0`, every step keeps the transmitter ready and the handler out from P1 to P3, and there no `TXIRQ(c)` is granted.
The condition is on the start of the pump, P1, as R177 has it (assumption log 29). -/
def Obligations.EagerOrNoRequestKeepsPumpsUndisturbed : Prop :=
  (∀ (s t : State) (c : ChNum), s.Inv → s.QuietPump c →
    (s.cfg.grantPolicy = .eager ∨ (s.startsPump c = true → (s.chan c).txPending = false ∨ s.ie = false)) →
    step s = .next t → t.QuietPump c) ∧
  (∀ (s : State) (c : ChNum), s.QuietPump c → s.hostArmed c = true →
    s.eventStep (.grant (requestNumber c true)) = .refused .notEnabled)
end

