-- ==== Sys2Proof/Laws/Encoding.lean ====
section
/-! SUPPORT. Reading back the fields of a header, a payload word and a request number. -/

namespace Sys2Proof

/-- The bits of a header (R91). -/
theorem getLsbD_header (op : BitVec 4) (d : BitVec 1) (c : ChNum) (a : Byte) (i : Nat) :
    (header op d c a).getLsbD i =
      if i < 8 then a.getLsbD i
      else if i - 8 < 3 then c.getLsbD (i - 8)
      else if i - 8 - 3 < 1 then d.getLsbD (i - 8 - 3)
      else op.getLsbD (i - 8 - 3 - 1) := by
  have h1 := BitVec.getLsbD_append (x := op ++ d ++ c) (y := a) (i := i)
  have h2 := BitVec.getLsbD_append (x := op ++ d) (y := c) (i := i - 8)
  have h3 := BitVec.getLsbD_append (x := op) (y := d) (i := i - 8 - 3)
  rw [h3] at h2
  rw [h2] at h1
  exact h1.trans (by split <;> simp_all)

@[simp] theorem fieldArg_header (op : BitVec 4) (d : BitVec 1) (c : ChNum) (a : Byte) :
    fieldArg (header op d c a) = a := by
  apply BitVec.eq_of_getLsbD_eq
  intro i hi
  simp only [fieldArg, BitVec.getLsbD_extractLsb', getLsbD_header, hi, decide_true, Bool.true_and, Nat.zero_add, if_true]

@[simp] theorem fieldCh_header (op : BitVec 4) (d : BitVec 1) (c : ChNum) (a : Byte) :
    fieldCh (header op d c a) = c := by
  apply BitVec.eq_of_getLsbD_eq
  intro i hi
  have h1 : ¬ 8 + i < 8 := by omega
  have h2 : 8 + i - 8 = i := by omega
  simp only [fieldCh, BitVec.getLsbD_extractLsb', getLsbD_header, hi, h1, h2, decide_true, Bool.true_and, if_true, if_false]

@[simp] theorem fieldDir_header (op : BitVec 4) (d : BitVec 1) (c : ChNum) (a : Byte) :
    fieldDir (header op d c a) = d := by
  apply BitVec.eq_of_getLsbD_eq
  intro i hi
  have h1 : ¬ 11 + i < 8 := by omega
  have h2 : ¬ 11 + i - 8 < 3 := by omega
  have h3 : 11 + i - 8 - 3 = i := by omega
  simp only [fieldDir, BitVec.getLsbD_extractLsb', getLsbD_header, hi, h1, h2, h3, decide_true, Bool.true_and, if_true, if_false]

@[simp] theorem fieldOp_header (op : BitVec 4) (d : BitVec 1) (c : ChNum) (a : Byte) :
    fieldOp (header op d c a) = op := by
  apply BitVec.eq_of_getLsbD_eq
  intro i hi
  have h1 : ¬ 12 + i < 8 := by omega
  have h2 : ¬ 12 + i - 8 < 3 := by omega
  have h3 : ¬ 12 + i - 8 - 3 < 1 := by omega
  have h4 : 12 + i - 8 - 3 - 1 = i := by omega
  simp only [fieldOp, BitVec.getLsbD_extractLsb', getLsbD_header, hi, h1, h2, h3, h4, decide_true, Bool.true_and, if_false]

/-- A header is its fields (R91). -/
theorem header_fields (w : Half) : header (fieldOp w) (fieldDir w) (fieldCh w) (fieldArg w) = w := by
  apply BitVec.eq_of_getLsbD_eq
  intro i hi
  rw [getLsbD_header]
  simp only [fieldOp, fieldDir, fieldCh, fieldArg, BitVec.getLsbD_extractLsb']
  split
  · simp_all
  · split
    · have h : 8 + (i - 8) = i := by omega
      simp_all
    · split
      · have h : 11 + (i - 8 - 3) = i := by omega
        simp_all
      · have h : 12 + (i - 8 - 3 - 1) = i := by omega
        have h' : i - 8 - 3 - 1 < 4 := by omega
        simp [h, h']

@[simp] theorem dirOf_dirBit (d : Dir) : dirOf (dirBit d) = d := by cases d <;> rfl

@[simp] theorem dirBit_dirOf (b : BitVec 1) : dirBit (dirOf b) = b := by revert b; decide

@[simp] theorem payloadByte_payloadWord (b : Byte) : payloadByte (payloadWord b) = b := by
  apply BitVec.eq_of_getLsbD_eq
  intro i hi
  have h := BitVec.getLsbD_append (x := (0 : BitVec 8)) (y := b) (i := 0 + i)
  simp only [payloadByte, payloadWord, BitVec.getLsbD_extractLsb', hi, decide_true, Bool.true_and]
  exact h.trans (by simp [hi])

@[simp] theorem payloadLegal_payloadWord (b : Byte) : payloadLegal (payloadWord b) = true := by
  have : (payloadWord b).extractLsb' 8 8 = 0 := by
    apply BitVec.eq_of_getLsbD_eq
    intro i hi
    have h := BitVec.getLsbD_append (x := (0 : BitVec 8)) (y := b) (i := 8 + i)
    simp only [payloadWord, BitVec.getLsbD_extractLsb', hi, decide_true, Bool.true_and]
    exact h.trans (by simp)
  simp [payloadLegal, this]

@[simp] theorem irqCh_requestNumber (c : ChNum) (t : Bool) : irqCh (requestNumber c t) = c := by
  revert c t; decide

@[simp] theorem irqIsTx_requestNumber (c : ChNum) (t : Bool) : irqIsTx (requestNumber c t) = t := by
  revert c t; decide

/-- A request number is its channel and its kind (R101). -/
theorem requestNumber_fields (r : IrqNum) : requestNumber (irqCh r) (irqIsTx r) = r := by
  revert r; decide

end Sys2Proof
end

