-- ==== Sys2Proof/Laws/State.lean ====
section
/-! SUPPORT. One lemma per field per update of the state, true by rfl, so that no later proof unfolds a record
update. -/

namespace Sys2Proof.Machine

/-! ### Replacing a channel -/

@[simp] theorem setChan_cfg (s : State) (c : ChNum) (x : Chan) :
    (s.setChan c x).cfg = s.cfg := rfl

@[simp] theorem setChan_chans (s : State) (c : ChNum) (x : Chan) :
    (s.setChan c x).chans = s.chans.set c.toNat x c.isLt := rfl

@[simp] theorem setChan_ie (s : State) (c : ChNum) (x : Chan) :
    (s.setChan c x).ie = s.ie := rfl

@[simp] theorem setChan_inHandler (s : State) (c : ChNum) (x : Chan) :
    (s.setChan c x).inHandler = s.inHandler := rfl

@[simp] theorem setChan_curIrq (s : State) (c : ChNum) (x : Chan) :
    (s.setChan c x).curIrq = s.curIrq := rfl

@[simp] theorem setChan_hostPc (s : State) (c : ChNum) (x : Chan) :
    (s.setChan c x).hostPc = s.hostPc := rfl

@[simp] theorem setChan_hostCmd (s : State) (c : ChNum) (x : Chan) :
    (s.setChan c x).hostCmd = s.hostCmd := rfl

@[simp] theorem setChan_hostI (s : State) (c : ChNum) (x : Chan) :
    (s.setChan c x).hostI = s.hostI := rfl

@[simp] theorem setChan_hostOcc (s : State) (c : ChNum) (x : Chan) :
    (s.setChan c x).hostOcc = s.hostOcc := rfl

@[simp] theorem setChan_hostT (s : State) (c : ChNum) (x : Chan) :
    (s.setChan c x).hostT = s.hostT := rfl

@[simp] theorem setChan_hostB (s : State) (c : ChNum) (x : Chan) :
    (s.setChan c x).hostB = s.hostB := rfl

@[simp] theorem setChan_irqPc (s : State) (c : ChNum) (x : Chan) :
    (s.setChan c x).irqPc = s.irqPc := rfl

@[simp] theorem setChan_irqT (s : State) (c : ChNum) (x : Chan) :
    (s.setChan c x).irqT = s.irqT := rfl

@[simp] theorem setChan_irqB (s : State) (c : ChNum) (x : Chan) :
    (s.setChan c x).irqB = s.irqB := rfl

@[simp] theorem setChan_cmdFault (s : State) (c : ChNum) (x : Chan) :
    (s.setChan c x).cmdFault = s.cmdFault := rfl

@[simp] theorem setChan_words (s : State) (c : ChNum) (x : Chan) :
    (s.setChan c x).words = s.words := rfl

@[simp] theorem setChan_sched (s : State) (c : ChNum) (x : Chan) :
    (s.setChan c x).sched = s.sched := rfl

@[simp] theorem setChan_hostlog (s : State) (c : ChNum) (x : Chan) :
    (s.setChan c x).hostlog = s.hostlog := rfl

@[simp] theorem setChan_freeCtr (s : State) (c : ChNum) (x : Chan) :
    (s.setChan c x).freeCtr = s.freeCtr := rfl

/-! ### Replacing a buffer -/

@[simp] theorem setRing_cfg (s : State) (c : ChNum) (d : Dir) (F : Ring) :
    (s.setRing c d F).cfg = s.cfg := rfl

@[simp] theorem setRing_chans (s : State) (c : ChNum) (d : Dir) (F : Ring) :
    (s.setRing c d F).chans = s.chans.set c.toNat ((s.chan c).setRing d F) c.isLt := rfl

@[simp] theorem setRing_ie (s : State) (c : ChNum) (d : Dir) (F : Ring) :
    (s.setRing c d F).ie = s.ie := rfl

@[simp] theorem setRing_inHandler (s : State) (c : ChNum) (d : Dir) (F : Ring) :
    (s.setRing c d F).inHandler = s.inHandler := rfl

@[simp] theorem setRing_curIrq (s : State) (c : ChNum) (d : Dir) (F : Ring) :
    (s.setRing c d F).curIrq = s.curIrq := rfl

@[simp] theorem setRing_hostPc (s : State) (c : ChNum) (d : Dir) (F : Ring) :
    (s.setRing c d F).hostPc = s.hostPc := rfl

@[simp] theorem setRing_hostCmd (s : State) (c : ChNum) (d : Dir) (F : Ring) :
    (s.setRing c d F).hostCmd = s.hostCmd := rfl

@[simp] theorem setRing_hostI (s : State) (c : ChNum) (d : Dir) (F : Ring) :
    (s.setRing c d F).hostI = s.hostI := rfl

@[simp] theorem setRing_hostOcc (s : State) (c : ChNum) (d : Dir) (F : Ring) :
    (s.setRing c d F).hostOcc = s.hostOcc := rfl

@[simp] theorem setRing_hostT (s : State) (c : ChNum) (d : Dir) (F : Ring) :
    (s.setRing c d F).hostT = s.hostT := rfl

@[simp] theorem setRing_hostB (s : State) (c : ChNum) (d : Dir) (F : Ring) :
    (s.setRing c d F).hostB = s.hostB := rfl

@[simp] theorem setRing_irqPc (s : State) (c : ChNum) (d : Dir) (F : Ring) :
    (s.setRing c d F).irqPc = s.irqPc := rfl

@[simp] theorem setRing_irqT (s : State) (c : ChNum) (d : Dir) (F : Ring) :
    (s.setRing c d F).irqT = s.irqT := rfl

@[simp] theorem setRing_irqB (s : State) (c : ChNum) (d : Dir) (F : Ring) :
    (s.setRing c d F).irqB = s.irqB := rfl

@[simp] theorem setRing_cmdFault (s : State) (c : ChNum) (d : Dir) (F : Ring) :
    (s.setRing c d F).cmdFault = s.cmdFault := rfl

@[simp] theorem setRing_words (s : State) (c : ChNum) (d : Dir) (F : Ring) :
    (s.setRing c d F).words = s.words := rfl

@[simp] theorem setRing_sched (s : State) (c : ChNum) (d : Dir) (F : Ring) :
    (s.setRing c d F).sched = s.sched := rfl

@[simp] theorem setRing_hostlog (s : State) (c : ChNum) (d : Dir) (F : Ring) :
    (s.setRing c d F).hostlog = s.hostlog := rfl

@[simp] theorem setRing_freeCtr (s : State) (c : ChNum) (d : Dir) (F : Ring) :
    (s.setRing c d F).freeCtr = s.freeCtr := rfl

/-! ### The end of a command -/

@[simp] theorem respond_cfg (s : State) (i : Instr) (e : ErrVal) (b : Byte) :
    (s.respond i e b).cfg = s.cfg := rfl

@[simp] theorem respond_chans (s : State) (i : Instr) (e : ErrVal) (b : Byte) :
    (s.respond i e b).chans = s.chans := rfl

@[simp] theorem respond_ie (s : State) (i : Instr) (e : ErrVal) (b : Byte) :
    (s.respond i e b).ie = s.ie := rfl

@[simp] theorem respond_inHandler (s : State) (i : Instr) (e : ErrVal) (b : Byte) :
    (s.respond i e b).inHandler = s.inHandler := rfl

@[simp] theorem respond_curIrq (s : State) (i : Instr) (e : ErrVal) (b : Byte) :
    (s.respond i e b).curIrq = s.curIrq := rfl

@[simp] theorem respond_hostPc (s : State) (i : Instr) (e : ErrVal) (b : Byte) :
    (s.respond i e b).hostPc = .idle := rfl

@[simp] theorem respond_hostCmd (s : State) (i : Instr) (e : ErrVal) (b : Byte) :
    (s.respond i e b).hostCmd = none := rfl

@[simp] theorem respond_hostI (s : State) (i : Instr) (e : ErrVal) (b : Byte) :
    (s.respond i e b).hostI = 0 := rfl

@[simp] theorem respond_hostOcc (s : State) (i : Instr) (e : ErrVal) (b : Byte) :
    (s.respond i e b).hostOcc = 0 := rfl

@[simp] theorem respond_hostT (s : State) (i : Instr) (e : ErrVal) (b : Byte) :
    (s.respond i e b).hostT = false := rfl

@[simp] theorem respond_hostB (s : State) (i : Instr) (e : ErrVal) (b : Byte) :
    (s.respond i e b).hostB = 0 := rfl

@[simp] theorem respond_irqPc (s : State) (i : Instr) (e : ErrVal) (b : Byte) :
    (s.respond i e b).irqPc = s.irqPc := rfl

@[simp] theorem respond_irqT (s : State) (i : Instr) (e : ErrVal) (b : Byte) :
    (s.respond i e b).irqT = s.irqT := rfl

@[simp] theorem respond_irqB (s : State) (i : Instr) (e : ErrVal) (b : Byte) :
    (s.respond i e b).irqB = s.irqB := rfl

@[simp] theorem respond_cmdFault (s : State) (i : Instr) (e : ErrVal) (b : Byte) :
    (s.respond i e b).cmdFault = s.cmdFault := rfl

@[simp] theorem respond_words (s : State) (i : Instr) (e : ErrVal) (b : Byte) :
    (s.respond i e b).words = s.words := rfl

@[simp] theorem respond_sched (s : State) (i : Instr) (e : ErrVal) (b : Byte) :
    (s.respond i e b).sched = s.sched := rfl

@[simp] theorem respond_hostlog (s : State) (i : Instr) (e : ErrVal) (b : Byte) :
    (s.respond i e b).hostlog = s.hostlog ++ [(i, responseWord e b)] := rfl

@[simp] theorem respond_freeCtr (s : State) (i : Instr) (e : ErrVal) (b : Byte) :
    (s.respond i e b).freeCtr = s.freeCtr := rfl

/-! ### The end of a handler -/

@[simp] theorem leaveHandler_cfg (s : State)  :
    (s.leaveHandler).cfg = s.cfg := rfl

@[simp] theorem leaveHandler_chans (s : State)  :
    (s.leaveHandler).chans = s.chans := rfl

@[simp] theorem leaveHandler_ie (s : State)  :
    (s.leaveHandler).ie = s.ie := rfl

@[simp] theorem leaveHandler_inHandler (s : State)  :
    (s.leaveHandler).inHandler = false := rfl

@[simp] theorem leaveHandler_curIrq (s : State)  :
    (s.leaveHandler).curIrq = Config.freeIrq s.freeCtr := rfl

@[simp] theorem leaveHandler_hostPc (s : State)  :
    (s.leaveHandler).hostPc = s.hostPc := rfl

@[simp] theorem leaveHandler_hostCmd (s : State)  :
    (s.leaveHandler).hostCmd = s.hostCmd := rfl

@[simp] theorem leaveHandler_hostI (s : State)  :
    (s.leaveHandler).hostI = s.hostI := rfl

@[simp] theorem leaveHandler_hostOcc (s : State)  :
    (s.leaveHandler).hostOcc = s.hostOcc := rfl

@[simp] theorem leaveHandler_hostT (s : State)  :
    (s.leaveHandler).hostT = s.hostT := rfl

@[simp] theorem leaveHandler_hostB (s : State)  :
    (s.leaveHandler).hostB = s.hostB := rfl

@[simp] theorem leaveHandler_irqPc (s : State)  :
    (s.leaveHandler).irqPc = .idle := rfl

@[simp] theorem leaveHandler_irqT (s : State)  :
    (s.leaveHandler).irqT = false := rfl

@[simp] theorem leaveHandler_irqB (s : State)  :
    (s.leaveHandler).irqB = 0 := rfl

@[simp] theorem leaveHandler_cmdFault (s : State)  :
    (s.leaveHandler).cmdFault = s.cmdFault := rfl

@[simp] theorem leaveHandler_words (s : State)  :
    (s.leaveHandler).words = s.words := rfl

@[simp] theorem leaveHandler_sched (s : State)  :
    (s.leaveHandler).sched = s.sched := rfl

@[simp] theorem leaveHandler_hostlog (s : State)  :
    (s.leaveHandler).hostlog = s.hostlog := rfl

@[simp] theorem leaveHandler_freeCtr (s : State)  :
    (s.leaveHandler).freeCtr = s.freeCtr + 1 := rfl

/-! ### An overrun transmitter -/

@[simp] theorem txFree_cfg (s : State) (c : ChNum) (b : Bool) :
    (s.txFree c b).cfg = s.cfg := rfl

@[simp] theorem txFree_chans (s : State) (c : ChNum) (b : Bool) :
    (s.txFree c b).chans = s.chans.set c.toNat { s.chan c with
      txData := Config.freeByte s.freeCtr, txlog := Config.freeLog s.freeCtr, txe := b, txOverrun := true } c.isLt := rfl

@[simp] theorem txFree_ie (s : State) (c : ChNum) (b : Bool) :
    (s.txFree c b).ie = s.ie := rfl

@[simp] theorem txFree_inHandler (s : State) (c : ChNum) (b : Bool) :
    (s.txFree c b).inHandler = s.inHandler := rfl

@[simp] theorem txFree_curIrq (s : State) (c : ChNum) (b : Bool) :
    (s.txFree c b).curIrq = s.curIrq := rfl

@[simp] theorem txFree_hostPc (s : State) (c : ChNum) (b : Bool) :
    (s.txFree c b).hostPc = s.hostPc := rfl

@[simp] theorem txFree_hostCmd (s : State) (c : ChNum) (b : Bool) :
    (s.txFree c b).hostCmd = s.hostCmd := rfl

@[simp] theorem txFree_hostI (s : State) (c : ChNum) (b : Bool) :
    (s.txFree c b).hostI = s.hostI := rfl

@[simp] theorem txFree_hostOcc (s : State) (c : ChNum) (b : Bool) :
    (s.txFree c b).hostOcc = s.hostOcc := rfl

@[simp] theorem txFree_hostT (s : State) (c : ChNum) (b : Bool) :
    (s.txFree c b).hostT = s.hostT := rfl

@[simp] theorem txFree_hostB (s : State) (c : ChNum) (b : Bool) :
    (s.txFree c b).hostB = s.hostB := rfl

@[simp] theorem txFree_irqPc (s : State) (c : ChNum) (b : Bool) :
    (s.txFree c b).irqPc = s.irqPc := rfl

@[simp] theorem txFree_irqT (s : State) (c : ChNum) (b : Bool) :
    (s.txFree c b).irqT = s.irqT := rfl

@[simp] theorem txFree_irqB (s : State) (c : ChNum) (b : Bool) :
    (s.txFree c b).irqB = s.irqB := rfl

@[simp] theorem txFree_cmdFault (s : State) (c : ChNum) (b : Bool) :
    (s.txFree c b).cmdFault = s.cmdFault := rfl

@[simp] theorem txFree_words (s : State) (c : ChNum) (b : Bool) :
    (s.txFree c b).words = s.words := rfl

@[simp] theorem txFree_sched (s : State) (c : ChNum) (b : Bool) :
    (s.txFree c b).sched = s.sched := rfl

@[simp] theorem txFree_hostlog (s : State) (c : ChNum) (b : Bool) :
    (s.txFree c b).hostlog = s.hostlog := rfl

@[simp] theorem txFree_freeCtr (s : State) (c : ChNum) (b : Bool) :
    (s.txFree c b).freeCtr = s.freeCtr + 1 := rfl

/-! ### Taking a command -/

@[simp] theorem accept_cfg (s : State) (i : Instr) (rest : List Half) :
    (s.accept i rest).cfg = s.cfg := rfl

@[simp] theorem accept_chans (s : State) (i : Instr) (rest : List Half) :
    (s.accept i rest).chans = s.chans := rfl

@[simp] theorem accept_ie (s : State) (i : Instr) (rest : List Half) :
    (s.accept i rest).ie = s.ie := rfl

@[simp] theorem accept_inHandler (s : State) (i : Instr) (rest : List Half) :
    (s.accept i rest).inHandler = s.inHandler := rfl

@[simp] theorem accept_curIrq (s : State) (i : Instr) (rest : List Half) :
    (s.accept i rest).curIrq = s.curIrq := rfl

@[simp] theorem accept_hostPc (s : State) (i : Instr) (rest : List Half) :
    (s.accept i rest).hostPc = firstLabel i := rfl

@[simp] theorem accept_hostCmd (s : State) (i : Instr) (rest : List Half) :
    (s.accept i rest).hostCmd = some i := rfl

@[simp] theorem accept_hostI (s : State) (i : Instr) (rest : List Half) :
    (s.accept i rest).hostI = s.hostI := rfl

@[simp] theorem accept_hostOcc (s : State) (i : Instr) (rest : List Half) :
    (s.accept i rest).hostOcc = s.hostOcc := rfl

@[simp] theorem accept_hostT (s : State) (i : Instr) (rest : List Half) :
    (s.accept i rest).hostT = s.hostT := rfl

@[simp] theorem accept_hostB (s : State) (i : Instr) (rest : List Half) :
    (s.accept i rest).hostB = s.hostB := rfl

@[simp] theorem accept_irqPc (s : State) (i : Instr) (rest : List Half) :
    (s.accept i rest).irqPc = s.irqPc := rfl

@[simp] theorem accept_irqT (s : State) (i : Instr) (rest : List Half) :
    (s.accept i rest).irqT = s.irqT := rfl

@[simp] theorem accept_irqB (s : State) (i : Instr) (rest : List Half) :
    (s.accept i rest).irqB = s.irqB := rfl

@[simp] theorem accept_cmdFault (s : State) (i : Instr) (rest : List Half) :
    (s.accept i rest).cmdFault = s.cmdFault := rfl

@[simp] theorem accept_words (s : State) (i : Instr) (rest : List Half) :
    (s.accept i rest).words = rest := rfl

@[simp] theorem accept_sched (s : State) (i : Instr) (rest : List Half) :
    (s.accept i rest).sched = s.sched := rfl

@[simp] theorem accept_hostlog (s : State) (i : Instr) (rest : List Half) :
    (s.accept i rest).hostlog = s.hostlog := rfl

@[simp] theorem accept_freeCtr (s : State) (i : Instr) (rest : List Half) :
    (s.accept i rest).freeCtr = s.freeCtr := rfl

/-! ### An illegal command -/

@[simp] theorem illegalCommand_cfg (s : State) (rest : List Half) :
    (s.illegalCommand rest).cfg = s.cfg := rfl

@[simp] theorem illegalCommand_chans (s : State) (rest : List Half) :
    (s.illegalCommand rest).chans = s.chans := rfl

@[simp] theorem illegalCommand_ie (s : State) (rest : List Half) :
    (s.illegalCommand rest).ie = s.ie := rfl

@[simp] theorem illegalCommand_inHandler (s : State) (rest : List Half) :
    (s.illegalCommand rest).inHandler = s.inHandler := rfl

@[simp] theorem illegalCommand_curIrq (s : State) (rest : List Half) :
    (s.illegalCommand rest).curIrq = s.curIrq := rfl

@[simp] theorem illegalCommand_hostPc (s : State) (rest : List Half) :
    (s.illegalCommand rest).hostPc = s.hostPc := rfl

@[simp] theorem illegalCommand_hostCmd (s : State) (rest : List Half) :
    (s.illegalCommand rest).hostCmd = s.hostCmd := rfl

@[simp] theorem illegalCommand_hostI (s : State) (rest : List Half) :
    (s.illegalCommand rest).hostI = s.hostI := rfl

@[simp] theorem illegalCommand_hostOcc (s : State) (rest : List Half) :
    (s.illegalCommand rest).hostOcc = s.hostOcc := rfl

@[simp] theorem illegalCommand_hostT (s : State) (rest : List Half) :
    (s.illegalCommand rest).hostT = s.hostT := rfl

@[simp] theorem illegalCommand_hostB (s : State) (rest : List Half) :
    (s.illegalCommand rest).hostB = s.hostB := rfl

@[simp] theorem illegalCommand_irqPc (s : State) (rest : List Half) :
    (s.illegalCommand rest).irqPc = s.irqPc := rfl

@[simp] theorem illegalCommand_irqT (s : State) (rest : List Half) :
    (s.illegalCommand rest).irqT = s.irqT := rfl

@[simp] theorem illegalCommand_irqB (s : State) (rest : List Half) :
    (s.illegalCommand rest).irqB = s.irqB := rfl

@[simp] theorem illegalCommand_cmdFault (s : State) (rest : List Half) :
    (s.illegalCommand rest).cmdFault = true := rfl

@[simp] theorem illegalCommand_words (s : State) (rest : List Half) :
    (s.illegalCommand rest).words = rest := rfl

@[simp] theorem illegalCommand_sched (s : State) (rest : List Half) :
    (s.illegalCommand rest).sched = s.sched := rfl

@[simp] theorem illegalCommand_hostlog (s : State) (rest : List Half) :
    (s.illegalCommand rest).hostlog = s.hostlog := rfl

@[simp] theorem illegalCommand_freeCtr (s : State) (rest : List Half) :
    (s.illegalCommand rest).freeCtr = s.freeCtr := rfl

/-! ### RESET -/

@[simp] theorem resetEvent_cfg (s : State)  :
    (s.resetEvent).cfg = s.cfg := rfl

@[simp] theorem resetEvent_chans (s : State)  :
    (s.resetEvent).chans = (State.resetFrom s.cfg s.freeCtr).chans := rfl

@[simp] theorem resetEvent_ie (s : State)  :
    (s.resetEvent).ie = (State.resetFrom s.cfg s.freeCtr).ie := rfl

@[simp] theorem resetEvent_inHandler (s : State)  :
    (s.resetEvent).inHandler = (State.resetFrom s.cfg s.freeCtr).inHandler := rfl

@[simp] theorem resetEvent_curIrq (s : State)  :
    (s.resetEvent).curIrq = (State.resetFrom s.cfg s.freeCtr).curIrq := rfl

@[simp] theorem resetEvent_hostPc (s : State)  :
    (s.resetEvent).hostPc = (State.resetFrom s.cfg s.freeCtr).hostPc := rfl

@[simp] theorem resetEvent_hostCmd (s : State)  :
    (s.resetEvent).hostCmd = (State.resetFrom s.cfg s.freeCtr).hostCmd := rfl

@[simp] theorem resetEvent_hostI (s : State)  :
    (s.resetEvent).hostI = (State.resetFrom s.cfg s.freeCtr).hostI := rfl

@[simp] theorem resetEvent_hostOcc (s : State)  :
    (s.resetEvent).hostOcc = (State.resetFrom s.cfg s.freeCtr).hostOcc := rfl

@[simp] theorem resetEvent_hostT (s : State)  :
    (s.resetEvent).hostT = (State.resetFrom s.cfg s.freeCtr).hostT := rfl

@[simp] theorem resetEvent_hostB (s : State)  :
    (s.resetEvent).hostB = (State.resetFrom s.cfg s.freeCtr).hostB := rfl

@[simp] theorem resetEvent_irqPc (s : State)  :
    (s.resetEvent).irqPc = (State.resetFrom s.cfg s.freeCtr).irqPc := rfl

@[simp] theorem resetEvent_irqT (s : State)  :
    (s.resetEvent).irqT = (State.resetFrom s.cfg s.freeCtr).irqT := rfl

@[simp] theorem resetEvent_irqB (s : State)  :
    (s.resetEvent).irqB = (State.resetFrom s.cfg s.freeCtr).irqB := rfl

@[simp] theorem resetEvent_cmdFault (s : State)  :
    (s.resetEvent).cmdFault = (State.resetFrom s.cfg s.freeCtr).cmdFault := rfl

@[simp] theorem resetEvent_words (s : State)  :
    (s.resetEvent).words = s.words := rfl

@[simp] theorem resetEvent_sched (s : State)  :
    (s.resetEvent).sched = s.sched := rfl

@[simp] theorem resetEvent_hostlog (s : State)  :
    (s.resetEvent).hostlog = (State.resetFrom s.cfg s.freeCtr).hostlog := rfl

@[simp] theorem resetEvent_freeCtr (s : State)  :
    (s.resetEvent).freeCtr = s.freeCtr + 16 := rfl

/-! ### The start of a handler -/

@[simp] theorem enterHandler_cfg (s : State) (r : IrqNum) :
    (s.enterHandler r).cfg = s.cfg := by
  unfold State.enterHandler; split <;> rfl

@[simp] theorem enterHandler_ie (s : State) (r : IrqNum) :
    (s.enterHandler r).ie = s.ie := by
  unfold State.enterHandler; split <;> rfl

@[simp] theorem enterHandler_inHandler (s : State) (r : IrqNum) :
    (s.enterHandler r).inHandler = true := rfl

@[simp] theorem enterHandler_curIrq (s : State) (r : IrqNum) :
    (s.enterHandler r).curIrq = r := rfl

@[simp] theorem enterHandler_hostPc (s : State) (r : IrqNum) :
    (s.enterHandler r).hostPc = s.hostPc := by
  unfold State.enterHandler; split <;> rfl

@[simp] theorem enterHandler_hostCmd (s : State) (r : IrqNum) :
    (s.enterHandler r).hostCmd = s.hostCmd := by
  unfold State.enterHandler; split <;> rfl

@[simp] theorem enterHandler_hostI (s : State) (r : IrqNum) :
    (s.enterHandler r).hostI = s.hostI := by
  unfold State.enterHandler; split <;> rfl

@[simp] theorem enterHandler_hostOcc (s : State) (r : IrqNum) :
    (s.enterHandler r).hostOcc = s.hostOcc := by
  unfold State.enterHandler; split <;> rfl

@[simp] theorem enterHandler_hostT (s : State) (r : IrqNum) :
    (s.enterHandler r).hostT = s.hostT := by
  unfold State.enterHandler; split <;> rfl

@[simp] theorem enterHandler_hostB (s : State) (r : IrqNum) :
    (s.enterHandler r).hostB = s.hostB := by
  unfold State.enterHandler; split <;> rfl

@[simp] theorem enterHandler_irqPc (s : State) (r : IrqNum) :
    (s.enterHandler r).irqPc = firstIrqLabel r := rfl

@[simp] theorem enterHandler_irqT (s : State) (r : IrqNum) :
    (s.enterHandler r).irqT = s.irqT := by
  unfold State.enterHandler; split <;> rfl

@[simp] theorem enterHandler_irqB (s : State) (r : IrqNum) :
    (s.enterHandler r).irqB = s.irqB := by
  unfold State.enterHandler; split <;> rfl

@[simp] theorem enterHandler_cmdFault (s : State) (r : IrqNum) :
    (s.enterHandler r).cmdFault = s.cmdFault := by
  unfold State.enterHandler; split <;> rfl

@[simp] theorem enterHandler_words (s : State) (r : IrqNum) :
    (s.enterHandler r).words = s.words := by
  unfold State.enterHandler; split <;> rfl

@[simp] theorem enterHandler_sched (s : State) (r : IrqNum) :
    (s.enterHandler r).sched = s.sched := by
  unfold State.enterHandler; split <;> rfl

@[simp] theorem enterHandler_hostlog (s : State) (r : IrqNum) :
    (s.enterHandler r).hostlog = s.hostlog := by
  unfold State.enterHandler; split <;> rfl

@[simp] theorem enterHandler_freeCtr (s : State) (r : IrqNum) :
    (s.enterHandler r).freeCtr = s.freeCtr := by
  unfold State.enterHandler; split <;> rfl

/-! ### Reading channels and buffers back -/

theorem chan_setChan (s : State) (c c' : ChNum) (x : Chan) :
    (s.setChan c x).chan c' = if c = c' then x else s.chan c' := by
  simp [State.chan, State.setChan, Vector.getElem_set, ← BitVec.toNat_inj]

@[simp] theorem chan_setChan_same (s : State) (c : ChNum) (x : Chan) : (s.setChan c x).chan c = x := by
  simp [chan_setChan]

theorem chan_setChan_other (s : State) {c c' : ChNum} (x : Chan) (h : c ≠ c') :
    (s.setChan c x).chan c' = s.chan c' := by
  simp [chan_setChan, h]

/-- The channels of a state are those of any state with the same vector. -/
theorem chan_congr {s t : State} (h : s.chans = t.chans) (c : ChNum) : s.chan c = t.chan c := by
  simp [State.chan, h]

theorem ring_congr {s t : State} (h : s.chans = t.chans) (c : ChNum) (d : Dir) : s.ring c d = t.ring c d := by
  simp [State.ring, chan_congr h c]

/-- Two states with the same channels, read one by one, have the same vector of channels. -/
theorem chans_ext {s t : State} (h : ∀ c, s.chan c = t.chan c) : s.chans = t.chans := by
  apply Vector.ext
  intro i hi
  have hc := h (BitVec.ofNat 3 i)
  have e : (BitVec.ofNat 3 i).toNat = i := by simp; omega
  simpa [State.chan, e] using hc

@[simp] theorem setChan_chan (s : State) (c : ChNum) : s.setChan c (s.chan c) = s := by
  simp [State.setChan, State.chan]

@[simp] theorem setChan_setChan (s : State) (c : ChNum) (x y : Chan) :
    (s.setChan c x).setChan c y = s.setChan c y := by
  simp [State.setChan]

@[simp] theorem ring_setRing_chan (x : Chan) (d : Dir) (F : Ring) : (x.setRing d F).ring d = F := by
  cases d <;> rfl

theorem ring_setRing_other (x : Chan) {d d' : Dir} (F : Ring) (h : d ≠ d') :
    (x.setRing d F).ring d' = x.ring d' := by
  cases d <;> cases d' <;> first | rfl | exact absurd rfl h

@[simp] theorem setRing_ring_chan (x : Chan) (d : Dir) : x.setRing d (x.ring d) = x := by
  cases d <;> rfl

@[simp] theorem setRing_ring (s : State) (c : ChNum) (d : Dir) : s.setRing c d (s.ring c d) = s := by
  simp [State.setRing, State.ring]

theorem ring_setRing (s : State) (c c' : ChNum) (d d' : Dir) (F : Ring) :
    (s.setRing c d F).ring c' d' = if c = c' ∧ d = d' then F else s.ring c' d' := by
  unfold State.ring State.setRing
  rw [chan_setChan]
  by_cases hc : c = c'
  · subst hc
    by_cases hd : d = d'
    · subst hd; simp
    · simp [hd, ring_setRing_other _ _ hd]
  · simp [hc]

@[simp] theorem ring_setRing_same (s : State) (c : ChNum) (d : Dir) (F : Ring) : (s.setRing c d F).ring c d = F := by
  simp [ring_setRing]

@[simp] theorem setRing_chan_txData (x : Chan) (d : Dir) (F : Ring) : (x.setRing d F).txData = x.txData := by
  cases d <;> rfl

@[simp] theorem setRing_chan_txe (x : Chan) (d : Dir) (F : Ring) : (x.setRing d F).txe = x.txe := by
  cases d <;> rfl

@[simp] theorem setRing_chan_rxData (x : Chan) (d : Dir) (F : Ring) : (x.setRing d F).rxData = x.rxData := by
  cases d <;> rfl

@[simp] theorem setRing_chan_txPending (x : Chan) (d : Dir) (F : Ring) : (x.setRing d F).txPending = x.txPending := by
  cases d <;> rfl

@[simp] theorem setRing_chan_rxPending (x : Chan) (d : Dir) (F : Ring) : (x.setRing d F).rxPending = x.rxPending := by
  cases d <;> rfl

@[simp] theorem setRing_chan_txOverrun (x : Chan) (d : Dir) (F : Ring) : (x.setRing d F).txOverrun = x.txOverrun := by
  cases d <;> rfl

@[simp] theorem setRing_chan_rxOverrun (x : Chan) (d : Dir) (F : Ring) : (x.setRing d F).rxOverrun = x.rxOverrun := by
  cases d <;> rfl

@[simp] theorem setRing_chan_txlog (x : Chan) (d : Dir) (F : Ring) : (x.setRing d F).txlog = x.txlog := by
  cases d <;> rfl

@[simp] theorem setRing_chan_rxlog (x : Chan) (d : Dir) (F : Ring) : (x.setRing d F).rxlog = x.rxlog := by
  cases d <;> rfl

/-! ### The schedule is read by `step` alone -/

@[simp] theorem chan_sched (s : State) (es : List Event) (c : ChNum) :
    ({ s with sched := es } : State).chan c = s.chan c := rfl

@[simp] theorem ring_sched (s : State) (es : List Event) (c : ChNum) (d : Dir) :
    ({ s with sched := es } : State).ring c d = s.ring c d := rfl

@[simp] theorem validCh_sched (s : State) (es : List Event) (c : ChNum) :
    ({ s with sched := es } : State).validCh c = s.validCh c := rfl

@[simp] theorem pending_sched (s : State) (es : List Event) (r : IrqNum) :
    ({ s with sched := es } : State).pending r = s.pending r := rfl

@[simp] theorem canGrant_sched (s : State) (es : List Event) (r : IrqNum) :
    ({ s with sched := es } : State).canGrant r = s.canGrant r := rfl

@[simp] theorem grantWaiting_sched (s : State) (es : List Event) :
    ({ s with sched := es } : State).grantWaiting = s.grantWaiting := rfl

@[simp] theorem hostEnabled_sched (s : State) (es : List Event) :
    ({ s with sched := es } : State).hostEnabled = s.hostEnabled := rfl

/-! ### The state after a reset -/

/-- Every channel after a reset, its buffers with draws of their own. -/
@[simp] theorem chan_resetFrom (p : Params) (n : Nat) (c : ChNum) :
    (State.resetFrom p n).chan c = Chan.fresh (n + 2 * c.toNat) := by
  obtain ⟨⟨k, hk⟩⟩ := c
  simp only [State.chan, State.resetFrom, BitVec.toNat_ofFin]
  have : k < 8 := hk
  interval_cases k <;> rfl

@[simp] theorem ring_fresh_out (n : Nat) : (Chan.fresh n).ring .out = Ring.fresh n := rfl

@[simp] theorem ring_fresh_inp (n : Nat) : (Chan.fresh n).ring .inp = Ring.fresh (n + 1) := rfl

@[simp] theorem chan_resetOf (p : Params) (c : ChNum) : (State.resetOf p).chan c = Chan.fresh (2 * c.toNat) := by
  simp [State.resetOf]

@[simp] theorem chan_resetEvent (s : State) (c : ChNum) :
    (s.resetEvent).chan c = Chan.fresh (s.freeCtr + 2 * c.toNat) :=
  (chan_congr (t := State.resetFrom s.cfg s.freeCtr) rfl c).trans (chan_resetFrom _ _ _)

end Sys2Proof.Machine
end

