-- ==== Sys2Proof/Laws/Memory.lean ====
section
/-! SUPPORT. The storage of a buffer: reading back what was written, and its canonical form. -/

namespace Sys2Proof.Machine

/-- A read after a write to the same slot gives the value written. -/
@[simp] theorem read_write_same (m : Mem) (i : Nat) (v : Byte) : Mem.read (Mem.write m i v) i = some v := by
  induction m with
  | nil => simp [Mem.write, Mem.read]
  | cons x m ih =>
    obtain ⟨a, b⟩ := x
    unfold Mem.write
    split
    · simp [Mem.read]
    · split
      · simp [Mem.read]
      · have : a ≠ i := by omega
        simp [Mem.read, this, ih]

/-- A write leaves every other slot alone. -/
theorem read_write_other (m : Mem) {i j : Nat} (v : Byte) (h : i ≠ j) :
    Mem.read (Mem.write m i v) j = Mem.read m j := by
  induction m with
  | nil => simp [Mem.write, Mem.read, h]
  | cons x m ih =>
    obtain ⟨a, b⟩ := x
    unfold Mem.write
    split
    · simp [Mem.read, h]
    · split
      · rename_i _ hia
        subst hia
        simp [Mem.read, h]
      · by_cases haj : a = j
        · simp [Mem.read, haj]
        · simp [Mem.read, haj, ih]

/-- Both together. -/
theorem read_write (m : Mem) (i j : Nat) (v : Byte) :
    Mem.read (Mem.write m i v) j = if i = j then some v else Mem.read m j := by
  by_cases h : i = j
  · subst h; simp
  · simp [h, read_write_other m v h]

/-- A slot after a write: the value written, or what the slot held, free values included. -/
theorem slot_write (F G : Ring) (i j : Nat) (v : Byte) (hm : G.mem = Mem.write F.mem i v) (hf : G.fill = F.fill) :
    G.slot j = if j = i then v else F.slot j := by
  unfold Ring.slot
  rw [hm, hf, read_write]
  by_cases h : i = j
  · subst h; simp
  · simp [h, Ne.symm h]

@[simp] theorem slot_pushed (cap : Nat) (F : Ring) (v : Byte) (j : Nat) :
    (Ring.pushed cap F v).slot j = if j = F.head then v else F.slot j := slot_write F _ F.head j v rfl rfl

@[simp] theorem slot_popped (cap : Nat) (F : Ring) (j : Nat) : (Ring.popped cap F).slot j = F.slot j := rfl

/-- The slots listed after a write are those listed before and the slot written. -/
theorem mem_write_slots (m : Mem) (i : Nat) (v : Byte) (a : Nat) :
    a ∈ (Mem.write m i v).map Prod.fst → a = i ∨ a ∈ m.map Prod.fst := by
  induction m with
  | nil => simp [Mem.write]
  | cons x m ih =>
    obtain ⟨k, b⟩ := x
    unfold Mem.write
    split
    · simp
    · split
      · rename_i _ hik
        subst hik
        simp +contextual [or_comm]
      · simp only [List.map_cons, List.mem_cons]
        rintro (h | h)
        · exact .inr (.inl h)
        · rcases ih h with h | h
          · exact .inl h
          · exact .inr (.inr h)

/-- Every listed slot is below the capacity after a write below it. -/
theorem write_slots_lt {m : Mem} {cap i : Nat} (v : Byte) (hi : i < cap) (hm : ∀ x ∈ m, x.1 < cap) :
    ∀ x ∈ Mem.write m i v, x.1 < cap := by
  intro x hx
  rcases mem_write_slots m i v x.1 (List.mem_map_of_mem hx) with h | h
  · omega
  · obtain ⟨y, hy, hyx⟩ := List.mem_map.mp h
    have := hm y hy
    omega

/-- A write keeps the canonical form. -/
theorem wf_write {m : Mem} (i : Nat) (v : Byte) (h : Mem.wf m = true) : Mem.wf (Mem.write m i v) = true := by
  induction m with
  | nil => simp [Mem.write, Mem.wf]
  | cons x m ih =>
    obtain ⟨a, b⟩ := x
    simp only [Mem.wf, decide_eq_true_eq, List.map_cons, List.pairwise_cons] at h ih ⊢
    obtain ⟨hlt, hm⟩ := h
    unfold Mem.write
    split
    · rename_i hia
      simp only [List.map_cons, List.pairwise_cons, List.mem_cons]
      refine ⟨?_, hlt, hm⟩
      rintro y (rfl | hy)
      · exact hia
      · exact Nat.lt_trans hia (hlt y hy)
    · split
      · rename_i _ hia
        subst hia
        simpa using ⟨fun y z hy => hlt y (List.mem_map_of_mem hy), hm⟩
      · simp only [List.map_cons, List.pairwise_cons]
        refine ⟨fun y hy => ?_, ih hm⟩
        rcases mem_write_slots m i v y hy with h | h
        · omega
        · exact hlt y h

/-- The empty storage has the canonical form. -/
@[simp] theorem wf_nil : Mem.wf [] = true := by simp [Mem.wf]

/-- Writing back, in canonical form, a value that is there changes nothing: equal contents are equal data. -/
theorem write_read_self {m : Mem} {i : Nat} {v : Byte} (hw : Mem.wf m = true) (h : Mem.read m i = some v) :
    Mem.write m i v = m := by
  induction m with
  | nil => simp [Mem.read] at h
  | cons x m ih =>
    obtain ⟨a, b⟩ := x
    simp only [Mem.wf, decide_eq_true_eq, List.map_cons, List.pairwise_cons] at hw ih
    by_cases hai : a = i
    · subst hai
      have : b = v := by simpa [Mem.read] using h
      simp [Mem.write, this]
    · have hr : Mem.read m i = some v := by simpa [Mem.read, hai] using h
      have hin : ∀ n : Mem, Mem.read n i = some v → i ∈ n.map Prod.fst := by
        intro n
        induction n with
        | nil => simp [Mem.read]
        | cons y n ihn =>
          obtain ⟨k, w⟩ := y
          by_cases hk : k = i
          · simp [hk]
          · intro hy
            have := ihn (by simpa [Mem.read, hk] using hy)
            simp only [List.map_cons, List.mem_cons]
            exact .inr this
      have hlt := hw.1 i (hin m hr)
      have h1 : ¬ i < a := by omega
      have h2 : ¬ i = a := by omega
      simp [Mem.write, h1, h2, ih hw.2 hr]

/-- The buffers of the reset state have the canonical form. -/
theorem reset_storage_wf (c : ChNum) (d : Dir) : Mem.wf (State.reset.ring c d).mem = true := by
  cases d <;> revert c <;> decide

end Sys2Proof.Machine
end

