-- ==== Sys2Proof/Laws/Ops.lean ====
section
/-! SUPPORT. One lemma per shared operation that says everything it can do. -/

namespace Sys2Proof.Machine

/-! ### The micro-steps on one buffer -/

/-- What `push` on a buffer can answer. -/
theorem ring_push_cases {cap : Nat} {F G : Ring} {v : Byte} {e : ErrVal} (h : F.push cap v = .ok (e, G)) :
    (e = .full ∧ F.occ = cap ∧ G = F) ∨
    (e = .none ∧ F.occ ≠ cap ∧ F.head < cap ∧
      G = { F with mem := Mem.write F.mem F.head v, head := advance cap F.head, occ := F.occ + 1 }) := by
  unfold Ring.push slotWrite at h
  split at h
  · simp only [Except.ok.injEq, Prod.mk.injEq] at h
    exact .inl ⟨h.1.symm, ‹_›, h.2.symm⟩
  · by_cases hh : F.head < cap
    · simp only [hh, if_true, Except.ok.injEq, Prod.mk.injEq] at h
      exact .inr ⟨h.1.symm, ‹_›, hh, h.2.symm⟩
    · simp [hh] at h

/-- When `push` on a buffer faults. -/
theorem ring_push_error {cap : Nat} {F : Ring} {v : Byte} {f : Fault} (h : F.push cap v = .error f) :
    f = .noSuchSlot ∧ F.occ ≠ cap ∧ cap ≤ F.head := by
  unfold Ring.push slotWrite at h
  split at h
  · simp at h
  · by_cases hh : F.head < cap
    · simp [hh] at h
    · simp only [hh, if_false, Except.error.injEq] at h
      exact ⟨h.symm, ‹_›, by omega⟩

/-- What `pop` on a buffer can answer. -/
theorem ring_pop_cases {cap : Nat} {F G : Ring} {r : Option Byte} (h : F.pop cap = .ok (r, G)) :
    (r = none ∧ F.occ = 0 ∧ G = F) ∨
    (r = some (F.slot F.tail) ∧ F.occ ≠ 0 ∧ F.tail < cap ∧
      G = { F with tail := advance cap F.tail, occ := F.occ - 1 }) := by
  unfold Ring.pop slotRead at h
  split at h
  · simp only [Except.ok.injEq, Prod.mk.injEq] at h
    exact .inl ⟨h.1.symm, ‹_›, h.2.symm⟩
  · by_cases hh : F.tail < cap
    · simp only [hh, if_true, Except.ok.injEq, Prod.mk.injEq] at h
      exact .inr ⟨h.1.symm, ‹_›, hh, h.2.symm⟩
    · simp [hh] at h

/-- When `pop` on a buffer faults. -/
theorem ring_pop_error {cap : Nat} {F : Ring} {f : Fault} (h : F.pop cap = .error f) :
    f = .noSuchSlot ∧ F.occ ≠ 0 ∧ cap ≤ F.tail := by
  unfold Ring.pop slotRead at h
  split at h
  · simp at h
  · by_cases hh : F.tail < cap
    · simp [hh] at h
    · simp only [hh, if_false, Except.error.injEq] at h
      exact ⟨h.symm, ‹_›, by omega⟩

/-! ### The atomic section and the two micro-steps on the state -/

/-- What an atomic section can answer: its body's answer from `ie = 0`, with `ie` as it was found. -/
theorem atomic_ok {α : Type} {s t : State} {body : State → Except Fault (α × State)} {r : α}
    (h : s.atomic body = .ok (r, t)) :
    ∃ u, body { s with ie := false } = .ok (r, u) ∧ t = { u with ie := s.ie } := by
  unfold State.atomic at h
  split at h
  · simp at h
  · rename_i r' u hb
    simp only [Except.ok.injEq, Prod.mk.injEq] at h
    exact ⟨u, by rw [hb, h.1], h.2.symm⟩

/-- The buffers do not depend on `ie`. -/
theorem ring_ie (s : State) (b : Bool) (c : ChNum) (d : Dir) : ({ s with ie := b } : State).ring c d = s.ring c d :=
  rfl

/-- Clearing and restoring `ie` around a buffer's replacement is the replacement. -/
theorem restore_setRing (s : State) (c : ChNum) (d : Dir) (F : Ring) :
    ({ ({ s with ie := false } : State).setRing c d F with ie := s.ie } : State) = s.setRing c d F := rfl

/-- `push` on the state is `push` on the buffer it names. -/
theorem pushRing_eq (s : State) (c : ChNum) (d : Dir) (v : Byte) :
    s.pushRing c d v =
      match (s.ring c d).push s.cfg.cap v with
      | .error f => .error f
      | .ok (e, F) => .ok (e, s.setRing c d F) := by
  simp only [State.pushRing, State.atomic, ring_ie]
  cases (s.ring c d).push s.cfg.cap v <;> rfl

/-- `pop` on the state is `pop` on the buffer it names. -/
theorem popRing_eq (s : State) (c : ChNum) (d : Dir) :
    s.popRing c d =
      match (s.ring c d).pop s.cfg.cap with
      | .error f => .error f
      | .ok (b, F) => .ok (b, s.setRing c d F) := by
  simp only [State.popRing, State.atomic, ring_ie]
  cases (s.ring c d).pop s.cfg.cap <;> rfl

/-- What the micro-step `push` can answer. -/
theorem pushRing_cases {s t : State} {c : ChNum} {d : Dir} {v : Byte} {e : ErrVal}
    (h : s.pushRing c d v = .ok (e, t)) :
    (e = .full ∧ (s.ring c d).occ = s.cfg.cap ∧ t = s) ∨
    (e = .none ∧ (s.ring c d).occ ≠ s.cfg.cap ∧ (s.ring c d).head < s.cfg.cap ∧
      t = s.setRing c d { s.ring c d with
        mem := Mem.write (s.ring c d).mem (s.ring c d).head v,
        head := advance s.cfg.cap (s.ring c d).head, occ := (s.ring c d).occ + 1 }) := by
  rw [pushRing_eq] at h
  split at h
  · simp at h
  · rename_i e' G hp
    simp only [Except.ok.injEq, Prod.mk.injEq] at h
    obtain ⟨rfl, rfl⟩ := h
    rcases ring_push_cases hp with ⟨he, ho, rfl⟩ | ⟨he, ho, hh, rfl⟩
    · exact .inl ⟨he, ho, by simp⟩
    · exact .inr ⟨he, ho, hh, rfl⟩

/-- What the micro-step `pop` can answer. -/
theorem popRing_cases {s t : State} {c : ChNum} {d : Dir} {r : Option Byte} (h : s.popRing c d = .ok (r, t)) :
    (r = none ∧ (s.ring c d).occ = 0 ∧ t = s) ∨
    (r = some ((s.ring c d).slot (s.ring c d).tail) ∧ (s.ring c d).occ ≠ 0 ∧ (s.ring c d).tail < s.cfg.cap ∧
      t = s.setRing c d { s.ring c d with
        tail := advance s.cfg.cap (s.ring c d).tail, occ := (s.ring c d).occ - 1 }) := by
  rw [popRing_eq] at h
  split at h
  · simp at h
  · rename_i r' G hp
    simp only [Except.ok.injEq, Prod.mk.injEq] at h
    obtain ⟨rfl, rfl⟩ := h
    rcases ring_pop_cases hp with ⟨he, ho, rfl⟩ | ⟨he, ho, ht, rfl⟩
    · exact .inl ⟨he, ho, by simp⟩
    · exact .inr ⟨he, ho, ht, rfl⟩

/-! ### The register boundary -/

/-- What a write of `tx_data` can lead to. -/
theorem writeTxData_cases (s : State) (c : ChNum) (v : Byte) :
    ((s.chan c).txe = true ∧ (s.chan c).txOverrun = false ∧
      s.writeTxData c v =
        s.setChan c { s.chan c with txData := v, txe := false, txlog := (s.chan c).txlog ++ [v] }) ∨
    (((s.chan c).txe = false ∨ (s.chan c).txOverrun = true) ∧ s.writeTxData c v = s.txFree c false) := by
  unfold State.writeTxData
  cases (s.chan c).txe <;> cases (s.chan c).txOverrun <;> simp

/-- An overrun transmitter, as a channel's replacement. -/
theorem chan_txFree (s : State) (c c' : ChNum) (b : Bool) :
    (s.txFree c b).chan c' =
      if c = c' then
        { s.chan c with
          txData := Config.freeByte s.freeCtr, txlog := Config.freeLog s.freeCtr, txe := b, txOverrun := true }
      else s.chan c' := by
  rw [← chan_setChan]
  exact chan_congr rfl c'

/-! ### The pump -/

/-- What P2 can lead to. -/
theorem pumpStep_p2_cases (s : State) (c : ChNum) (b : Byte) :
    (∃ f, s.popRing c .out = .error f ∧ s.pumpStep c b .p2 = .fault f) ∨
    ((s.ring c .out).occ = 0 ∧ s.pumpStep c b .p2 = .returns .empty s) ∨
    ((s.ring c .out).occ ≠ 0 ∧ (s.ring c .out).tail < s.cfg.cap ∧
      s.pumpStep c b .p2 = .popped ((s.ring c .out).slot (s.ring c .out).tail) (s.setRing c .out { s.ring c .out with
        tail := advance s.cfg.cap (s.ring c .out).tail, occ := (s.ring c .out).occ - 1 })) := by
  cases h : s.popRing c .out with
  | error f => exact .inl ⟨f, rfl, by simp [State.pumpStep, h]⟩
  | ok x =>
    obtain ⟨r, t⟩ := x
    rcases popRing_cases h with ⟨rfl, ho, rfl⟩ | ⟨rfl, ho, ht, rfl⟩
    · exact .inr (.inl ⟨ho, by simp [State.pumpStep, h]⟩)
    · exact .inr (.inr ⟨ho, ht, by simp [State.pumpStep, h]⟩)

/-! ### Commands -/

/-- S0 of a command that takes a channel always has a next state. -/
theorem checkChannel_cases (s : State) (i : Instr) (c : ChNum) (pc : HostPc) :
    (s.validCh c = true ∧ s.checkChannel i c pc = .next { s with hostPc := pc }) ∨
    (s.validCh c = false ∧ s.checkChannel i c pc = .next (s.respond i .invalidChannel 0)) := by
  unfold State.checkChannel
  cases s.validCh c <;> simp

/-- What "return push" of a command can answer. -/
theorem pushAndRespond_next {s t : State} {i : Instr} {c : ChNum} {d : Dir} {v : Byte}
    (h : s.pushAndRespond i c d v = .next t) :
    ((s.ring c d).occ = s.cfg.cap ∧ t = s.respond i .full 0) ∨
    ((s.ring c d).occ ≠ s.cfg.cap ∧ (s.ring c d).head < s.cfg.cap ∧
      t = (s.setRing c d { s.ring c d with
        mem := Mem.write (s.ring c d).mem (s.ring c d).head v,
        head := advance s.cfg.cap (s.ring c d).head, occ := (s.ring c d).occ + 1 }).respond i .none 0) := by
  unfold State.pushAndRespond at h
  split at h
  · simp at h
  · rename_i e u hp
    simp only [Host.Outcome.next.injEq] at h
    rcases pushRing_cases hp with ⟨rfl, ho, rfl⟩ | ⟨rfl, ho, hh, rfl⟩
    · exact .inl ⟨ho, h.symm⟩
    · exact .inr ⟨ho, hh, h.symm⟩

/-- What "return pop" of a command can answer. -/
theorem popAndRespond_next {s t : State} {i : Instr} {c : ChNum} {d : Dir}
    (h : s.popAndRespond i c d = .next t) :
    ((s.ring c d).occ = 0 ∧ t = s.respond i .empty 0) ∨
    ((s.ring c d).occ ≠ 0 ∧ (s.ring c d).tail < s.cfg.cap ∧
      t = (s.setRing c d { s.ring c d with
        tail := advance s.cfg.cap (s.ring c d).tail, occ := (s.ring c d).occ - 1 }).respond i .none
          ((s.ring c d).slot (s.ring c d).tail)) := by
  unfold State.popAndRespond at h
  split at h
  · simp at h
  · rename_i u hp
    simp only [Host.Outcome.next.injEq] at h
    rcases popRing_cases hp with ⟨-, ho, rfl⟩ | ⟨hb, -⟩
    · exact .inl ⟨ho, h.symm⟩
    · simp at hb
  · rename_i b u hp
    simp only [Host.Outcome.next.injEq] at h
    rcases popRing_cases hp with ⟨hb, -⟩ | ⟨hb, ho, ht, rfl⟩
    · simp at hb
    · simp only [Option.some.injEq] at hb
      subst hb
      exact .inr ⟨ho, ht, h.symm⟩

/-- Past its channel check an operation that has a next state acted on a channel of the core. -/
theorem onChannel_next {s t : State} {c : ChNum} {act : Host.Outcome State Fault Refusal}
    (h : s.onChannel c act = .next t) : s.validCh c = true ∧ act = .next t := by
  unfold State.onChannel at h
  split at h
  · exact ⟨‹_›, h⟩
  · simp at h

/-- On a channel of the core the check is passed. -/
theorem onChannel_valid {s : State} {c : ChNum} (act : Host.Outcome State Fault Refusal)
    (h : s.validCh c = true) : s.onChannel c act = act := by
  simp [State.onChannel, h]

/-! ### Handlers and the environment -/

/-- The channels after a grant: a transmit request is cleared, nothing else changes. -/
theorem chan_enterHandler (s : State) (r : IrqNum) (c : ChNum) :
    (s.enterHandler r).chan c =
      if irqIsTx r = true ∧ irqCh r = c then { s.chan c with txPending := false } else s.chan c := by
  unfold State.enterHandler
  by_cases ht : irqIsTx r = true
  · simp only [ht, if_true, true_and]
    refine (chan_congr (t := s.setChan (irqCh r) { s.chan (irqCh r) with txPending := false }) rfl c).trans ?_
    rw [chan_setChan]
    by_cases hc : irqCh r = c
    · subst hc; simp
    · simp [hc]
  · simp only [ht, if_false, Bool.false_eq_true, false_and]
    exact chan_congr rfl c

/-- A grant leaves every buffer alone (R217). -/
@[simp] theorem ring_enterHandler (s : State) (r : IrqNum) (c : ChNum) (d : Dir) :
    (s.enterHandler r).ring c d = s.ring c d := by
  unfold State.ring
  rw [chan_enterHandler]
  split <;> cases d <;> rfl

/-- What a grant needs, and what it does. -/
theorem grant_next {s t : State} {r : IrqNum} (h : s.grant r = .next t) :
    s.canGrant r = true ∧ t = s.enterHandler r := by
  unfold State.grant at h
  split at h
  · simp only [Host.Outcome.next.injEq] at h
    exact ⟨‹_›, h.symm⟩
  · simp at h

/-- What a grant's guard says. -/
theorem canGrant_spec {s : State} {r : IrqNum} (h : s.canGrant r = true) :
    s.ie = true ∧ s.inHandler = false ∧ s.pending r = true := by
  unfold State.canGrant at h
  simp only [Bool.and_eq_true, Bool.not_eq_true'] at h
  exact ⟨h.1.1.1, h.1.1.2, h.1.2⟩

/-- What `TX_DONE` needs, and what it does. -/
theorem txDone_next {s t : State} {c : ChNum} (h : s.txDone c = .next t) :
    s.validCh c = true ∧ (s.chan c).txe = false ∧
      t = s.setChan c { s.chan c with txe := true, txPending := true } := by
  unfold State.txDone at h
  split at h
  · rename_i hg
    simp only [Bool.and_eq_true, Bool.not_eq_true'] at hg
    simp only [Host.Outcome.next.injEq] at h
    exact ⟨hg.1, hg.2, h.symm⟩
  · simp at h

/-- What `RX_ARRIVE` needs, and what it does. -/
theorem rxArrive_next {s t : State} {c : ChNum} {b : Byte} (h : s.rxArrive c b = .next t) :
    s.validCh c = true ∧ t = s.arrive c b := by
  unfold State.rxArrive at h
  split at h
  · simp only [Host.Outcome.next.injEq] at h
    exact ⟨‹_›, h.symm⟩
  · simp at h

/-! ### Agents -/

/-- Everything HOST's step can do. -/
theorem hostStep_cases {s t : State} (h : s.hostStep = .next t) :
    s.hostEnabled = true ∧
      ((s.hostPc = .idle ∧ ∃ why rest, decodeCommand s.words = .illegal why rest ∧ t = s.illegalCommand rest) ∨
       (s.hostPc = .idle ∧ ∃ i rest, decodeCommand s.words = .instr i rest ∧ exec i (s.accept i rest) = .next t) ∨
       (s.hostPc ≠ .idle ∧ ∃ i, s.hostCmd = some i ∧ exec i s = .next t)) := by
  unfold State.hostStep at h
  split at h
  · refine ⟨‹_›, ?_⟩
    split at h
    · rename_i hpc
      split at h
      · simp at h
      · rename_i why rest hd
        simp only [Host.Outcome.next.injEq] at h
        exact .inl ⟨hpc, why, rest, hd, h.symm⟩
      · rename_i i rest hd
        exact .inr (.inl ⟨hpc, i, rest, hd, h⟩)
    · rename_i hpc
      split at h
      · simp at h
      · rename_i i hc
        exact .inr (.inr ⟨hpc, i, hc, h⟩)
  · simp at h

/-- Everything IRQ's step can do. -/
theorem irqStep_cases {s t : State} (h : s.irqStep = .next t) :
    s.inHandler = true ∧ (decodeRequest s.curIrq).wf s.cfg.nCh = true ∧
      exec (decodeRequest s.curIrq) s = .next t := by
  unfold State.irqStep at h
  split at h
  · rename_i hi
    split at h
    · exact ⟨hi, ‹_›, h⟩
    · simp at h
  · simp at h

/-- Everything the machine's step can do: the step of the schedule's first entry, or of the machine's own choice,
or nothing. -/
theorem step_cases {s t : State} (h : step s = .next t) :
    (∃ e es, s.sched = e :: es ∧ State.eventStep { s with sched := es } e = .next t) ∨
    (s.sched = [] ∧ ∃ e, s.ownChoice = some e ∧ s.eventStep e = .next t) ∨
    (s.sched = [] ∧ s.ownChoice = none ∧ t = s) := by
  unfold step State.stepOnce at h
  split at h
  · rename_i e es hs
    exact .inl ⟨e, es, hs, h⟩
  · rename_i hs
    split at h
    · rename_i e he
      exact .inr (.inl ⟨hs, e, he, h⟩)
    · rename_i he
      simp only [Host.Outcome.next.injEq] at h
      exact .inr (.inr ⟨hs, he, h.symm⟩)

end Sys2Proof.Machine
end

