-- ==== Sys2Proof/Laws/PerInstr.lean ====
section
/-! SUPPORT. Facts about every instruction as syntax, one lemma per constructor. -/

namespace Sys2Proof.Laws

namespace LengthByHeader

/-- The length of a command's encoding is what its header alone says (R96). -/
def Statement (i : Instr) : Prop :=
  i.wf 8 = true → ∀ w ws, encode i = .command (w :: ws) → (w :: ws).length = commandLength w

theorem push (d : Dir) (ch : ChNum) (v : Byte) : Statement (.push d ch v) := by
  rintro - w ws h
  simp only [encode, Source.command.injEq, List.cons.injEq] at h
  obtain ⟨rfl, rfl⟩ := h
  simp [commandLength, decodeHeader]

theorem pop (d : Dir) (ch : ChNum) : Statement (.pop d ch) := by
  rintro - w ws h
  simp only [encode, Source.command.injEq, List.cons.injEq] at h
  obtain ⟨rfl, rfl⟩ := h
  simp [commandLength, decodeHeader]

theorem enqOut (ch : ChNum) (p : List Byte) : Statement (.enqOut ch p) := by
  intro hwf w ws h
  have hp : p.length ≤ 255 := of_decide_eq_true hwf
  have hk : p.length % 256 = p.length := Nat.mod_eq_of_lt (by omega)
  simp only [encode, Source.command.injEq, List.cons.injEq] at h
  obtain ⟨rfl, rfl⟩ := h
  simp [commandLength, decodeHeader, hk, Nat.add_comm]

theorem enqIn (ch : ChNum) (v : Byte) : Statement (.enqIn ch v) := by
  rintro - w ws h
  simp only [encode, Source.command.injEq, List.cons.injEq] at h
  obtain ⟨rfl, rfl⟩ := h
  simp [commandLength, decodeHeader]

theorem deqIn (ch : ChNum) : Statement (.deqIn ch) := by
  rintro - w ws h
  simp only [encode, Source.command.injEq, List.cons.injEq] at h
  obtain ⟨rfl, rfl⟩ := h
  simp [commandLength, decodeHeader]

theorem pump (ch : ChNum) : Statement (.pump ch) := by
  rintro - w ws h
  simp only [encode, Source.command.injEq, List.cons.injEq] at h
  obtain ⟨rfl, rfl⟩ := h
  simp [commandLength, decodeHeader]

theorem ieSet : Statement .ieSet := by
  rintro - w ws h
  simp only [encode, Source.command.injEq, List.cons.injEq] at h
  obtain ⟨rfl, rfl⟩ := h
  decide

theorem ieClr : Statement .ieClr := by
  rintro - w ws h
  simp only [encode, Source.command.injEq, List.cons.injEq] at h
  obtain ⟨rfl, rfl⟩ := h
  decide

theorem rxirq (c : ChNum) : Statement (.rxirq c) := by
  rintro - w ws h
  simp [encode] at h

theorem txirq (c : ChNum) : Statement (.txirq c) := by
  rintro - w ws h
  simp [encode] at h

end LengthByHeader

end Sys2Proof.Laws
end

