-- ==== Sys2Proof/Machine/Assembly.lean ====
section
/-! DEFINITION. The script syntax of the spec (spec/30_encoding.md R102 to R104): how a command, a step that is no
command, and a response are written. -/

namespace Sys2Proof.Machine

/-- One hexadecimal digit. -/
def hexDigit (n : Nat) : Char :=
  if n < 10 then Char.ofNat (48 + n) else Char.ofNat (55 + n)

/-- A byte in hexadecimal, `0x` and two digits (R102; assumption log 27). -/
def hexByte (b : Byte) : List Char :=
  ['0', 'x', hexDigit (b.toNat / 16), hexDigit (b.toNat % 16)]

/-- `chN` (R102). -/
def chanText (c : ChNum) : List Char := ['c', 'h', hexDigit c.toNat]

/-- `OUT` or `IN` (R102). -/
def dirText : Dir → List Char
  | .out => "OUT".toList
  | .inp => "IN".toList

/-- `, ` between operands (R102). -/
def comma : List Char := [',', ' ']

/-- A batch in square brackets (R102). -/
def batchText (p : List Byte) : List Char :=
  '[' :: (List.intersperse comma (p.map hexByte)).flatten ++ [']']

/-- A command as the spec's scripts write it (R102); the handlers have no command and are written as the grant that
starts them (R104). -/
def asmText : Instr → List Char
  | .push d ch v => "PUSH ".toList ++ dirText d ++ comma ++ chanText ch ++ comma ++ hexByte v
  | .pop d ch => "POP ".toList ++ dirText d ++ comma ++ chanText ch
  | .enqOut ch p => "ENQ_OUT ".toList ++ chanText ch ++ comma ++ batchText p
  | .enqIn ch v => "ENQ_IN ".toList ++ chanText ch ++ comma ++ hexByte v
  | .deqIn ch => "DEQ_IN ".toList ++ chanText ch
  | .pump ch => "PUMP ".toList ++ chanText ch
  | .ieSet => "IE_SET".toList
  | .ieClr => "IE_CLR".toList
  | .rxirq c => "GRANT RXIRQ ".toList ++ chanText c
  | .txirq c => "GRANT TXIRQ ".toList ++ chanText c

/-- `KICK chN` (R103). -/
def kickText (ch : ChNum) : List Char := "KICK ".toList ++ chanText ch

/-- The environment's steps and `RESET` as scripts write them (R104); the micro-steps of HOST and of a handler have
no line of their own. -/
def eventText : Event → Option (List Char)
  | .txDone c => some ("ENV TX_DONE ".toList ++ chanText c)
  | .rxArrive c b => some ("ENV RX_ARRIVE ".toList ++ chanText c ++ comma ++ hexByte b)
  | .grant r => some (asmText (decodeRequest r))
  | .reset => some "RESET".toList
  | .host => none
  | .irq => none

/-- The name of an error value (R98). -/
def ErrVal.text : ErrVal → List Char
  | .none => "None".toList
  | .full => "Full".toList
  | .empty => "Empty".toList
  | .hardwareNotReady => "HardwareNotReady".toList
  | .unexpectedFull => "UnexpectedFull".toList
  | .unexpectedEmpty => "UnexpectedEmpty".toList
  | .invalidChannel => "InvalidChannel".toList

/-- A response after `->`: the error's name, and the byte where the operation returns one (R102). -/
def responseText (e : ErrVal) (b : Option Byte) : List Char :=
  "-> ".toList ++ e.text ++
    match b with
    | some v => ' ' :: hexByte v
    | none => []

end Sys2Proof.Machine
end

