-- ==== Sys2Proof/Tests/Slice0.lean ====
section
/-! SUPPORT. Tests: ill-formed terms that are refused, words written out from the spec's encodings, one micro-step per
operation with the values of 95_test_vectors.md, and for each statement that has hypotheses a state that meets them. -/

open Sys2Proof Sys2Proof.Machine

namespace Sys2Proof.Tests

/-! ### Well-formedness -/

theorem test_wf_refuses_batch_of_256 : (Instr.enqOut 0 (List.replicate 256 0)).wf 5 = false := by
  simp only [Instr.wf, Config.kMax, List.length_replicate]; decide

theorem test_wf_accepts_batch_of_255 : (Instr.enqOut 0 (List.replicate 255 0)).wf 5 = true := by
  simp only [Instr.wf, Config.kMax, List.length_replicate]; decide

theorem test_wf_refuses_rxirq_of_channel_5 : (Instr.rxirq 5).wf 5 = false := by decide

theorem test_wf_refuses_txirq_of_channel_5 : (Instr.txirq 5).wf 5 = false := by decide

theorem test_wf_accepts_handlers_of_channel_4 :
    (Instr.rxirq 4).wf 5 = true ∧ (Instr.txirq 4).wf 5 = true := by decide

theorem test_wf_accepts_a_command_of_an_invalid_channel : (Instr.push .inp 7 0).wf 5 = true := by decide

/-! ### Decoding: words written bit by bit from R91, R93, R95, R101 -/

theorem test_decode_push : decodeCommand [0b0001_1_010_10101011] = .instr (.push .inp 2 0xAB) [] := by decide

theorem test_decode_pop : decodeCommand [0b0010_1_010_00000000] = .instr (.pop .inp 2) [] := by decide

theorem test_decode_enqOut :
    decodeCommand [0b0011_0_001_00000010, 0b00000000_01000001, 0b00000000_01000010, 0x7000] =
      .instr (.enqOut 1 [0x41, 0x42]) [0x7000] := by decide

theorem test_decode_enqIn : decodeCommand [0b0100_0_100_01111111] = .instr (.enqIn 4 0x7F) [] := by decide

theorem test_decode_deqIn : decodeCommand [0b0101_0_010_00000000] = .instr (.deqIn 2) [] := by decide

theorem test_decode_pump : decodeCommand [0b0110_0_001_00000000] = .instr (.pump 1) [] := by decide

theorem test_decode_ieSet : decodeCommand [0b0111_0_000_00000000] = .instr .ieSet [] := by decide

theorem test_decode_ieClr : decodeCommand [0b1000_0_000_00000000] = .instr .ieClr [] := by decide

theorem test_decode_rxirq : decode (.request 0b010_0) = .instr (.rxirq 2) [] := by decide

theorem test_decode_txirq : decode (.request 0b100_1) = .instr (.txirq 4) [] := by decide

/-- V-ENC-3, V-ENC-7, V-ENC-9: an invalid channel and an empty batch are legal. -/
theorem test_decode_legal_corners :
    decodeCommand [0x1F00] = .instr (.push .inp 7 0) [] ∧ decodeCommand [0x3000] = .instr (Instr.kick 0) [] ∧
    decodeCommand [0x3500] = .instr (.enqOut 5 []) [] := by decide

/-- Is a one-word command illegal? -/
def illegalWord (w : Half) : Bool :=
  match decodeCommand [w] with
  | .illegal _ _ => true
  | _ => false

/-- V-ENC-5, V-ENC-8, V-ENC-11, V-ENC-13, V-ENC-15, V-ENC-17, V-ENC-18. -/
theorem test_decode_illegal_words :
    [0x2001, 0x3800, 0x4C7F, 0x5201, 0x5A00, 0x6180, 0x6900, 0x7001, 0x7800, 0x8100, 0x0000, 0x0041, 0x9000, 0xF000,
      0xFFFF].all illegalWord = true := by decide

/-- V-ENC-19 and V-ENC-20: a payload word with one of bits 15:8 set makes the whole command illegal. -/
theorem test_decode_illegal_payload :
    decodeCommand [0x3102, 0x0041, 0x0142, 0x1011] = .illegal .payload [0x1011] ∧
    decodeCommand [0x3102, 0x0041, 0x1011] = .illegal .payload [] := by decide

theorem test_encode_writes_the_words :
    encodeWords (.enqOut 1 [0x41, 0x42, 0x43]) = [0x3103, 0x0041, 0x0042, 0x0043] ∧
    encodeWords (.push .inp 2 0xAB) = [0x1AAB] ∧ encode (.txirq 4) = .request 9 := by decide

/-! ### The numbering of opcode_table.json -/

theorem test_table_words :
    decodeTableWord 16 0x1AAB = some (.push .inp 2 0xAB) ∧ decodeTableWord 16 0x2A00 = some (.pop .inp 2) ∧
    decodeTableWord 16 0x3102 = some (.enqOut 1 [0, 0]) ∧ decodeTableWord 32 0x00413101 = some (.enqOut 1 [0x41]) ∧
    decodeTableWord 16 0x447F = some (.enqIn 4 0x7F) ∧ decodeTableWord 16 0x5200 = some (.deqIn 2) ∧
    decodeTableWord 16 0x6100 = some (.pump 1) ∧ decodeTableWord 16 0x7000 = some .ieSet ∧
    decodeTableWord 16 0x8000 = some .ieClr ∧ decodeTableWord 8 4 = some (.rxirq 2) ∧
    decodeTableWord 8 9 = some (.txirq 4) ∧ decodeTableWord 16 0x2001 = none ∧ decodeTableWord 8 16 = none := by decide

/-- Does an outcome answer a next state with property `p`? -/
def nextWith (p : State → Bool) : Host.Outcome State Fault Refusal → Bool
  | .next t => p t
  | _ => false

/-- The label at which the first step after reset leaves each command and each handler. -/
theorem test_first_step_runs_every_row :
    nextWith (fun t => t.hostPc == .s1 && t.hostCmd == some (.push .inp 2 0xAB))
      (step (State.reset.withFetchWord 16 0x1AAB)) = true ∧
    nextWith (fun t => t.hostPc == .s1 && t.hostCmd == some (.pop .inp 2))
      (step (State.reset.withFetchWord 16 0x2A00)) = true ∧
    nextWith (fun t => t.hostPc == .s1 && t.hostCmd == some (.enqOut 1 [0, 0]))
      (step (State.reset.withFetchWord 16 0x3102)) = true ∧
    nextWith (fun t => t.hostPc == .s1 && t.hostCmd == some (.enqIn 4 0x7F))
      (step (State.reset.withFetchWord 16 0x447F)) = true ∧
    nextWith (fun t => t.hostPc == .s1 && t.hostCmd == some (.deqIn 2))
      (step (State.reset.withFetchWord 16 0x5200)) = true ∧
    nextWith (fun t => t.hostPc == .p1 && t.hostCmd == some (.pump 1))
      (step (State.reset.withFetchWord 16 0x6100)) = true ∧
    nextWith (fun t => t.hostlog == [(.ieSet, 0x0000)]) (step (State.reset.withFetchWord 16 0x7000)) = true ∧
    nextWith (fun t => t.hostlog == [(.ieClr, 0x0000)]) (step (State.reset.withFetchWord 16 0x8000)) = true ∧
    nextWith (fun t => t.irqPc == .g2) (step (State.reset.withFetchWord 8 4)) = true ∧
    nextWith (fun t => t.irqPc == .p2) (step (State.reset.withFetchWord 8 9)) = true := by decide

/-! ### Script text (R102, R103, R104) -/

theorem test_script_text :
    asmText (.enqOut 1 [0x41, 0x42, 0x43]) = "ENQ_OUT ch1, [0x41, 0x42, 0x43]".toList ∧
    asmText (.push .inp 2 0xAB) = "PUSH IN, ch2, 0xAB".toList ∧ kickText 0 = "KICK ch0".toList ∧
    eventText (.rxArrive 2 0xA1) = some "ENV RX_ARRIVE ch2, 0xA1".toList ∧
    eventText (.grant 9) = some "GRANT TXIRQ ch4".toList ∧
    responseText .none (some 0x11) = "-> None 0x11".toList := by decide

/-! ### Small states -/

/-- The reset state of a core with capacity `cap` and five channels. -/
def fresh (cap : Nat) : State := State.resetOf { cap := cap, nCh := 5, grantPolicy := .any, arbOrder := .any }

/-- The same under `eager`. -/
def freshEager (cap : Nat) : State := State.resetOf { cap := cap, nCh := 5, grantPolicy := .eager, arbOrder := .any }

/-- The buffer of capacity `cap` that starts empty at index `h` and is pushed `bs`. -/
def ringOf (cap h : Nat) (bs : List Byte) : Ring :=
  (Ring.pushAll cap { Ring.fresh 0 with head := h, tail := h } bs).getD (Ring.fresh 0)

/-- HOST stands at label `pc` of command `i`. -/
def at' (s : State) (pc : HostPc) (i : Instr) : State := { s with hostPc := pc, hostCmd := some i }

/-- The handler of request `r` stands at label `pc`, interrupts being enabled. -/
def inside (s : State) (pc : IrqPc) (r : IrqNum) : State :=
  { s with ie := true, inHandler := true, curIrq := r, irqPc := pc }

/-- Change channel `c`. -/
def onChan (s : State) (c : ChNum) (f : Chan → Chan) : State := s.setChan c (f (s.chan c))

/-- The pointers and count of a buffer, as 95_test_vectors.md writes them. -/
def regsOf (F : Ring) : Nat × Nat × Nat := (F.head, F.tail, F.occ)

/-- The last response word. -/
def lastResponse (s : State) : Option Half := s.hostlog.getLast?.map Prod.snd

/-! ### One micro-step of each operation, with the values of 95_test_vectors.md -/

/-- S1 row 4. -/
theorem test_push_wraps_the_head :
    nextWith (fun t => regsOf (t.ring 0 .out) == (0, 0, 4) && (t.ring 0 .out).slot 3 == 0x44 &&
        lastResponse t == some 0x0000)
      (exec (.push .out 0 0x44)
        (at' ((fresh 4).setRing 0 .out (ringOf 4 0 [0x11, 0x22, 0x33])) .s1 (.push .out 0 0x44))) = true := by decide

/-- V-RB-1 row 6. -/
theorem test_push_full :
    nextWith (fun t => t.ring 2 .inp == ringOf 3 1 [0xA1, 0xA2, 0xA3] && lastResponse t == some 0x0100)
      (exec (.push .inp 2 0xA4)
        (at' ((fresh 3).setRing 2 .inp (ringOf 3 1 [0xA1, 0xA2, 0xA3])) .s1 (.push .inp 2 0xA4))) = true := by decide

/-- V-RB-1 row 8: the tail goes from 2 to 0, not modulo 4. -/
theorem test_pop_wraps_the_tail :
    nextWith (fun t => regsOf (t.ring 2 .inp) == (1, 0, 1) && lastResponse t == some 0x00A2)
      (exec (.pop .inp 2)
        (at' ((fresh 3).setRing 2 .inp (ringOf 3 2 [0xA2, 0xA3])) .s1 (.pop .inp 2))) = true := by decide

/-- V-RB-3: an invalid channel. -/
theorem test_pop_invalid_channel :
    nextWith (fun t => lastResponse t == some 0x0600) (exec (.pop .inp 7) (at' (fresh 4) .s0 (.pop .inp 7))) = true := by
  decide

/-- V-OUT-4: room 2, a batch of three. -/
theorem test_enqOut_rejects_the_whole_batch :
    nextWith (fun t => t.ring 3 .out == ringOf 4 1 [0x02, 0x03] && lastResponse t == some 0x0100)
      (exec (.enqOut 3 [0x04, 0x05, 0x06])
        (at' ((fresh 4).setRing 3 .out (ringOf 4 1 [0x02, 0x03])) .s1 (.enqOut 3 [0x04, 0x05, 0x06]))) = true := by
  decide

/-- V-OUT-12: the second push of a fill that meets a full buffer. -/
theorem test_enqOut_unexpectedFull :
    nextWith (fun t => Ring.held 4 (t.ring 0 .out) == [1, 2, 3, 0x0A] && lastResponse t == some 0x0400 &&
        (t.chan 0).txe)
      (exec (.enqOut 0 [0x0A, 0x0B])
        (at' { (fresh 4).setRing 0 .out (ringOf 4 0 [1, 2, 3, 0x0A]) with hostI := 1 } .s2
          (.enqOut 0 [0x0A, 0x0B]))) = true := by decide

/-- V-IN-1. -/
theorem test_enqIn_stores :
    nextWith (fun t => regsOf (t.ring 4 .inp) == (1, 0, 1) && Ring.held 4 (t.ring 4 .inp) == [0x7F] &&
        lastResponse t == some 0x0000)
      (exec (.enqIn 4 0x7F) (at' (fresh 4) .s1 (.enqIn 4 0x7F))) = true := by decide

/-- V-IN-2. -/
theorem test_enqIn_full :
    nextWith (fun t => Ring.held 4 (t.ring 4 .inp) == [1, 2, 3, 4] && lastResponse t == some 0x0100)
      (exec (.enqIn 4 0x7F) (at' ((fresh 4).setRing 4 .inp (ringOf 4 0 [1, 2, 3, 4])) .s1 (.enqIn 4 0x7F))) = true := by
  decide

/-- V-IN-4. -/
theorem test_deqIn_returns_the_oldest :
    nextWith (fun t => regsOf (t.ring 2 .inp) == (2, 1, 1) && lastResponse t == some 0x00A1)
      (exec (.deqIn 2) (at' ((fresh 4).setRing 2 .inp (ringOf 4 0 [0xA1, 0xA2])) .s1 (.deqIn 2))) = true := by decide

/-- V-IN-5. -/
theorem test_deqIn_empty :
    nextWith (fun t => lastResponse t == some 0x0200) (exec (.deqIn 2) (at' (fresh 4) .s1 (.deqIn 2))) = true := by
  decide

/-- V-PUMP-1, its last micro-step. -/
theorem test_pump_writes_the_byte :
    nextWith (fun t => (t.chan 1).txData == 0x42 && !(t.chan 1).txe && (t.chan 1).txlog == [0x42] &&
        lastResponse t == some 0x0000)
      (exec (.pump 1) (at' { fresh 128 with hostB := 0x42 } .p3 (.pump 1))) = true := by decide

/-- V-PUMP-3: a busy transmitter with an empty buffer answers `HardwareNotReady`. -/
theorem test_pump_not_ready_before_empty :
    nextWith (fun t => lastResponse t == some 0x0300)
      (exec (.pump 1) (at' (onChan (fresh 128) 1 fun x => { x with txe := false }) .p1 (.pump 1))) = true := by decide

/-- V-IE-1. -/
theorem test_ieSet :
    nextWith (fun t => t.ie && lastResponse t == some 0x0000) (exec .ieSet (at' (fresh 4) .s1 .ieSet)) = true := by decide

/-- V-IE-1. -/
theorem test_ieClr :
    nextWith (fun t => !t.ie && lastResponse t == some 0x0000)
      (exec .ieClr (at' { fresh 4 with ie := true } .s1 .ieClr)) = true := by decide

/-- V-IN-9: G1 reads the byte, clears the request and leaves the register. -/
theorem test_rxirq_reads :
    nextWith (fun t => t.irqB == 0xA1 && !(t.chan 2).rxPending && (t.chan 2).rxData == 0xA1 && t.irqPc == .g2)
      (exec (.rxirq 2)
        (inside (onChan (fresh 4) 2 fun x => { x with rxData := 0xA1, rxPending := true }) .g1 4)) = true := by decide

/-- V-IN-10: G2 on a full buffer drops the byte, with no fault flag. -/
theorem test_rxirq_drops :
    nextWith (fun t => Ring.held 4 (t.ring 2 .inp) == [0xA1, 0xA2, 0xA3, 0xA4] && !(t.chan 2).rxOverrun &&
        t.irqPc == .g3)
      (exec (.rxirq 2)
        (inside { (fresh 4).setRing 2 .inp (ringOf 4 0 [0xA1, 0xA2, 0xA3, 0xA4]) with irqB := 0xA5 } .g2 4)) = true := by
  decide

/-- V-PUMP-6, its P2. -/
theorem test_txirq_pops :
    nextWith (fun t => regsOf (t.ring 1 .out) == (3, 3, 0) && t.irqB == 0x43 && t.irqPc == .p3)
      (exec (.txirq 1) (inside ((fresh 128).setRing 1 .out (ringOf 128 2 [0x43])) .p2 3)) = true := by decide

/-- V-PUMP-8: a stale request finds the transmitter busy. -/
theorem test_txirq_stale :
    nextWith (fun t => Ring.held 4 (t.ring 1 .out) == [0x63] && t.irqPc == .t4)
      (exec (.txirq 1)
        (inside (onChan ((fresh 4).setRing 1 .out (ringOf 4 0 [0x63])) 1 fun x => { x with txe := false }) .p1 3)) =
      true := by decide

/-- V-ARB-1: of the pending requests 0, 1, 3, 6 the lowest is granted, and no other under `lowest`. -/
theorem test_lowest_request_first :
    let s := onChan (onChan (onChan { fresh 4 with ie := true, cfg := { (fresh 4).cfg with arbOrder := .lowest } } 0
      fun x => { x with rxPending := true, txPending := true }) 1 fun x => { x with txPending := true }) 3
      fun x => { x with rxPending := true }
    s.lowestPending = some 0 ∧ nextWith (fun t => t.irqPc == .g1) (s.grant 0) = true ∧
      nextWith (fun _ => true) (s.grant 1) = false := by decide

/-! ### Witnesses: for each statement that has hypotheses, a state and operands that meet them, clause by clause -/

theorem witness_DecodeReadsBackEveryEncoding :
    (Instr.isCommand (.enqOut 7 (List.replicate 255 0xFF)) = true ∧
      Instr.wf 8 (.enqOut 7 (List.replicate 255 0xFF)) = true) ∧
    Instr.isCommand (.txirq 7) = false := by
  simp only [Instr.isCommand, Instr.wf, Config.kMax, List.length_replicate]; decide

theorem witness_EveryDecodedCommandIsItsEncoding :
    decodeCommand [0x3702, 0x00FF, 0x0000, 0xFFFF] = .instr (.enqOut 7 [0xFF, 0x00]) [0xFFFF] := by decide

theorem witness_HeaderSelectsByMatchAndMask :
    (⟨8, 0x8000, 0xFFFF⟩ : OpRow) ∈ opTable ∧ OpRow.selects ⟨8, 0x8000, 0xFFFF⟩ 0x8000 = true := by decide

theorem witness_PushAndPopAreOneMicroStep :
    let full := (fresh 1).setRing 7 .inp (ringOf 1 0 [0x5A])
    let some3 := (fresh 4).setRing 0 .out (ringOf 4 0 [1, 2, 3])
    ((full.ring 7 .inp).head < full.cfg.cap ∧ (full.ring 7 .inp).occ = full.cfg.cap) ∧
    ((some3.ring 0 .out).head < some3.cfg.cap ∧ (some3.ring 0 .out).occ ≠ some3.cfg.cap) ∧
    (((fresh 1).ring 0 .out).tail < (fresh 1).cfg.cap ∧ ((fresh 1).ring 0 .out).occ = 0) ∧
    ((full.ring 7 .inp).tail < full.cfg.cap ∧ (full.ring 7 .inp).occ ≠ 0 ∧
      (full.ring 7 .inp).slot (full.ring 7 .inp).tail = 0x5A) := by decide

theorem witness_BufferInvariantIsKept : Ring.Inv 3 (ringOf 3 2 [1, 2, 3]) ∧ Ring.Inv 1 (ringOf 1 0 []) := by decide

theorem witness_HeldBytesFollowFifoOrder :
    (Ring.Inv 3 (ringOf 3 2 [1, 2]) ∧ (ringOf 3 2 [1, 2]).occ < 3 ∧ Ring.held 3 (ringOf 3 2 [1, 2]) = 1 :: [2]) ∧
    (Ring.Inv 3 (ringOf 3 2 [1, 2, 3]) ∧ (ringOf 3 2 [1, 2, 3]).occ = 3) ∧
    (Ring.Inv 3 (ringOf 3 2 []) ∧ Ring.held 3 (ringOf 3 2 []) = []) := by decide

theorem witness_PushesThenPopsReturnTheBytesInOrder :
    Ring.Inv 3 (ringOf 3 2 []) ∧ (ringOf 3 2 []).occ = 0 ∧ [0x00, 0xFF, (0x00 : Byte)].length = 3 := by decide

theorem witness_PushAndPopCommuteBetweenTheBounds :
    Ring.Inv 2 (ringOf 2 1 [1]) ∧ 0 < (ringOf 2 1 [1]).occ ∧ (ringOf 2 1 [1]).occ < 2 := by decide

theorem witness_AtomicSectionRestoresIe :
    (∃ t, (fresh 4).atomic (fun u => .ok (true, { u with ie := true })) = .ok (true, t)) ∧
    (∃ t, { fresh 4 with ie := true }.pushRing 0 .out 0x01 = .ok (.none, t)) ∧
    (∃ t, { fresh 4 with ie := true }.popRing 0 .out = .ok (none, t)) :=
  ⟨⟨_, rfl⟩, ⟨_, rfl⟩, ⟨_, rfl⟩⟩

theorem witness_ChannelCheckComesFirst :
    Instr.isCommand (.enqOut 5 [0xAA]) = true ∧ Instr.chan? (.enqOut 5 [0xAA]) = some 5 ∧
    (at' (fresh 4) .s0 (.enqOut 5 [0xAA])).hostPc = .s0 ∧ (fresh 4).cfg.nCh ≤ (5 : ChNum).toNat ∧
    (4 : ChNum).toNat < (fresh 4).cfg.nCh := by decide

theorem witness_PushAndEnqInStoreOrReject :
    let room := at' ((fresh 4).setRing 4 .inp (ringOf 4 0 [1, 2, 3])) .s1 (.enqIn 4 9)
    let full := at' ((fresh 4).setRing 4 .inp (ringOf 4 0 [1, 2, 3, 4])) .s1 (.enqIn 4 9)
    (room.hostPc = .s1 ∧ (4 : ChNum).toNat < room.cfg.nCh ∧ (room.ring 4 .inp).occ < room.cfg.cap ∧
      (room.ring 4 .inp).head < room.cfg.cap) ∧
    (full.hostPc = .s1 ∧ (full.ring 4 .inp).occ = full.cfg.cap) := by decide

theorem witness_PopAndDeqInReturnOrReject :
    let one := at' ((fresh 4).setRing 4 .inp (ringOf 4 3 [0xA1])) .s1 (.deqIn 4)
    let empty := at' (fresh 4) .s1 (.deqIn 4)
    (one.hostPc = .s1 ∧ (4 : ChNum).toNat < one.cfg.nCh ∧ 0 < (one.ring 4 .inp).occ ∧
      (one.ring 4 .inp).tail < one.cfg.cap ∧
      0xA1 = (one.ring 4 .inp).slot (one.ring 4 .inp).tail) ∧
    (empty.hostPc = .s1 ∧ (empty.ring 4 .inp).occ = 0) := by decide

theorem witness_EnqOutPreChecksTheWholeBatch :
    let s := at' ((fresh 4).setRing 3 .out (ringOf 4 1 [2, 3])) .s1 (.enqOut 3 [4, 5, 6])
    s.hostPc = .s1 ∧ (3 : ChNum).toNat < s.cfg.nCh ∧
    s.cfg.cap - (s.ring 3 .out).occ < [4, 5, (6 : Byte)].length ∧
    [4, (5 : Byte)].length ≤ s.cfg.cap - (s.ring 3 .out).occ := by decide

theorem witness_EnqOutFillsByteByByte :
    let room := at' { (fresh 4).setRing 0 .out (ringOf 4 0 [1, 2, 3]) with hostI := 1 } .s2 (.enqOut 0 [8, 9])
    let full := at' { (fresh 4).setRing 0 .out (ringOf 4 0 [1, 2, 3, 4]) with hostI := 1 } .s2 (.enqOut 0 [8, 9])
    (room.hostPc = .s2 ∧ (0 : ChNum).toNat < room.cfg.nCh ∧ [8, (9 : Byte)][room.hostI]? = some 9 ∧
      (room.ring 0 .out).occ < room.cfg.cap ∧ (room.ring 0 .out).head < room.cfg.cap) ∧
    (full.hostPc = .s2 ∧ full.hostI < [8, (9 : Byte)].length ∧ (full.ring 0 .out).occ = full.cfg.cap) := by decide

/-- Channel `c` of a fresh core, busy and holding `bs`. -/
def busy (c : ChNum) (bs : List Byte) : State :=
  onChan ((fresh 4).setRing c .out (ringOf 4 0 bs)) c fun x => { x with txe := false }

/-- Channel `c` of a fresh core, idle and holding `bs`. -/
def idle (c : ChNum) (bs : List Byte) : State := (fresh 4).setRing c .out (ringOf 4 0 bs)

theorem witness_EnqOutReadsTheFlag :
    ((at' (busy 4 []) .s3 (.enqOut 4 [])).hostPc = .s3 ∧ (4 : ChNum).toNat < (busy 4 []).cfg.nCh ∧
      ((busy 4 []).chan 4).txe = false) ∧
    ((at' (idle 4 []) .s3 (.enqOut 4 [])).hostPc = .s3 ∧ ((idle 4 []).chan 4).txe = true) := by decide

theorem witness_HostPumpMovesOneByte :
    (4 : ChNum).toNat < (fresh 4).cfg.nCh ∧
    ((at' (idle 4 []) .p1 (.pump 4)).hostPc = .p1 ∧ ((idle 4 []).chan 4).txe = true) ∧
    ((at' (busy 4 []) .p1 (.pump 4)).hostPc = .p1 ∧ ((busy 4 []).chan 4).txe = false) ∧
    ((at' (idle 4 []) .p2 (.pump 4)).hostPc = .p2 ∧ ((idle 4 []).ring 4 .out).occ = 0) ∧
    ((at' (idle 4 [7]) .p2 (.pump 4)).hostPc = .p2 ∧ 0 < ((idle 4 [7]).ring 4 .out).occ ∧
      ((idle 4 [7]).ring 4 .out).tail < (idle 4 [7]).cfg.cap ∧
      7 = ((idle 4 [7]).ring 4 .out).slot ((idle 4 [7]).ring 4 .out).tail) ∧
    ((at' (idle 4 []) .p3 (.pump 4)).hostPc = .p3 ∧ ((idle 4 []).chan 4).txe = true ∧
      ((idle 4 []).chan 4).txOverrun = false) := by decide

theorem witness_WriteToABusyTransmitterIsAFault :
    (4 : ChNum).toNat < (busy 4 []).cfg.nCh ∧ ((busy 4 []).chan 4).txe = false ∧
    ((onChan (idle 4 []) 4 fun x => { x with txOverrun := true }).chan 4).txOverrun = true ∧
    (at' (busy 4 []) .p3 (.pump 4)).hostPc = .p3 ∧ (inside (busy 4 []) .p3 9).irqPc = .p3 := by decide

theorem witness_InterruptControlWritesIe :
    let s := at' (onChan (freshEager 4) 4 fun x => { x with txPending := true }) .s1 .ieSet
    s.hostPc = .s1 ∧ s.ie = false ∧ s.inHandler = false ∧ s.cfg.arbOrder = .any ∧ s.pending 9 = true ∧
      s.cfg.grantPolicy = .eager := by decide

theorem witness_RxirqMovesTheArrivedByte :
    let full := (fresh 4).setRing 4 .inp (ringOf 4 0 [1, 2, 3, 4])
    let room := (fresh 4).setRing 4 .inp (ringOf 4 0 [1, 2, 3])
    (4 : ChNum).toNat < (fresh 4).cfg.nCh ∧ (inside (fresh 4) .g1 8).irqPc = .g1 ∧
    ((inside full .g2 8).irqPc = .g2 ∧ (full.ring 4 .inp).occ = full.cfg.cap) ∧
    ((inside room .g2 8).irqPc = .g2 ∧ (room.ring 4 .inp).occ < room.cfg.cap ∧
      (room.ring 4 .inp).head < room.cfg.cap) ∧
    (inside (fresh 4) .g3 8).irqPc = .g3 := by decide

theorem witness_TxirqPumpsOneByte :
    (4 : ChNum).toNat < (fresh 4).cfg.nCh ∧
    ((inside (idle 4 []) .p1 9).irqPc = .p1 ∧ ((idle 4 []).chan 4).txe = true) ∧
    ((inside (busy 4 []) .p1 9).irqPc = .p1 ∧ ((busy 4 []).chan 4).txe = false) ∧
    ((inside (idle 4 []) .p2 9).irqPc = .p2 ∧ ((idle 4 []).ring 4 .out).occ = 0) ∧
    ((inside (idle 4 [7]) .p2 9).irqPc = .p2 ∧ 0 < ((idle 4 [7]).ring 4 .out).occ ∧
      ((idle 4 [7]).ring 4 .out).tail < (idle 4 [7]).cfg.cap ∧
      7 = ((idle 4 [7]).ring 4 .out).slot ((idle 4 [7]).ring 4 .out).tail) ∧
    ((inside (idle 4 []) .p3 9).irqPc = .p3 ∧ ((idle 4 []).chan 4).txOverrun = false) ∧
    (inside (idle 4 []) .t4 9).irqPc = .t4 := by decide

theorem witness_OffItsLabelsAnOperationStops :
    (Instr.isCommand (.push .out 0 0) = true ∧ hasHostLabel (.push .out 0 0) (at' (fresh 4) .p1 .ieSet).hostPc = false) ∧
    ((fresh 4).irqPc ≠ .g1 ∧ (fresh 4).irqPc ≠ .g2 ∧ (fresh 4).irqPc ≠ .g3) ∧
    ((fresh 4).irqPc ≠ .p1 ∧ (fresh 4).irqPc ≠ .p2 ∧ (fresh 4).irqPc ≠ .p3 ∧ (fresh 4).irqPc ≠ .t4) ∧
    (Instr.isCommand (.pop .out 5) = true ∧ Instr.chan? (.pop .out 5) = some 5 ∧
      hasHostLabel (.pop .out 5) (at' (fresh 4) .s1 (.pop .out 5)).hostPc = true ∧
      (at' (fresh 4) .s1 (.pop .out 5)).hostPc ≠ .s0 ∧ (fresh 4).cfg.nCh ≤ (5 : ChNum).toNat) ∧
    ((inside (fresh 4) .g3 10).irqPc = .g3 ∧ (inside (fresh 4) .t4 11).irqPc = .t4) ∧
    ((at' { fresh 4 with hostI := 1 } .s2 (.enqOut 0 [1])).hostPc = .s2 ∧ (0 : ChNum).toNat < (fresh 4).cfg.nCh ∧
      [(1 : Byte)].length ≤ (at' { fresh 4 with hostI := 1 } .s2 (.enqOut 0 [1])).hostI) := by decide

theorem witness_StepRunsTheDecodedInstruction :
    let new := { freshEager 4 with words := [0x447F, 0x7000], sched := [.host] }
    let old := at' { fresh 4 with sched := [.host] } .s1 (.enqIn 4 0x7F)
    (new.sched = .host :: [] ∧ new.inHandler = false ∧ new.cmdFault = false ∧ new.grantWaiting = false ∧
      new.hostPc = .idle ∧ decodeCommand new.words = .instr (.enqIn 4 0x7F) [0x7000]) ∧
    (old.sched = .host :: [] ∧ old.inHandler = false ∧ old.cmdFault = false ∧ old.cfg.grantPolicy = .any ∧
      old.hostPc ≠ .idle ∧ old.hostCmd = some (.enqIn 4 0x7F)) ∧
    ((inside { fresh 4 with sched := [.irq] } .g1 8).sched = .irq :: [] ∧ (inside (fresh 4) .g1 8).inHandler = true ∧
      (4 : ChNum).toNat < (fresh 4).cfg.nCh ∧ (inside (fresh 4) .g1 8).curIrq = requestNumber 4 false) ∧
    (inside (fresh 4) .p1 9).curIrq = requestNumber 4 true := by decide

theorem witness_IllegalHeadersAreThoseListed :
    (∃ why, decodeHeader 0x2001 = .error why) ∧ (2 : Byte).toNat ≤ [0x00FF, (0x0100 : Half)].length ∧
      ∃ w ∈ [0x00FF, (0x0100 : Half)].take (2 : Byte).toNat, 256 ≤ w.toNat :=
  ⟨⟨.argSet, by decide⟩, by decide, 0x0100, by decide, by decide⟩

theorem witness_IllegalCommandStopsTheHost_others :
    (∃ t, (busy 4 []).eventStep (.txDone 4) = .next t) ∧ (∃ t, (fresh 4).eventStep (.rxArrive 4 0) = .next t) ∧
    (∃ t, (inside (idle 4 []) .p1 9).eventStep .irq = .next t) ∧
    (∃ f, (inside ((fresh 4).setRing 4 .out { Ring.fresh 0 with occ := 1, tail := 4 }) .p2 9).eventStep .irq = .fault f) ∧
    (∃ r, (idle 4 []).eventStep (.txDone 4) = .refused r) :=
  ⟨⟨_, rfl⟩, ⟨_, rfl⟩, ⟨_, rfl⟩, ⟨_, rfl⟩, ⟨_, rfl⟩⟩

theorem witness_IllegalCommandStopsTheHost :
    let s := { fresh 4 with words := [0x0000, 0x1011], sched := [.host] }
    s.sched = .host :: [] ∧ s.hostPc = .idle ∧ s.inHandler = false ∧ s.cmdFault = false ∧
      s.cfg.grantPolicy = .any ∧ decodeCommand s.words = .illegal .opcode [0x1011] ∧
      ({ s with cmdFault := true } : State).cmdFault = true := by decide

theorem witness_IncompleteCommandHasNotStarted :
    let s := { fresh 4 with words := [0x3102, 0x0041] }
    s.hostPc = .idle ∧ decodeCommand s.words = .incomplete ∧ [(0x0041 : Half)].length < (2 : Byte).toNat := by decide

theorem witness_GrantStartsTheHandler :
    let tx := onChan { fresh 4 with ie := true } 4 fun x => { x with txPending := true }
    let rx := onChan { fresh 4 with ie := true } 4 fun x => { x with rxPending := true }
    (tx.cfg.arbOrder = .any ∧ tx.ie = true ∧ tx.inHandler = false ∧ (4 : ChNum).toNat < tx.cfg.nCh ∧
      (tx.chan 4).txPending = true) ∧
    (rx.ie = true ∧ rx.inHandler = false ∧ (rx.chan 4).rxPending = true) ∧
    ((fresh 4).ie = false ∧ (inside tx .p1 9).inHandler = true ∧ tx.cfg.nCh ≤ (5 : ChNum).toNat ∧
      (rx.chan 4).txPending = false ∧ (tx.chan 4).rxPending = false) := by decide

theorem witness_GrantStartsTheHandler_eager :
    let s := onChan { freshEager 4 with ie := true } 4 fun x => { x with txPending := true }
    s.cfg.arbOrder = .any ∧ s.cfg.grantPolicy = .eager ∧ ∃ r t, s.eventStep (.grant r) = .next t :=
  ⟨rfl, rfl, 9, _, rfl⟩

theorem witness_LowestOrderGrantsTheLowestRequest :
    let s := onChan { fresh 4 with ie := true, cfg := { (fresh 4).cfg with arbOrder := .lowest } } 4
      fun x => { x with txPending := true }
    s.cfg.arbOrder = .lowest ∧ ∃ t, s.eventStep (.grant 9) = .next t := ⟨rfl, _, rfl⟩

theorem witness_RunningHandlerExcludesHostAndGrants :
    (inside (busy 4 []) .p1 9).inHandler = true ∧ (4 : ChNum).toNat < (busy 4 []).cfg.nCh ∧
      ((inside (busy 4 []) .p1 9).chan 4).txe = false := by decide

theorem witness_TxDoneReadiesTheTransmitter :
    ((4 : ChNum).toNat < (busy 4 []).cfg.nCh ∧ ((busy 4 []).chan 4).txe = false ∧ ((idle 4 []).chan 4).txe = true) ∧
    (∃ t, (busy 4 []).eventStep (.txDone 4) = .next t ∧ ((busy 4 []).chan 4).txe = false ∧ (t.chan 4).txe = true) ∧
    (∃ t, (inside (idle 4 []) .p3 9).eventStep .irq = .next t ∧ (t.chan 4).txe = false ∧
      ((inside (idle 4 []) .p3 9).chan 4).txe = true ∧ ((inside (idle 4 []) .p3 9).chan 4).txOverrun = false) :=
  ⟨by decide, ⟨_, rfl, by decide, by decide⟩, ⟨_, rfl, by decide, by decide, by decide⟩⟩

theorem witness_RxArriveDeliversOrOverruns :
    (4 : ChNum).toNat < (fresh 4).cfg.nCh ∧ ((fresh 4).chan 4).rxPending = false ∧
      ((onChan (fresh 4) 4 fun x => { x with rxPending := true }).chan 4).rxPending = true := by decide

theorem witness_ResetEventAbandonsEverything :
    (at' { busy 3 [1, 2] with sched := [.reset] } .s2 (.enqOut 1 [0x44, 0x45])).sched = .reset :: [] := by decide

theorem witness_OperationsKeepToTheirSideOfTheirChannel :
    (∃ t, exec (.enqOut 4 [9]) (at' (idle 4 []) .s2 (.enqOut 4 [9])) = .next t) ∧
    (∃ t, exec (.pump 4) (at' (idle 4 [7]) .p2 (.pump 4)) = .next t) ∧
    (∃ t, exec (.txirq 4) (inside (idle 4 [7]) .p2 9) = .next t) ∧
    (∃ t, exec (.enqIn 4 9) (at' (fresh 4) .s1 (.enqIn 4 9)) = .next t) ∧
    (∃ t, exec (.deqIn 4) (at' (fresh 4) .s1 (.deqIn 4)) = .next t) ∧
    (∃ t, exec (.rxirq 4) (inside (fresh 4) .g1 8) = .next t) ∧
    (∃ t, exec (.push .inp 4 9) (at' (fresh 4) .s1 (.push .inp 4 9)) = .next t) ∧
    (∃ t, exec (.pop .out 4) (at' (idle 4 [7]) .s1 (.pop .out 4)) = .next t) ∧
    (∃ t, exec .ieSet (at' (fresh 4) .s1 .ieSet) = .next t) ∧
    (∃ t, exec .ieClr (at' (fresh 4) .s1 .ieClr) = .next t) ∧
    Instr.chan? (.pump 4) = some 4 ∧ (3 : ChNum) ≠ 4 :=
  ⟨⟨_, rfl⟩, ⟨_, rfl⟩, ⟨_, rfl⟩, ⟨_, rfl⟩, ⟨_, rfl⟩, ⟨_, rfl⟩, ⟨_, rfl⟩, ⟨_, rfl⟩, ⟨_, rfl⟩, ⟨_, rfl⟩, rfl, by decide⟩

theorem witness_OnlyInterruptControlChangesIe :
    ∃ t, (at' (fresh 4) .s1 .ieSet).eventStep .host = .next t ∧ t.ie ≠ (at' (fresh 4) .s1 .ieSet).ie :=
  ⟨_, rfl, by decide⟩

theorem witness_FaultFlagsAreSticky :
    let s := onChan { fresh 4 with cmdFault := true, ie := true } 4
      fun x => { x with txOverrun := true, rxOverrun := true, rxPending := true }
    s.cmdFault = true ∧ (s.chan 4).txOverrun = true ∧ (s.chan 4).rxOverrun = true ∧ Event.grant 8 ≠ .reset ∧
      ∃ t, s.eventStep (.grant 8) = .next t :=
  ⟨by decide, by decide, by decide, by decide, _, rfl⟩

theorem witness_InvariantHoldsAtReset : Params.wf { Params.default with cap := 1, nCh := 8 } = true := by decide

/-- Channel 0 of a core of capacity 4 has sent 0x61 and holds 0x62, its request is pending, and HOST is past the P1 of
the pump of a second `ENQ_OUT`. -/
def midway (p : GrantPolicy) (ie : Bool) : State :=
  at' { onChan ((fresh 4).setRing 0 .out { mem := [(0, 0x61), (1, 0x62)], fill := 0, head := 2, tail := 1, occ := 1 }) 0
      (fun x => { x with txlog := [0x61] }) with
    cfg := { (fresh 4).cfg with grantPolicy := p }, ie := ie,
    hostlog := [(.enqOut 0 [0x61], 0x0000)] } .p2 (.enqOut 0 [0x62])

theorem midway_inv (p : GrantPolicy) (ie : Bool) : (midway p ie).Inv := by
  cases p <;> cases ie <;> decide

theorem midway_steps (p : GrantPolicy) (ie : Bool) : ∃ t, step (midway p ie) = .next t := by
  cases p <;> cases ie <;> exact ⟨_, rfl⟩

theorem witness_EveryStepKeepsTheInvariant :
    (midway .any true).Inv ∧ (∃ t, step (midway .any true) = .next t) ∧ (midway .any true).sched = [] :=
  ⟨midway_inv _ _, midway_steps _ _, rfl⟩

theorem witness_ParametersNeverChange : ∃ t, step (midway .any true) = .next t := midway_steps _ _

theorem witness_InvariantRulesOutEveryStop :
    ((midway .any true).Inv ∧ (midway .any true).sched = []) ∧
    ({ fresh 4 with sched := [.txDone 4] }.Inv ∧
      step { fresh 4 with sched := [.txDone 4] } = .refused .notEnabled) :=
  ⟨⟨midway_inv _ _, rfl⟩, by decide, rfl⟩

theorem witness_NoResponseIsUnexpected :
    (midway .any true).Inv ∧ ∃ t, step (midway .any true) = .next t ∧ t.hostlog ≠ [] :=
  ⟨midway_inv _ _, _, rfl, by decide⟩

theorem witness_EagerGrantsNeverOverrunATransmitter :
    (midway .eager true).cfg.grantPolicy = .eager ∧ (midway .eager true).Inv ∧ (midway .eager true).EagerSafe ∧
      (midway .eager true).hostArmed 0 = true ∧ ∃ t, step (midway .eager true) = .next t :=
  ⟨rfl, midway_inv _ _, by unfold State.EagerSafe State.QuietPump; decide, by decide, midway_steps _ _⟩

theorem witness_EagerKeepsOutputOrder :
    (midway .eager true).cfg.grantPolicy = .eager ∧ (midway .eager true).Inv ∧ (midway .eager true).EagerSafe ∧
      (midway .eager true).OutputOrder 0 ∧ (midway .eager true).outDisciplined 0 = true ∧
      ∃ t, step (midway .eager true) = .next t :=
  ⟨rfl, midway_inv _ _, by unfold State.EagerSafe State.QuietPump; decide, by unfold State.OutputOrder; decide, by decide,
    midway_steps _ _⟩

/-- HOST has popped 0x62 and stands at the P3 of its pump; the handler that was granted there has sent 0x63. -/
def overtaken : State :=
  { onChan (midway .any true) 0 (fun x => { x with
      out := { mem := [(0, 0x61), (1, 0x62), (2, 0x63)], fill := 0, head := 3, tail := 3, occ := 0 },
      txe := false, txData := 0x63, txlog := [0x61, 0x63] }) with
    hostPc := .p3, hostB := 0x62, hostCmd := some (.enqOut 0 [0x62, 0x63]),
    inHandler := true, irqPc := .t4, curIrq := requestNumber 0 true }

theorem witness_AnyPolicyKeepsOutputOrder :
    (overtaken.Inv ∧ overtaken.OrderOrRace 0 ∧ ¬overtaken.OutputOrder 0 ∧ overtaken.nextEvent ≠ some (.txDone 0) ∧
      ∃ t, step overtaken = .next t ∧ (t.chan 0).txOverrun = false) ∧
    ((midway .any true).Inv ∧ (midway .any true).OrderOrRace 0 ∧ (midway .any true).OutputOrder 0 ∧
      ∃ t, step (midway .any true) = .next t ∧ (t.chan 0).txOverrun = false) ∧
    ((midway .any true).Inv ∧ (midway .any true).PumpSafe 0 ∧ (midway .any true).hostArmed 0 = true ∧
      (midway .any true).OutputOrder 0 ∧ (midway .any true).grantsIntoPump 0 = false ∧
      ∃ t, step (midway .any true) = .next t) :=
  ⟨⟨by decide, .inr (by decide), by unfold State.OutputOrder; decide, by decide, _, rfl, by decide⟩,
    ⟨midway_inv _ _, .inl (by unfold State.OutputOrder; decide), by unfold State.OutputOrder; decide, _, rfl, by decide⟩,
    midway_inv _ _, by unfold State.PumpSafe; decide, by decide, by unfold State.OutputOrder; decide, by decide,
    midway_steps _ _⟩

theorem witness_EagerOrNoRequestKeepsPumpsUndisturbed :
    ({ midway .any true with hostPc := .p1 }.Inv ∧ { midway .any true with hostPc := .p1 }.QuietPump 0 ∧
      { midway .any true with hostPc := .p1 }.startsPump 0 = true ∧
      ({ midway .any true with hostPc := .p1 }.chan 0).txPending = false ∧
      ∃ t, step { midway .any true with hostPc := .p1 } = .next t) ∧
    ((midway .eager true).QuietPump 0 ∧ (midway .eager true).cfg.grantPolicy = .eager ∧
      (midway .eager true).hostArmed 0 = true) :=
  ⟨⟨by decide, by unfold State.QuietPump; decide, by decide, by decide, _, rfl⟩,
    by unfold State.QuietPump; decide, rfl, by decide⟩

/-- `RXIRQ(2)` has read the second byte of channel 2, whose first is still held. -/
def arriving2 : State :=
  inside { onChan ((fresh 4).setRing 2 .inp (ringOf 4 0 [0xA1])) 2
    (fun x => { x with rxData := 0xA2, rxlog := [0xA1, 0xA2] }) with irqB := 0xA2 } .g2 4

theorem witness_EveryStepKeepsInputOrder :
    arriving2.Inv ∧ arriving2.InputOrder 2 ∧ arriving2.inDisciplined 2 = true ∧
      (arriving2.chan 2).rxOverrun = false ∧ ∃ t, step arriving2 = .next t :=
  ⟨by decide, by unfold State.InputOrder; decide, by decide, by decide, _, rfl⟩

theorem witness_EveryStepKeepsInputOrder_complete :
    arriving2.Inv ∧ arriving2.InputComplete 2 ∧ arriving2.dropsArrival 2 = false ∧ ∃ t, step arriving2 = .next t :=
  ⟨by decide, by unfold State.InputComplete; decide, by decide, _, rfl⟩

/-- A G2 on a full buffer is a drop. -/
theorem test_dropsArrival :
    (inside ((fresh 1).setRing 2 .inp (ringOf 1 0 [9])) .g2 4).dropsArrival 2 = true := by decide

theorem witness_EveryStepKeepsTheDrainAlive :
    (midway .any true).Inv ∧ (midway .any true).DrainAlive 0 ∧ (midway .any true).noPushOut 0 = true ∧
      0 < ((midway .any true).ring 0 .out).occ ∧ ∃ t, step (midway .any true) = .next t :=
  ⟨midway_inv _ _, by unfold State.DrainAlive; decide, by decide, by decide, midway_steps _ _⟩

theorem witness_QuiescentOutputsAreEmpty :
    { fresh 4 with ie := true }.Inv ∧ { fresh 4 with ie := true }.Quiescent ∧
      { fresh 4 with ie := true }.DrainAlive 4 ∧ (4 : ChNum).toNat < (fresh 4).cfg.nCh ∧ Event.host ≠ .reset ∧
      ∀ c b, Event.host ≠ .rxArrive c b :=
  ⟨by decide, by unfold State.Quiescent; decide, by unfold State.DrainAlive; decide, by decide, by decide,
    by simp⟩

/-- HOST will issue `ws`, and the schedule is `es`. -/
def withRun (s : State) (ws : List Half) (es : List Event) : State := { s with words := ws, sched := es }

theorem witness_EnqOutToAnIdleChannelSendsOneByte :
    let s := withRun (idle 4 [1, 2]) (encodeWords (.enqOut 4 [3, 4]) ++ [0x7000])
      (List.replicate ([3, (4 : Byte)].length + 6) .host ++ [.txDone 4])
    s.Inv ∧ s.hostPc = .idle ∧ s.inHandler = false ∧ s.ie = false ∧ s.cmdFault = false ∧
      (4 : ChNum).toNat < s.cfg.nCh ∧ (s.ring 4 .out).occ + 2 ≤ s.cfg.cap ∧ (s.chan 4).txe = true ∧
      (s.chan 4).txOverrun = false := by decide

theorem witness_EnqOutToABusyChannelOnlyFills :
    let s := withRun (busy 4 [1, 2]) (encodeWords (.enqOut 4 [3, 4]) ++ [0x7000])
      (List.replicate ([3, (4 : Byte)].length + 3) .host ++ [.txDone 4])
    s.Inv ∧ s.hostPc = .idle ∧ s.inHandler = false ∧ s.ie = false ∧ s.cmdFault = false ∧
      (4 : ChNum).toNat < s.cfg.nCh ∧ (s.ring 4 .out).occ + 2 ≤ s.cfg.cap ∧ (s.chan 4).txe = false := by decide

theorem witness_PumpDrainsExactlyTheHeldBytes :
    let s := withRun (idle 4 [1, 2]) ((List.replicate (2 + 1) (encodeWords (.pump 4))).flatten ++ [0x7000])
      ((List.replicate 2 [.host, .host, .host, .host, .txDone 4]).flatten ++ [.host, .host, .host] ++ [.reset])
    s.Inv ∧ s.hostPc = .idle ∧ s.inHandler = false ∧ s.ie = false ∧ s.cmdFault = false ∧
      (4 : ChNum).toNat < s.cfg.nCh ∧ (s.ring 4 .out).occ = 2 ∧ (s.chan 4).txe = true ∧
      (s.chan 4).txOverrun = false := by decide

theorem witness_InterruptsDrainTheHeldBytes :
    let s := withRun { busy 4 [1, 2] with ie := true } []
      ((List.replicate 2 [.txDone 4, .grant (requestNumber 4 true), .irq, .irq, .irq, .irq]).flatten ++ [.reset])
    s.Inv ∧ s.cfg.arbOrder = .any ∧ s.inHandler = false ∧ s.ie = true ∧ (4 : ChNum).toNat < s.cfg.nCh ∧
      (s.ring 4 .out).occ = 2 ∧ (s.chan 4).txe = false ∧ (s.chan 4).txOverrun = false := by decide

theorem witness_ArrivedByteReachesTheInputBuffer :
    let s := withRun { (fresh 4).setRing 4 .inp (ringOf 4 0 [1, 2, 3, 4]) with ie := true } []
      ([.rxArrive 4 9, .grant (requestNumber 4 false), .irq, .irq, .irq] ++ [.reset])
    s.Inv ∧ s.cfg.arbOrder = .any ∧ s.inHandler = false ∧ s.ie = true ∧ (4 : ChNum).toNat < s.cfg.nCh ∧
      (s.chan 4).rxPending = false := by decide

theorem witness_StaleRequestChangesNothingElse :
    let s := withRun { onChan (busy 4 [1]) 4 (fun x => { x with txPending := true }) with ie := true } []
      ([.grant (requestNumber 4 true), .irq, .irq] ++ [.reset])
    s.cfg.arbOrder = .any ∧ s.inHandler = false ∧ s.irqPc = .idle ∧ s.ie = true ∧ (4 : ChNum).toNat < s.cfg.nCh ∧
      (s.chan 4).txPending = true ∧ (s.chan 4).txe = false := by decide

theorem witness_OutputStateMovesAsDescribed :
    ((idle 4 []).chan 4).txe = true ∧
    (∃ t, exec (.enqOut 4 []) (at' (idle 4 []) .s3 (.enqOut 4 [])) = .next t) ∧
    (∃ t, exec (.enqOut 4 []) (at' (idle 4 []) .p3 (.enqOut 4 [])) = .next t) ∧
    ((busy 4 []).armingOf 4 = false ∧ ∃ t, (busy 4 []).eventStep (.txDone 4) = .next t) ∧
    ((inside (idle 4 []) .p2 9).armingOf 4 = false ∧ (inside (idle 4 []) .p2 9).curIrq = requestNumber 4 true ∧
      ((idle 4 []).ring 4 .out).occ = 0 ∧ ((idle 4 []).chan 4).txPending = false ∧
      ∃ t u, (inside (idle 4 []) .p2 9).eventStep .irq = .next t ∧ t.eventStep .irq = .next u) ∧
    ((idle 4 [7]).Inv ∧ (idle 4 [7]).ie = false ∧ (idle 4 [7]).inHandler = false ∧ (idle 4 [7]).outState 4 = .idle ∧
      ∃ t, (idle 4 [7]).eventStep (.rxArrive 4 9) = .next t) ∧
    (let s := at' (idle 4 [7]) .p2 (.pump 4);
      s.Inv ∧ s.ie = false ∧ s.inHandler = false ∧
      ∃ t, s.eventStep .host = .next t ∧ (t.ring 4 .out).occ < (s.ring 4 .out).occ) :=
  ⟨by decide, ⟨_, rfl⟩, ⟨_, rfl⟩, ⟨by decide, _, rfl⟩, ⟨by decide, by decide, by decide, by decide, _, _, rfl, rfl⟩,
    ⟨by decide, by decide, by decide, by decide, _, rfl⟩, by decide, by decide, by decide, _, rfl, by decide⟩

/-- R250: bytes enqueued while busy, then `TX_DONE` with `ie = 0`: the request waits, and the channel sits Idle with them. -/
theorem test_r250_idle_while_requested :
    ∃ t, (busy 4 [7]).eventStep (.txDone 4) = .next t ∧ (t.chan 4).txPending = true ∧ (t.ring 4 .out).occ = 1 ∧
      t.outState 4 = .idle ∧ { t with ie := true }.outState 4 = .draining :=
  ⟨_, rfl, by decide, by decide, by decide, by decide⟩

end Sys2Proof.Tests
end

/-! ## One buffer: what `push` and `pop` answer, and the buffer invariant (R22 to R26, R120, R121) -/

section
namespace Sys2Proof.Machine

theorem ring_push_full {cap : Nat} {F : Ring} (v : Byte) (h : F.occ = cap) : F.push cap v = .ok (.full, F) := by
  simp [Ring.push, h]

theorem ring_push_room {cap : Nat} {F : Ring} (v : Byte) (ho : F.occ ≠ cap) (hh : F.head < cap) :
    F.push cap v = .ok (.none, Ring.pushed cap F v) := by
  simp [Ring.push, slotWrite, Ring.pushed, advance, ho, hh]

theorem ring_pop_empty {cap : Nat} {F : Ring} (h : F.occ = 0) : F.pop cap = .ok (none, F) := by
  simp [Ring.pop, h]

theorem ring_pop_held {cap : Nat} {F : Ring} (ho : F.occ ≠ 0) (ht : F.tail < cap) :
    F.pop cap = .ok (some (F.slot F.tail), Ring.popped cap F) := by
  simp [Ring.pop, slotRead, Ring.popped, advance, ho, ht]

/-- Advancing an index and then going `j` slots on is going `j + 1` slots on. -/
theorem advanced_add_mod (cap x j : Nat) : ((x + 1) % cap + j) % cap = (x + (j + 1)) % cap := by
  rw [Nat.mod_add_mod, Nat.add_right_comm, Nat.add_assoc]

theorem inv_fresh {cap : Nat} (n : Nat) (h : 1 ≤ cap) : Ring.Inv cap (Ring.fresh n) := by
  simp [Ring.Inv, Ring.fresh]
  omega

theorem inv_pushed {cap : Nat} {F : Ring} (v : Byte) (h : Ring.Inv cap F) (ho : F.occ ≠ cap) :
    Ring.Inv cap (Ring.pushed cap F v) := by
  obtain ⟨hocc, hhead, htail, hgap, hwf, hslots, hwritten⟩ := h
  have hcap : 0 < cap := by omega
  refine ⟨?occ, Nat.mod_lt _ hcap, htail, ?gap, wf_write _ v hwf, write_slots_lt v hhead hslots, ?written⟩
  case occ => simp only [Ring.pushed]; omega
  case gap => simp only [Ring.pushed]; rw [← hgap, Nat.mod_add_mod, Nat.add_assoc]
  case written =>
    intro j hj
    simp only [Ring.pushed] at hj ⊢
    rw [read_write]
    split
    · rfl
    · next hother =>
        have hne : j ≠ F.occ := by rintro rfl; exact hother hgap.symm
        exact hwritten j (by omega)

theorem inv_popped {cap : Nat} {F : Ring} (h : Ring.Inv cap F) (ho : F.occ ≠ 0) :
    Ring.Inv cap (Ring.popped cap F) := by
  obtain ⟨hocc, hhead, htail, hgap, hwf, hslots, hwritten⟩ := h
  have hcap : 0 < cap := by omega
  refine ⟨?occ, hhead, Nat.mod_lt _ hcap, ?gap, hwf, hslots, ?written⟩
  case occ => simp only [Ring.popped]; omega
  case gap => simp only [Ring.popped]; rw [advanced_add_mod, Nat.sub_add_cancel (by omega), hgap]
  case written =>
    intro j hj
    simp only [Ring.popped] at hj ⊢
    rw [advanced_add_mod]
    exact hwritten (j + 1) (by omega)

theorem ring_push_keeps_inv {cap : Nat} {F : Ring} (v : Byte) (h : Ring.Inv cap F) :
    ∃ e G, F.push cap v = .ok (e, G) ∧ Ring.Inv cap G := by
  by_cases ho : F.occ = cap
  · exact ⟨_, _, ring_push_full v ho, h⟩
  · obtain ⟨-, hhead, -⟩ := id h
    exact ⟨_, _, ring_push_room v ho hhead, inv_pushed v h ho⟩

theorem ring_pop_keeps_inv {cap : Nat} {F : Ring} (h : Ring.Inv cap F) :
    ∃ r G, F.pop cap = .ok (r, G) ∧ Ring.Inv cap G := by
  by_cases ho : F.occ = 0
  · exact ⟨_, _, ring_pop_empty ho, h⟩
  · obtain ⟨-, -, htail, -⟩ := id h
    exact ⟨_, _, ring_pop_held ho htail, inv_popped h ho⟩

/-- `IDX_W` bits hold every slot number (R7). -/
theorem lt_two_pow_idxW {cap i : Nat} (h : i < cap) : i < 2 ^ Config.idxW cap :=
  calc i < cap := h
    _ ≤ 2 ^ Nat.clog 2 cap := Nat.le_pow_clog (by decide) cap
    _ ≤ 2 ^ Config.idxW cap := Nat.pow_le_pow_right (by decide) (le_max_right 1 _)

/-- `OCC_W` bits hold every occupancy from 0 to `C` (R7). -/
theorem lt_two_pow_occW {cap n : Nat} (h : n ≤ cap) : n < 2 ^ Config.occW cap :=
  calc n < cap + 1 := Nat.lt_succ_of_le h
    _ ≤ 2 ^ Config.occW cap := Nat.le_pow_clog (by decide) (cap + 1)

theorem registers_hold_the_indices {cap : Nat} {F : Ring} (h : Ring.Inv cap F) :
    (F.headReg cap).toNat = F.head ∧ (F.tailReg cap).toNat = F.tail ∧ (F.occReg cap).toNat = F.occ := by
  obtain ⟨hocc, hhead, htail, -⟩ := h
  simp only [Ring.headReg, Ring.tailReg, Ring.occReg, BitVec.toNat_ofNat]
  exact ⟨Nat.mod_eq_of_lt (lt_two_pow_idxW hhead), Nat.mod_eq_of_lt (lt_two_pow_idxW htail),
    Nat.mod_eq_of_lt (lt_two_pow_occW hocc)⟩

/-- Settles O9: a full or an empty buffer is left as it is, and otherwise the invariant of `Ring.pushed` and
`Ring.popped` is index arithmetic modulo `C`. -/
theorem bufferInvariantIsKept : Obligations.BufferInvariantIsKept :=
  ⟨fun _ n h => inv_fresh n h, fun _ _ v h => ring_push_keeps_inv v h, fun _ _ h => ring_pop_keeps_inv h,
    fun _ _ h => registers_hold_the_indices h⟩

end Sys2Proof.Machine
end

/-! ## A running handler: HOST's and the arbiter's guards, and the environment's (R9, R213, R219, R225, R226) -/

section
namespace Sys2Proof.Machine

theorem validCh_iff (s : State) (c : ChNum) : s.validCh c = true ↔ c.toNat < s.cfg.nCh := by
  simp [State.validCh]

theorem hostEnabled_of_inHandler {s : State} (h : s.inHandler = true) : s.hostEnabled = false := by
  simp [State.hostEnabled, h]

theorem canGrant_of_inHandler {s : State} (r : IrqNum) (h : s.inHandler = true) : s.canGrant r = false := by
  simp [State.canGrant, h]

theorem hostStep_disabled {s : State} (h : s.hostEnabled = false) : s.hostStep = .refused .notEnabled := by
  simp [State.hostStep, h]

theorem grant_disabled {s : State} {r : IrqNum} (h : s.canGrant r = false) : s.grant r = .refused .notEnabled := by
  simp [State.grant, h]

theorem rxArrive_valid {s : State} {c : ChNum} (b : Byte) (h : s.validCh c = true) :
    s.rxArrive c b = .next (s.arrive c b) := by
  simp [State.rxArrive, h]

theorem txDone_busy {s : State} {c : ChNum} (h : s.validCh c = true) (hb : (s.chan c).txe = false) :
    s.txDone c = .next (s.setChan c { s.chan c with txe := true, txPending := true }) := by
  simp [State.txDone, h, hb]

/-- Settles O31: `in_handler` falsifies the guards of HOST and of every grant and stands in no guard of the UART's. -/
theorem runningHandlerExcludesHostAndGrants : Obligations.RunningHandlerExcludesHostAndGrants := by
  intro s hrun
  refine ⟨hostStep_disabled (hostEnabled_of_inHandler hrun), fun r => grant_disabled (canGrant_of_inHandler r hrun),
    fun c b hc => ?_, fun c hc hbusy => ?_⟩
  · exact ⟨_, rxArrive_valid b ((validCh_iff s c).mpr hc)⟩
  · exact ⟨_, txDone_busy ((validCh_iff s c).mpr hc) hbusy⟩

end Sys2Proof.Machine
end

/-! ## What the remaining shared operations can lead to, beside those of Laws/Ops -/

section
namespace Sys2Proof.Machine

/-- Everything a micro-step of HOST's pump can lead to (R145, R170). -/
theorem hostPump_next {s t : State} {i : Instr} {c : ChNum} {ret : ErrVal → ErrVal} {pc : PumpPc}
    (h : s.hostPump i c ret pc = .next t) :
    (pc = .p1 ∧ (s.chan c).txe = true ∧ t = { s with hostT := true, hostPc := .p2 }) ∨
    (pc = .p1 ∧ (s.chan c).txe = false ∧ t = s.respond i (ret .hardwareNotReady) 0) ∨
    (pc = .p2 ∧ (s.ring c .out).occ = 0 ∧ t = s.respond i (ret .empty) 0) ∨
    (pc = .p2 ∧ (s.ring c .out).occ ≠ 0 ∧ (s.ring c .out).tail < s.cfg.cap ∧
      t = { s.setRing c .out (Ring.popped s.cfg.cap (s.ring c .out)) with
        hostPc := .p3, hostB := (s.ring c .out).slot (s.ring c .out).tail }) ∨
    (pc = .p3 ∧ t = (s.writeTxData c s.hostB).respond i (ret .none) 0) := by
  cases pc with
  | p1 =>
    cases hx : (s.chan c).txe <;>
      simpa [State.hostPump, State.pumpStep, State.readTxe, hx] using h.symm
  | p2 =>
    rcases pumpStep_p2_cases s c s.hostB with ⟨f, -, hp⟩ | ⟨ho, hp⟩ | ⟨ho, ht, hp⟩
    · simp [State.hostPump, hp] at h
    · simpa [State.hostPump, hp, ho] using h.symm
    · simpa [State.hostPump, hp, ho, ht, Ring.popped, advance] using h.symm
  | p3 => simpa [State.hostPump, State.pumpStep] using h.symm

/-- Everything a micro-step of a handler's pump can lead to (R171). -/
theorem irqPump_next {s t : State} {c : ChNum} {pc : PumpPc} (h : s.irqPump c pc = .next t) :
    (pc = .p1 ∧ (s.chan c).txe = true ∧ t = { s with irqT := true, irqPc := .p2 }) ∨
    (pc = .p1 ∧ (s.chan c).txe = false ∧ t = { s with irqT := false, irqPc := .t4 }) ∨
    (pc = .p2 ∧ (s.ring c .out).occ = 0 ∧ t = { s with irqPc := .t4 }) ∨
    (pc = .p2 ∧ (s.ring c .out).occ ≠ 0 ∧ (s.ring c .out).tail < s.cfg.cap ∧
      t = { s.setRing c .out (Ring.popped s.cfg.cap (s.ring c .out)) with
        irqPc := .p3, irqB := (s.ring c .out).slot (s.ring c .out).tail }) ∨
    (pc = .p3 ∧ t = { s.writeTxData c s.irqB with irqPc := .t4 }) := by
  cases pc with
  | p1 =>
    cases hx : (s.chan c).txe <;>
      simpa [State.irqPump, State.pumpStep, State.readTxe, hx] using h.symm
  | p2 =>
    rcases pumpStep_p2_cases s c s.irqB with ⟨f, -, hp⟩ | ⟨ho, hp⟩ | ⟨ho, ht, hp⟩
    · simp [State.irqPump, hp] at h
    · simpa [State.irqPump, hp, ho] using h.symm
    · simpa [State.irqPump, hp, ho, ht, Ring.popped, advance] using h.symm
  | p3 => simpa [State.irqPump, State.pumpStep] using h.symm

/-- Everything the pre-check can lead to (R142, R146). -/
theorem preCheck_next {s t : State} {c : ChNum} {p : List Byte} (h : s.preCheck c p = .next t) :
    ((s.ring c .out).room s.cfg.cap < p.length ∧ t = s.respond (.enqOut c p) .full 0) ∨
    (p.length ≤ (s.ring c .out).room s.cfg.cap ∧
      t = { s with hostOcc := (s.ring c .out).occ, hostI := 0, hostPc := if p.isEmpty then .s3 else .s2 }) := by
  unfold State.preCheck at h
  dsimp only at h
  split at h
  · next hfull => exact .inl ⟨hfull, (Host.Outcome.next.inj h).symm⟩
  · next hroom => exact .inr ⟨Nat.le_of_not_lt hroom, (Host.Outcome.next.inj h).symm⟩

/-- Everything one push of the fill can lead to (R143). -/
theorem fillStep_next {s t : State} {c : ChNum} {p : List Byte} (h : s.fillStep c p = .next t) :
    ∃ v, p[s.hostI]? = some v ∧
      (((s.ring c .out).occ = s.cfg.cap ∧ t = s.respond (.enqOut c p) .unexpectedFull 0) ∨
       ((s.ring c .out).occ ≠ s.cfg.cap ∧ (s.ring c .out).head < s.cfg.cap ∧
         t = { s.setRing c .out (Ring.pushed s.cfg.cap (s.ring c .out) v) with
           hostI := s.hostI + 1, hostPc := if s.hostI + 1 < p.length then .s2 else .s3 })) := by
  unfold State.fillStep at h
  split at h
  · cases h
  · next v hv =>
      refine ⟨v, hv, ?_⟩
      split at h
      · cases h
      · next u hp =>
          rcases pushRing_cases hp with ⟨he, -⟩ | ⟨-, ho, hh, rfl⟩
          · cases he
          · exact .inr ⟨ho, hh, (Host.Outcome.next.inj h).symm⟩
      · next e u hne hp =>
          rcases pushRing_cases hp with ⟨-, ho, rfl⟩ | ⟨he, -⟩
          · exact .inl ⟨ho, (Host.Outcome.next.inj h).symm⟩
          · exact absurd he hne

/-- Everything the read of the flag can lead to (R144). -/
theorem armCheck_next {s t : State} {c : ChNum} {p : List Byte} (h : s.armCheck c p = .next t) :
    ((s.chan c).txe = true ∧ t = { s with hostT := true, hostPc := .p1 }) ∨
    ((s.chan c).txe = false ∧ t = s.respond (.enqOut c p) .none 0) := by
  unfold State.armCheck State.readTxe at h
  split at h
  · next hready => exact .inl ⟨hready, (Host.Outcome.next.inj h).symm⟩
  · next hbusy => exact .inr ⟨Bool.eq_false_of_not_eq_true hbusy, (Host.Outcome.next.inj h).symm⟩

/-- Everything G2 of `RXIRQ` can lead to (R157, R158). -/
theorem storeArrival_next {s t : State} {c : ChNum} (h : s.storeArrival c = .next t) :
    ((s.ring c .inp).occ = s.cfg.cap ∧ t = { s with irqPc := .g3 }) ∨
    ((s.ring c .inp).occ ≠ s.cfg.cap ∧ (s.ring c .inp).head < s.cfg.cap ∧
      t = { s.setRing c .inp (Ring.pushed s.cfg.cap (s.ring c .inp) s.irqB) with irqPc := .g3 }) := by
  unfold State.storeArrival at h
  split at h
  · cases h
  · next e u hp =>
      rcases pushRing_cases hp with ⟨-, ho, rfl⟩ | ⟨-, ho, hh, rfl⟩
      · exact .inl ⟨ho, (Host.Outcome.next.inj h).symm⟩
      · exact .inr ⟨ho, hh, (Host.Outcome.next.inj h).symm⟩

/-! ### Every micro-step of every operation -/

/-- HOST's label of a micro-step of the pump. -/
def PumpPc.hostLabel : PumpPc → HostPc
  | .p1 => .p1
  | .p2 => .p2
  | .p3 => .p3

/-- The handler's label of a micro-step of the pump. -/
def PumpPc.irqLabel : PumpPc → IrqPc
  | .p1 => .p1
  | .p2 => .p2
  | .p3 => .p3

/-- The label after S0 of a command that takes a channel. -/
def afterCheck : Instr → HostPc
  | .pump _ => .p1
  | _ => .s1

/-- The micro-steps of the operations, one constructor for each shared operation of the model at each place that
calls it. `exec_microStep` ties it to the model: `exec` takes no other step. -/
inductive MicroStep (s t : State) : Instr → Prop
  | check {i : Instr} {c : ChNum} (hchan : i.chan? = some c) (hcmd : i.isCommand = true) (hpc : s.hostPc = .s0)
      (h : s.checkChannel i c (afterCheck i) = .next t) : MicroStep s t i
  | push {d : Dir} {c : ChNum} {v : Byte} (hpc : s.hostPc = .s1) (hch : s.validCh c = true)
      (h : s.pushAndRespond (.push d c v) c d v = .next t) : MicroStep s t (.push d c v)
  | pop {d : Dir} {c : ChNum} (hpc : s.hostPc = .s1) (hch : s.validCh c = true)
      (h : s.popAndRespond (.pop d c) c d = .next t) : MicroStep s t (.pop d c)
  | enqIn {c : ChNum} {v : Byte} (hpc : s.hostPc = .s1) (hch : s.validCh c = true)
      (h : s.pushAndRespond (.enqIn c v) c .inp v = .next t) : MicroStep s t (.enqIn c v)
  | deqIn {c : ChNum} (hpc : s.hostPc = .s1) (hch : s.validCh c = true)
      (h : s.popAndRespond (.deqIn c) c .inp = .next t) : MicroStep s t (.deqIn c)
  | preCheck {c : ChNum} {p : List Byte} (hpc : s.hostPc = .s1) (hch : s.validCh c = true)
      (h : s.preCheck c p = .next t) : MicroStep s t (.enqOut c p)
  | fill {c : ChNum} {p : List Byte} (hpc : s.hostPc = .s2) (hch : s.validCh c = true)
      (h : s.fillStep c p = .next t) : MicroStep s t (.enqOut c p)
  | armCheck {c : ChNum} {p : List Byte} (hpc : s.hostPc = .s3) (hch : s.validCh c = true)
      (h : s.armCheck c p = .next t) : MicroStep s t (.enqOut c p)
  | enqOutPump {c : ChNum} {p : List Byte} (pc : PumpPc) (hpc : s.hostPc = pc.hostLabel) (hch : s.validCh c = true)
      (h : s.hostPump (.enqOut c p) c (fun _ => .none) pc = .next t) : MicroStep s t (.enqOut c p)
  | pump {c : ChNum} (pc : PumpPc) (hpc : s.hostPc = pc.hostLabel) (hch : s.validCh c = true)
      (h : s.hostPump (.pump c) c id pc = .next t) : MicroStep s t (.pump c)
  | ieSet (hpc : s.hostPc = .s1) (h : t = State.respond { s with ie := true } .ieSet .none 0) : MicroStep s t .ieSet
  | ieClr (hpc : s.hostPc = .s1) (h : t = State.respond { s with ie := false } .ieClr .none 0) : MicroStep s t .ieClr
  | take {c : ChNum} (hpc : s.irqPc = .g1) (hch : s.validCh c = true)
      (h : s.takeArrival c = .next t) : MicroStep s t (.rxirq c)
  | store {c : ChNum} (hpc : s.irqPc = .g2) (hch : s.validCh c = true)
      (h : s.storeArrival c = .next t) : MicroStep s t (.rxirq c)
  | leaveRx {c : ChNum} (hpc : s.irqPc = .g3) (hch : s.validCh c = true) (h : t = s.leaveHandler) :
      MicroStep s t (.rxirq c)
  | txPump {c : ChNum} (pc : PumpPc) (hpc : s.irqPc = pc.irqLabel) (hch : s.validCh c = true)
      (h : s.irqPump c pc = .next t) : MicroStep s t (.txirq c)
  | leaveTx {c : ChNum} (hpc : s.irqPc = .t4) (hch : s.validCh c = true) (h : t = s.leaveHandler) :
      MicroStep s t (.txirq c)

/-- Everything an operation can do: the inversion lemma of `exec`. -/
theorem exec_microStep {s t : State} {i : Instr} (h : exec i s = .next t) : MicroStep s t i := by
  cases i with
  | push d c v =>
    simp only [exec, execPush] at h
    split at h
    · next hpc => exact .check rfl rfl hpc h
    · next hpc => obtain ⟨hch, h⟩ := onChannel_next h; exact .push hpc hch h
    · cases h
  | pop d c =>
    simp only [exec, execPop] at h
    split at h
    · next hpc => exact .check rfl rfl hpc h
    · next hpc => obtain ⟨hch, h⟩ := onChannel_next h; exact .pop hpc hch h
    · cases h
  | enqOut c p =>
    simp only [exec, execEnqOut] at h
    split at h
    · next hpc => exact .check rfl rfl hpc h
    · next hpc => obtain ⟨hch, h⟩ := onChannel_next h; exact .preCheck hpc hch h
    · next hpc => obtain ⟨hch, h⟩ := onChannel_next h; exact .fill hpc hch h
    · next hpc => obtain ⟨hch, h⟩ := onChannel_next h; exact .armCheck hpc hch h
    · next hpc => obtain ⟨hch, h⟩ := onChannel_next h; exact .enqOutPump .p1 hpc hch h
    · next hpc => obtain ⟨hch, h⟩ := onChannel_next h; exact .enqOutPump .p2 hpc hch h
    · next hpc => obtain ⟨hch, h⟩ := onChannel_next h; exact .enqOutPump .p3 hpc hch h
    · cases h
  | enqIn c v =>
    simp only [exec, execEnqIn] at h
    split at h
    · next hpc => exact .check rfl rfl hpc h
    · next hpc => obtain ⟨hch, h⟩ := onChannel_next h; exact .enqIn hpc hch h
    · cases h
  | deqIn c =>
    simp only [exec, execDeqIn] at h
    split at h
    · next hpc => exact .check rfl rfl hpc h
    · next hpc => obtain ⟨hch, h⟩ := onChannel_next h; exact .deqIn hpc hch h
    · cases h
  | pump c =>
    simp only [exec, execPump] at h
    split at h
    · next hpc => exact .check rfl rfl hpc h
    · next hpc => obtain ⟨hch, h⟩ := onChannel_next h; exact .pump .p1 hpc hch h
    · next hpc => obtain ⟨hch, h⟩ := onChannel_next h; exact .pump .p2 hpc hch h
    · next hpc => obtain ⟨hch, h⟩ := onChannel_next h; exact .pump .p3 hpc hch h
    · cases h
  | ieSet =>
    simp only [exec, execIeSet] at h
    split at h
    · next hpc => exact .ieSet hpc (Host.Outcome.next.inj h).symm
    · cases h
  | ieClr =>
    simp only [exec, execIeClr] at h
    split at h
    · next hpc => exact .ieClr hpc (Host.Outcome.next.inj h).symm
    · cases h
  | rxirq c =>
    simp only [exec, execRxirq] at h
    split at h
    · next hpc => obtain ⟨hch, h⟩ := onChannel_next h; exact .take hpc hch h
    · next hpc => obtain ⟨hch, h⟩ := onChannel_next h; exact .store hpc hch h
    · next hpc => obtain ⟨hch, h⟩ := onChannel_next h; exact .leaveRx hpc hch (Host.Outcome.next.inj h).symm
    · cases h
  | txirq c =>
    simp only [exec, execTxirq] at h
    split at h
    · next hpc => obtain ⟨hch, h⟩ := onChannel_next h; exact .txPump .p1 hpc hch h
    · next hpc => obtain ⟨hch, h⟩ := onChannel_next h; exact .txPump .p2 hpc hch h
    · next hpc => obtain ⟨hch, h⟩ := onChannel_next h; exact .txPump .p3 hpc hch h
    · next hpc => obtain ⟨hch, h⟩ := onChannel_next h; exact .leaveTx hpc hch (Host.Outcome.next.inj h).symm
    · cases h

end Sys2Proof.Machine
end

/-! ## The parameters stay through every step (R7, R29) -/

section
namespace Sys2Proof.Machine

@[simp] theorem writeTxData_cfg (s : State) (c : ChNum) (v : Byte) : (s.writeTxData c v).cfg = s.cfg := by
  rcases writeTxData_cases s c v with ⟨-, -, hw⟩ | ⟨-, hw⟩ <;> simp [hw]

@[simp] theorem arrive_cfg (s : State) (c : ChNum) (b : Byte) : (s.arrive c b).cfg = s.cfg := by
  unfold State.arrive
  dsimp only
  split <;> rfl

theorem checkChannel_cfg {s t : State} {i : Instr} {c : ChNum} {pc : HostPc} (h : s.checkChannel i c pc = .next t) :
    t.cfg = s.cfg := by
  rcases checkChannel_cases s i c pc with ⟨-, hc⟩ | ⟨-, hc⟩ <;>
    · obtain rfl := Host.Outcome.next.inj (hc.symm.trans h); rfl

theorem pushAndRespond_cfg {s t : State} {i : Instr} {c : ChNum} {d : Dir} {v : Byte}
    (h : s.pushAndRespond i c d v = .next t) : t.cfg = s.cfg := by
  rcases pushAndRespond_next h with ⟨-, rfl⟩ | ⟨-, -, rfl⟩ <;> simp

theorem popAndRespond_cfg {s t : State} {i : Instr} {c : ChNum} {d : Dir} (h : s.popAndRespond i c d = .next t) :
    t.cfg = s.cfg := by
  rcases popAndRespond_next h with ⟨-, rfl⟩ | ⟨-, -, rfl⟩ <;> simp

theorem preCheck_cfg {s t : State} {c : ChNum} {p : List Byte} (h : s.preCheck c p = .next t) : t.cfg = s.cfg := by
  rcases preCheck_next h with ⟨-, rfl⟩ | ⟨-, rfl⟩ <;> simp

theorem fillStep_cfg {s t : State} {c : ChNum} {p : List Byte} (h : s.fillStep c p = .next t) : t.cfg = s.cfg := by
  obtain ⟨v, -, ⟨-, rfl⟩ | ⟨-, -, rfl⟩⟩ := fillStep_next h <;> simp

theorem armCheck_cfg {s t : State} {c : ChNum} {p : List Byte} (h : s.armCheck c p = .next t) : t.cfg = s.cfg := by
  rcases armCheck_next h with ⟨-, rfl⟩ | ⟨-, rfl⟩ <;> simp

theorem hostPump_cfg {s t : State} {i : Instr} {c : ChNum} {ret : ErrVal → ErrVal} {pc : PumpPc}
    (h : s.hostPump i c ret pc = .next t) : t.cfg = s.cfg := by
  rcases hostPump_next h with ⟨-, -, rfl⟩ | ⟨-, -, rfl⟩ | ⟨-, -, rfl⟩ | ⟨-, -, -, rfl⟩ | ⟨-, rfl⟩ <;> simp

theorem irqPump_cfg {s t : State} {c : ChNum} {pc : PumpPc} (h : s.irqPump c pc = .next t) : t.cfg = s.cfg := by
  rcases irqPump_next h with ⟨-, -, rfl⟩ | ⟨-, -, rfl⟩ | ⟨-, -, rfl⟩ | ⟨-, -, -, rfl⟩ | ⟨-, rfl⟩ <;> simp

theorem takeArrival_cfg {s t : State} {c : ChNum} (h : s.takeArrival c = .next t) : t.cfg = s.cfg := by
  obtain rfl := Host.Outcome.next.inj h
  simp [State.readRxData]

theorem storeArrival_cfg {s t : State} {c : ChNum} (h : s.storeArrival c = .next t) : t.cfg = s.cfg := by
  rcases storeArrival_next h with ⟨-, rfl⟩ | ⟨-, -, rfl⟩ <;> simp

theorem microStep_cfg {s t : State} {i : Instr} (hstep : MicroStep s t i) : t.cfg = s.cfg := by
  cases hstep with
  | check _ _ _ h => exact checkChannel_cfg h
  | push _ _ h => exact pushAndRespond_cfg h
  | pop _ _ h => exact popAndRespond_cfg h
  | enqIn _ _ h => exact pushAndRespond_cfg h
  | deqIn _ _ h => exact popAndRespond_cfg h
  | preCheck _ _ h => exact preCheck_cfg h
  | fill _ _ h => exact fillStep_cfg h
  | armCheck _ _ h => exact armCheck_cfg h
  | enqOutPump _ _ _ h => exact hostPump_cfg h
  | pump _ _ _ h => exact hostPump_cfg h
  | ieSet _ h => subst h; rfl
  | ieClr _ h => subst h; rfl
  | take _ _ h => exact takeArrival_cfg h
  | store _ _ h => exact storeArrival_cfg h
  | leaveRx _ _ h => subst h; rfl
  | txPump _ _ _ h => exact irqPump_cfg h
  | leaveTx _ _ h => subst h; rfl

theorem exec_cfg {s t : State} {i : Instr} (h : exec i s = .next t) : t.cfg = s.cfg :=
  microStep_cfg (exec_microStep h)

theorem hostStep_cfg {s t : State} (h : s.hostStep = .next t) : t.cfg = s.cfg := by
  obtain ⟨-, ⟨-, why, rest, -, rfl⟩ | ⟨-, i, rest, -, h⟩ | ⟨-, i, -, h⟩⟩ := hostStep_cases h
  · rfl
  · exact (exec_cfg h).trans (accept_cfg s i rest)
  · exact exec_cfg h

theorem irqStep_cfg {s t : State} (h : s.irqStep = .next t) : t.cfg = s.cfg := by
  obtain ⟨-, -, h⟩ := irqStep_cases h
  exact exec_cfg h

theorem eventStep_cfg {s t : State} {e : Event} (h : s.eventStep e = .next t) : t.cfg = s.cfg := by
  cases e with
  | host => exact hostStep_cfg h
  | irq => exact irqStep_cfg h
  | grant r => obtain ⟨-, rfl⟩ := grant_next h; exact enterHandler_cfg s r
  | txDone c => obtain ⟨-, -, rfl⟩ := txDone_next h; rfl
  | rxArrive c b => obtain ⟨-, rfl⟩ := rxArrive_next h; exact arrive_cfg s c b
  | reset => obtain rfl := Host.Outcome.next.inj h; rfl

/-- Settles O39: the step of the schedule's first entry or of the machine's own choice keeps the parameters, because
every event does. -/
theorem parametersNeverChange : Obligations.ParametersNeverChange := by
  intro s t h
  rcases step_cases h with ⟨e, es, -, he⟩ | ⟨-, e, -, he⟩ | ⟨-, -, rfl⟩
  · exact eventStep_cfg (s := { s with sched := es }) he
  · exact eventStep_cfg he
  · rfl

end Sys2Proof.Machine
end

/-! ## The held bytes of a buffer under `push` and `pop` (R26, R127) -/

section
namespace Sys2Proof.Machine

theorem held_length (cap : Nat) (F : Ring) : (Ring.held cap F).length = F.occ := by
  simp [Ring.held]

theorem held_eq_nil_iff (cap : Nat) (F : Ring) : Ring.held cap F = [] ↔ F.occ = 0 := by
  rw [← List.length_eq_zero_iff, held_length]

/-- Fewer than `C` slots on from an index is another slot. -/
theorem add_mod_ne_of_lt {cap x i j : Nat} (hij : i < j) (hj : j < cap) : (x + i) % cap ≠ (x + j) % cap := by
  intro h
  have hmod : i % cap = j % cap := Nat.ModEq.add_left_cancel' x h
  rw [Nat.mod_eq_of_lt hj, Nat.mod_eq_of_lt (by omega)] at hmod
  omega

/-- The slot at `head` is past the last held one, so a push writes no held slot. -/
theorem held_pushed {cap : Nat} {F : Ring} (v : Byte) (h : Ring.Inv cap F) (ho : F.occ ≠ cap) :
    Ring.held cap (Ring.pushed cap F v) = Ring.held cap F ++ [v] := by
  obtain ⟨hocc, -, -, hgap, -⟩ := h
  have hlast : (Ring.pushed cap F v).slot ((F.tail + F.occ) % cap) = v := by simp [hgap]
  have hrest : ∀ j ∈ List.range F.occ,
      (Ring.pushed cap F v).slot ((F.tail + j) % cap) = F.slot ((F.tail + j) % cap) := by
    intro j hj
    have hne := add_mod_ne_of_lt (x := F.tail) (List.mem_range.mp hj) (show F.occ < cap by omega)
    rw [slot_pushed, if_neg (hgap ▸ hne)]
  calc Ring.held cap (Ring.pushed cap F v)
      = (List.range (F.occ + 1)).map fun j => (Ring.pushed cap F v).slot ((F.tail + j) % cap) := rfl
    _ = Ring.held cap F ++ [v] := by
        rw [List.range_succ, List.map_append, List.map_congr_left hrest, List.map_singleton, hlast, Ring.held]

/-- A pop takes the oldest held byte, the one at `tail`. -/
theorem held_popped {cap : Nat} {F : Ring} (ho : F.occ ≠ 0) (ht : F.tail < cap) :
    Ring.held cap F = F.slot F.tail :: Ring.held cap (Ring.popped cap F) := by
  obtain ⟨n, hn⟩ := Nat.exists_eq_succ_of_ne_zero ho
  have hpopped : Ring.held cap (Ring.popped cap F) = (List.range n).map fun j => F.slot ((F.tail + (j + 1)) % cap) := by
    simp only [Ring.held, slot_popped]
    simp only [Ring.popped, hn, Nat.succ_sub_one, advanced_add_mod]
  rw [hpopped, Ring.held, hn, List.range_succ_eq_map, List.map_cons, List.map_map, Nat.add_zero, Nat.mod_eq_of_lt ht]
  rfl

/-- Settles O10: the four cases are those of `push` and `pop`, told apart by `occ`, the length of the held sequence. -/
theorem heldBytesFollowFifoOrder : Obligations.HeldBytesFollowFifoOrder := by
  intro cap F hinv
  obtain ⟨-, hhead, htail, -⟩ := id hinv
  refine ⟨held_length cap F, fun v hroom => ?push, fun v => ring_push_full v, fun b bs hheld => ?pop,
    fun hnil => ring_pop_empty ((held_eq_nil_iff cap F).mp hnil)⟩
  case push => exact ⟨_, ring_push_room v hroom.ne hhead, held_pushed v hinv hroom.ne⟩
  case pop =>
    have ho : F.occ ≠ 0 := by simp [← held_length cap F, hheld]
    obtain ⟨rfl, rfl⟩ := List.cons_eq_cons.mp ((held_popped ho htail).symm.trans hheld)
    exact ⟨_, ring_pop_held ho htail, rfl⟩

end Sys2Proof.Machine
end

/-! ## What a micro-step changes: the channel it acts on, and the sequencer of its agent (R50, R37) -/

section
namespace Sys2Proof.Machine

/-! ### The channel -/

/-- The buffers an operation pushes into (R50). -/
def pushesInto : Instr → Dir → Bool
  | .push d _ _, d' => d == d'
  | .enqOut _ _, d' => d' == .out
  | .enqIn _ _, d' => d' == .inp
  | .rxirq _, d' => d' == .inp
  | _, _ => false

/-- The buffers an operation pops from (R50). -/
def popsFrom : Instr → Dir → Bool
  | .pop d _, d' => d == d'
  | .enqOut _ _, d' => d' == .out
  | .pump _, d' => d' == .out
  | .txirq _, d' => d' == .out
  | .deqIn _, d' => d' == .inp
  | _, _ => false

/-- The operations that write `tx_data` (R50). -/
def transmits : Instr → Bool
  | .enqOut _ _ => true
  | .pump _ => true
  | .txirq _ => true
  | _ => false

/-- What a micro-step of operation `i` can make of the channel `x` it acts on. -/
inductive ChanMove (cap : Nat) (i : Instr) (x : Chan) : Chan → Prop
  | pushed (d : Dir) (v : Byte) (hpush : pushesInto i d = true) (hroom : (x.ring d).occ ≠ cap) :
      ChanMove cap i x (x.setRing d (Ring.pushed cap (x.ring d) v))
  | popped (d : Dir) (hpop : popsFrom i d = true) (hheld : (x.ring d).occ ≠ 0) :
      ChanMove cap i x (x.setRing d (Ring.popped cap (x.ring d)))
  | sent (v : Byte) (htx : transmits i = true) (hready : x.txe = true) (hover : x.txOverrun = false) :
      ChanMove cap i x { x with txData := v, txe := false, txlog := x.txlog ++ [v] }
  | overrun (v : Byte) (l : List Byte) (htx : transmits i = true) (hbad : x.txe = false ∨ x.txOverrun = true) :
      ChanMove cap i x { x with txData := v, txlog := l, txe := false, txOverrun := true }
  | taken (c : ChNum) (hi : i = .rxirq c) : ChanMove cap i x { x with rxPending := false }

/-- On every channel operation `i` does nothing, unless it names the channel. -/
def MovesChans (s t : State) (i : Instr) : Prop :=
  ∀ c, t.chan c = s.chan c ∨ (i.chan? = some c ∧ ChanMove s.cfg.cap i (s.chan c) (t.chan c))

theorem movesChans_of_eq {s t : State} {i : Instr} (h : t.chans = s.chans) : MovesChans s t i :=
  fun c => .inl (chan_congr h c)

theorem movesChans_of_setChan {s t : State} {i : Instr} {c : ChNum} {x : Chan} (h : t.chans = (s.setChan c x).chans)
    (hc : i.chan? = some c) (hx : ChanMove s.cfg.cap i (s.chan c) x) : MovesChans s t i := by
  intro c'
  have heq : t.chan c' = if c = c' then x else s.chan c' := (chan_congr h c').trans (chan_setChan s c c' x)
  by_cases hcc : c = c'
  · subst hcc
    rw [if_pos rfl] at heq
    exact .inr ⟨hc, heq ▸ hx⟩
  · exact .inl (heq.trans (if_neg hcc))

theorem movesChans_of_pushed {s t : State} {i : Instr} {c : ChNum} {d : Dir} {v : Byte}
    (h : t.chans = (s.setRing c d (Ring.pushed s.cfg.cap (s.ring c d) v)).chans) (hc : i.chan? = some c)
    (hpush : pushesInto i d = true) (hroom : (s.ring c d).occ ≠ s.cfg.cap) : MovesChans s t i :=
  movesChans_of_setChan h hc (.pushed d v hpush hroom)

theorem movesChans_of_popped {s t : State} {i : Instr} {c : ChNum} {d : Dir}
    (h : t.chans = (s.setRing c d (Ring.popped s.cfg.cap (s.ring c d))).chans) (hc : i.chan? = some c)
    (hpop : popsFrom i d = true) (hheld : (s.ring c d).occ ≠ 0) : MovesChans s t i :=
  movesChans_of_setChan h hc (.popped d hpop hheld)

theorem movesChans_of_writeTxData {s t : State} {i : Instr} {c : ChNum} {v : Byte}
    (h : t.chans = (s.writeTxData c v).chans) (hc : i.chan? = some c) (htx : transmits i = true) :
    MovesChans s t i := by
  rcases writeTxData_cases s c v with ⟨hready, hover, hw⟩ | ⟨hbad, hw⟩
  · rw [hw] at h
    exact movesChans_of_setChan h hc (.sent v htx hready hover)
  · rw [hw] at h
    exact movesChans_of_setChan h hc (.overrun _ _ htx hbad)

theorem hostPump_movesChans {s t : State} {i : Instr} {c : ChNum} {ret : ErrVal → ErrVal} {pc : PumpPc}
    (h : s.hostPump i c ret pc = .next t) (hc : i.chan? = some c) (hpop : popsFrom i .out = true)
    (htx : transmits i = true) : MovesChans s t i := by
  rcases hostPump_next h with ⟨-, -, rfl⟩ | ⟨-, -, rfl⟩ | ⟨-, -, rfl⟩ | ⟨-, ho, -, rfl⟩ | ⟨-, rfl⟩
  · exact movesChans_of_eq rfl
  · exact movesChans_of_eq rfl
  · exact movesChans_of_eq rfl
  · exact movesChans_of_popped rfl hc hpop ho
  · exact movesChans_of_writeTxData rfl hc htx

theorem irqPump_movesChans {s t : State} {c : ChNum} {pc : PumpPc} (h : s.irqPump c pc = .next t) :
    MovesChans s t (.txirq c) := by
  rcases irqPump_next h with ⟨-, -, rfl⟩ | ⟨-, -, rfl⟩ | ⟨-, -, rfl⟩ | ⟨-, ho, -, rfl⟩ | ⟨-, rfl⟩
  · exact movesChans_of_eq rfl
  · exact movesChans_of_eq rfl
  · exact movesChans_of_eq rfl
  · exact movesChans_of_popped rfl rfl rfl ho
  · exact movesChans_of_writeTxData rfl rfl rfl

theorem pushAndRespond_movesChans {s t : State} {i : Instr} {c : ChNum} {d : Dir} {v : Byte}
    (h : s.pushAndRespond i c d v = .next t) (hc : i.chan? = some c) (hpush : pushesInto i d = true) :
    MovesChans s t i := by
  rcases pushAndRespond_next h with ⟨-, rfl⟩ | ⟨ho, -, rfl⟩
  · exact movesChans_of_eq rfl
  · exact movesChans_of_pushed rfl hc hpush ho

theorem popAndRespond_movesChans {s t : State} {i : Instr} {c : ChNum} {d : Dir}
    (h : s.popAndRespond i c d = .next t) (hc : i.chan? = some c) (hpop : popsFrom i d = true) :
    MovesChans s t i := by
  rcases popAndRespond_next h with ⟨-, rfl⟩ | ⟨ho, -, rfl⟩
  · exact movesChans_of_eq rfl
  · exact movesChans_of_popped rfl hc hpop ho

theorem fillStep_movesChans {s t : State} {c : ChNum} {p : List Byte} (h : s.fillStep c p = .next t) :
    MovesChans s t (.enqOut c p) := by
  obtain ⟨v, -, ⟨-, rfl⟩ | ⟨ho, -, rfl⟩⟩ := fillStep_next h
  · exact movesChans_of_eq rfl
  · exact movesChans_of_pushed rfl rfl rfl ho

theorem storeArrival_movesChans {s t : State} {c : ChNum} (h : s.storeArrival c = .next t) :
    MovesChans s t (.rxirq c) := by
  rcases storeArrival_next h with ⟨-, rfl⟩ | ⟨ho, -, rfl⟩
  · exact movesChans_of_eq rfl
  · exact movesChans_of_pushed rfl rfl rfl ho

theorem takeArrival_movesChans {s t : State} {c : ChNum} (h : s.takeArrival c = .next t) :
    MovesChans s t (.rxirq c) := by
  obtain rfl := Host.Outcome.next.inj h
  exact movesChans_of_setChan rfl rfl (.taken c rfl)

theorem checkChannel_chans {s t : State} {i : Instr} {c : ChNum} {pc : HostPc} (h : s.checkChannel i c pc = .next t) :
    t.chans = s.chans := by
  rcases checkChannel_cases s i c pc with ⟨-, hc⟩ | ⟨-, hc⟩ <;>
    · obtain rfl := Host.Outcome.next.inj (hc.symm.trans h); rfl

theorem preCheck_chans {s t : State} {c : ChNum} {p : List Byte} (h : s.preCheck c p = .next t) :
    t.chans = s.chans := by
  rcases preCheck_next h with ⟨-, rfl⟩ | ⟨-, rfl⟩ <;> rfl

theorem armCheck_chans {s t : State} {c : ChNum} {p : List Byte} (h : s.armCheck c p = .next t) :
    t.chans = s.chans := by
  rcases armCheck_next h with ⟨-, rfl⟩ | ⟨-, rfl⟩ <;> rfl

/-- Everything a micro-step does to the channels. -/
theorem microStep_movesChans {s t : State} {i : Instr} (h : MicroStep s t i) : MovesChans s t i := by
  cases h with
  | check _ _ _ h => exact movesChans_of_eq (checkChannel_chans h)
  | push _ _ h => exact pushAndRespond_movesChans h rfl (beq_self_eq_true _)
  | pop _ _ h => exact popAndRespond_movesChans h rfl (beq_self_eq_true _)
  | enqIn _ _ h => exact pushAndRespond_movesChans h rfl rfl
  | deqIn _ _ h => exact popAndRespond_movesChans h rfl rfl
  | preCheck _ _ h => exact movesChans_of_eq (preCheck_chans h)
  | fill _ _ h => exact fillStep_movesChans h
  | armCheck _ _ h => exact movesChans_of_eq (armCheck_chans h)
  | enqOutPump _ _ _ h => exact hostPump_movesChans h rfl rfl rfl
  | pump _ _ _ h => exact hostPump_movesChans h rfl rfl rfl
  | ieSet _ h => subst h; exact movesChans_of_eq rfl
  | ieClr _ h => subst h; exact movesChans_of_eq rfl
  | take _ _ h => exact takeArrival_movesChans h
  | store _ _ h => exact storeArrival_movesChans h
  | leaveRx _ _ h => subst h; exact movesChans_of_eq rfl
  | txPump _ _ _ h => exact irqPump_movesChans h
  | leaveTx _ _ h => subst h; exact movesChans_of_eq rfl

/-! ### The sequencers -/

/-- What a micro-step of command `i` does outside the channels: the command answers, or its sequencer moves on; only
`IE_SET` and `IE_CLR` write `ie`. -/
inductive CommandShape (s : State) (i : Instr) : State → Prop
  | answers (V : Vector Chan 8) (f : Bool) (n : Nat) (e : ErrVal) (b : Byte)
      (hie : f = s.ie ∨ i = .ieSet ∨ i = .ieClr) :
      CommandShape s i (State.respond { s with chans := V, ie := f, freeCtr := n } i e b)
  | goesOn (V : Vector Chan 8) (pc : HostPc) (k o : Nat) (f : Bool) (b : Byte) :
      CommandShape s i { s with chans := V, hostPc := pc, hostI := k, hostOcc := o, hostT := f, hostB := b }

/-- What a micro-step of a handler does outside the channels: its sequencer moves on, or it returns. -/
inductive HandlerShape (s : State) : State → Prop
  | goesOn (V : Vector Chan 8) (n : Nat) (pc : IrqPc) (f : Bool) (b : Byte) :
      HandlerShape s { s with chans := V, freeCtr := n, irqPc := pc, irqT := f, irqB := b }
  | returns : HandlerShape s s.leaveHandler

/-- A write of `tx_data` changes its channel, and draws free values on an overrun. -/
theorem writeTxData_eq (s : State) (c : ChNum) (v : Byte) :
    s.writeTxData c v = { s with chans := (s.writeTxData c v).chans, freeCtr := (s.writeTxData c v).freeCtr } := by
  rcases writeTxData_cases s c v with ⟨-, -, hw⟩ | ⟨-, hw⟩ <;> rw [hw] <;> rfl

theorem checkChannel_shape {s t : State} {i : Instr} {c : ChNum} {pc : HostPc}
    (h : s.checkChannel i c pc = .next t) : CommandShape s i t := by
  rcases checkChannel_cases s i c pc with ⟨-, hc⟩ | ⟨-, hc⟩ <;> obtain rfl := Host.Outcome.next.inj (hc.symm.trans h)
  · exact .goesOn _ _ _ _ _ _
  · exact .answers _ _ _ _ _ (.inl rfl)

theorem pushAndRespond_shape {s t : State} {i : Instr} {c : ChNum} {d : Dir} {v : Byte}
    (h : s.pushAndRespond i c d v = .next t) : CommandShape s i t := by
  rcases pushAndRespond_next h with ⟨-, rfl⟩ | ⟨-, -, rfl⟩ <;> exact .answers _ _ _ _ _ (.inl rfl)

theorem popAndRespond_shape {s t : State} {i : Instr} {c : ChNum} {d : Dir}
    (h : s.popAndRespond i c d = .next t) : CommandShape s i t := by
  rcases popAndRespond_next h with ⟨-, rfl⟩ | ⟨-, -, rfl⟩ <;> exact .answers _ _ _ _ _ (.inl rfl)

theorem preCheck_shape {s t : State} {c : ChNum} {p : List Byte} (h : s.preCheck c p = .next t) :
    CommandShape s (.enqOut c p) t := by
  rcases preCheck_next h with ⟨-, rfl⟩ | ⟨-, rfl⟩
  · exact .answers _ _ _ _ _ (.inl rfl)
  · exact .goesOn _ _ _ _ _ _

theorem fillStep_shape {s t : State} {c : ChNum} {p : List Byte} (h : s.fillStep c p = .next t) :
    CommandShape s (.enqOut c p) t := by
  obtain ⟨v, -, ⟨-, rfl⟩ | ⟨-, -, rfl⟩⟩ := fillStep_next h
  · exact .answers _ _ _ _ _ (.inl rfl)
  · exact .goesOn _ _ _ _ _ _

theorem armCheck_shape {s t : State} {c : ChNum} {p : List Byte} (h : s.armCheck c p = .next t) :
    CommandShape s (.enqOut c p) t := by
  rcases armCheck_next h with ⟨-, rfl⟩ | ⟨-, rfl⟩
  · exact .goesOn _ _ _ _ _ _
  · exact .answers _ _ _ _ _ (.inl rfl)

theorem hostPump_shape {s t : State} {i : Instr} {c : ChNum} {ret : ErrVal → ErrVal} {pc : PumpPc}
    (h : s.hostPump i c ret pc = .next t) : CommandShape s i t := by
  rcases hostPump_next h with ⟨-, -, rfl⟩ | ⟨-, -, rfl⟩ | ⟨-, -, rfl⟩ | ⟨-, -, -, rfl⟩ | ⟨-, rfl⟩
  · exact .goesOn _ _ _ _ _ _
  · exact .answers _ _ _ _ _ (.inl rfl)
  · exact .answers _ _ _ _ _ (.inl rfl)
  · exact .goesOn _ _ _ _ _ _
  · rw [writeTxData_eq]; exact .answers _ _ _ _ _ (.inl rfl)

theorem irqPump_shape {s t : State} {c : ChNum} {pc : PumpPc} (h : s.irqPump c pc = .next t) : HandlerShape s t := by
  rcases irqPump_next h with ⟨-, -, rfl⟩ | ⟨-, -, rfl⟩ | ⟨-, -, rfl⟩ | ⟨-, -, -, rfl⟩ | ⟨-, rfl⟩
  · exact .goesOn _ _ _ _ _
  · exact .goesOn _ _ _ _ _
  · exact .goesOn _ _ _ _ _
  · exact .goesOn _ _ _ _ _
  · rw [writeTxData_eq]; exact .goesOn _ _ _ _ _

theorem takeArrival_shape {s t : State} {c : ChNum} (h : s.takeArrival c = .next t) : HandlerShape s t := by
  obtain rfl := Host.Outcome.next.inj h
  exact .goesOn _ _ _ _ _

theorem storeArrival_shape {s t : State} {c : ChNum} (h : s.storeArrival c = .next t) : HandlerShape s t := by
  rcases storeArrival_next h with ⟨-, rfl⟩ | ⟨-, -, rfl⟩ <;> exact .goesOn _ _ _ _ _

/-- Everything a micro-step does outside the channels. -/
theorem microStep_shape {s t : State} {i : Instr} (h : MicroStep s t i) :
    (i.isCommand = true ∧ CommandShape s i t) ∨ (i.isCommand = false ∧ HandlerShape s t) := by
  cases h with
  | check _ hcmd _ h => exact .inl ⟨hcmd, checkChannel_shape h⟩
  | push _ _ h => exact .inl ⟨rfl, pushAndRespond_shape h⟩
  | pop _ _ h => exact .inl ⟨rfl, popAndRespond_shape h⟩
  | enqIn _ _ h => exact .inl ⟨rfl, pushAndRespond_shape h⟩
  | deqIn _ _ h => exact .inl ⟨rfl, popAndRespond_shape h⟩
  | preCheck _ _ h => exact .inl ⟨rfl, preCheck_shape h⟩
  | fill _ _ h => exact .inl ⟨rfl, fillStep_shape h⟩
  | armCheck _ _ h => exact .inl ⟨rfl, armCheck_shape h⟩
  | enqOutPump _ _ _ h => exact .inl ⟨rfl, hostPump_shape h⟩
  | pump _ _ _ h => exact .inl ⟨rfl, hostPump_shape h⟩
  | ieSet _ h => subst h; exact .inl ⟨rfl, .answers _ _ _ _ _ (.inr (.inl rfl))⟩
  | ieClr _ h => subst h; exact .inl ⟨rfl, .answers _ _ _ _ _ (.inr (.inr rfl))⟩
  | take _ _ h => exact .inr ⟨rfl, takeArrival_shape h⟩
  | store _ _ h => exact .inr ⟨rfl, storeArrival_shape h⟩
  | leaveRx _ _ h => subst h; exact .inr ⟨rfl, .returns⟩
  | txPump _ _ _ h => exact .inr ⟨rfl, irqPump_shape h⟩
  | leaveTx _ _ h => subst h; exact .inr ⟨rfl, .returns⟩

end Sys2Proof.Machine
end

/-! ## What a step does to a channel, and who writes which flag (R31, R35, R40, R50) -/

section
namespace Sys2Proof.Machine

/-! ### The access table of the operations (R50) -/

theorem exec_movesChans {s t : State} {i : Instr} (h : exec i s = .next t) : MovesChans s t i :=
  microStep_movesChans (exec_microStep h)

theorem exec_other_chan {s t : State} {i : Instr} {c : ChNum} (h : exec i s = .next t) (hc : i.chan? ≠ some c) :
    t.chan c = s.chan c := by
  rcases exec_movesChans h c with heq | ⟨hchan, -⟩
  · exact heq
  · exact absurd hchan hc

theorem setRing_out (x : Chan) {d : Dir} (F : Ring) (h : d ≠ .out) : (x.setRing d F).out = x.out :=
  ring_setRing_other x F h

theorem setRing_inp (x : Chan) {d : Dir} (F : Ring) (h : d ≠ .inp) : (x.setRing d F).inp = x.inp :=
  ring_setRing_other x F h

theorem chanMove_keeps_environment {cap : Nat} {i : Instr} {x y : Chan} (h : ChanMove cap i x y) :
    y.txPending = x.txPending ∧ y.rxlog = x.rxlog ∧ y.rxData = x.rxData ∧ y.rxOverrun = x.rxOverrun := by
  cases h <;> simp

theorem chanMove_keeps_inp {cap : Nat} {i : Instr} {x y : Chan} (h : ChanMove cap i x y)
    (hpush : pushesInto i .inp = false) (hpop : popsFrom i .inp = false) :
    y.inp = x.inp ∧ y.rxPending = x.rxPending := by
  cases h with
  | pushed d v hd _ => simp [setRing_inp x _ (show d ≠ .inp by rintro rfl; simp [hpush] at hd)]
  | popped d hd _ => simp [setRing_inp x _ (show d ≠ .inp by rintro rfl; simp [hpop] at hd)]
  | sent => simp
  | overrun => simp
  | taken c hi => subst hi; cases hpush

theorem chanMove_keeps_out {cap : Nat} {i : Instr} {x y : Chan} (h : ChanMove cap i x y)
    (hpush : pushesInto i .out = false) (hpop : popsFrom i .out = false) (htx : transmits i = false) :
    y.out = x.out ∧ y.txData = x.txData ∧ y.txe = x.txe ∧ y.txOverrun = x.txOverrun ∧ y.txlog = x.txlog := by
  cases h with
  | pushed d v hd _ => simp [setRing_out x _ (show d ≠ .out by rintro rfl; simp [hpush] at hd)]
  | popped d hd _ => simp [setRing_out x _ (show d ≠ .out by rintro rfl; simp [hpop] at hd)]
  | sent _ h => simp [htx] at h
  | overrun _ _ h => simp [htx] at h
  | taken => simp

/-- An operation that uses one buffer and is no part of the transmitter or of the arrival changes that buffer alone. -/
theorem chanMove_one_ring {cap : Nat} {i : Instr} {x y : Chan} {d : Dir} (h : ChanMove cap i x y)
    (hpush : ∀ d', pushesInto i d' = true → d' = d) (hpop : ∀ d', popsFrom i d' = true → d' = d)
    (htx : transmits i = false) (hrx : ∀ c, i ≠ .rxirq c) : y = x.setRing d (y.ring d) := by
  cases h with
  | pushed d' v hd _ => obtain rfl := hpush d' hd; simp
  | popped d' hd _ => obtain rfl := hpop d' hd; simp
  | sent _ h => simp [htx] at h
  | overrun _ _ h => simp [htx] at h
  | taken c hi => exact absurd hi (hrx c)

theorem exec_keeps_environment {s t : State} {i : Instr} (h : exec i s = .next t) (c : ChNum) :
    (t.chan c).txPending = (s.chan c).txPending ∧ (t.chan c).rxlog = (s.chan c).rxlog ∧
    (t.chan c).rxData = (s.chan c).rxData ∧ (t.chan c).rxOverrun = (s.chan c).rxOverrun := by
  rcases exec_movesChans h c with heq | ⟨-, hm⟩
  · simp [heq]
  · exact chanMove_keeps_environment hm

theorem exec_keeps_inp {s t : State} {i : Instr} (h : exec i s = .next t) (hpush : pushesInto i .inp = false)
    (hpop : popsFrom i .inp = false) (c : ChNum) :
    (t.chan c).inp = (s.chan c).inp ∧ (t.chan c).rxPending = (s.chan c).rxPending := by
  rcases exec_movesChans h c with heq | ⟨-, hm⟩
  · simp [heq]
  · exact chanMove_keeps_inp hm hpush hpop

theorem exec_keeps_out {s t : State} {i : Instr} (h : exec i s = .next t) (hpush : pushesInto i .out = false)
    (hpop : popsFrom i .out = false) (htx : transmits i = false) (c : ChNum) :
    (t.chan c).out = (s.chan c).out ∧ (t.chan c).txData = (s.chan c).txData ∧ (t.chan c).txe = (s.chan c).txe ∧
    (t.chan c).txOverrun = (s.chan c).txOverrun ∧ (t.chan c).txlog = (s.chan c).txlog := by
  rcases exec_movesChans h c with heq | ⟨-, hm⟩
  · simp [heq]
  · exact chanMove_keeps_out hm hpush hpop htx

theorem exec_one_ring {s t : State} {i : Instr} {d : Dir} (h : exec i s = .next t)
    (hpush : ∀ d', pushesInto i d' = true → d' = d) (hpop : ∀ d', popsFrom i d' = true → d' = d)
    (htx : transmits i = false) (hrx : ∀ c, i ≠ .rxirq c) (c : ChNum) :
    t.chan c = (s.chan c).setRing d ((t.chan c).ring d) := by
  rcases exec_movesChans h c with heq | ⟨-, hm⟩
  · simp [heq]
  · exact chanMove_one_ring hm hpush hpop htx hrx

/-- Settles O36: the columns of R50 are read off the moves that each operation can make. -/
theorem operationsKeepToTheirSideOfTheirChannel : Obligations.OperationsKeepToTheirSideOfTheirChannel := by
  refine ⟨fun s t i c c' h hc hne => ?other, fun s t i c h => exec_keeps_environment h c, fun s t ch p c h => ?output,
    fun s t ch v c h => ?input, fun s t d ch v c h => ?buffer, fun s t c h => ?control⟩
  case other =>
    exact exec_other_chan h (by rw [hc]; exact fun heq => hne (Option.some.inj heq).symm)
  case output =>
    rcases h with h | h | h
    · exact exec_keeps_inp h rfl rfl c
    · exact exec_keeps_inp h rfl rfl c
    · exact exec_keeps_inp h rfl rfl c
  case input =>
    rcases h with h | h | h
    · exact exec_keeps_out h rfl rfl rfl c
    · exact exec_keeps_out h rfl rfl rfl c
    · exact exec_keeps_out h rfl rfl rfl c
  case buffer =>
    rcases h with h | h
    · exact exec_one_ring h (fun d' hd => (eq_of_beq hd).symm) (fun _ hd => by cases hd) rfl (by simp) c
    · exact exec_one_ring h (fun _ hd => by cases hd) (fun d' hd => (eq_of_beq hd).symm) rfl (by simp) c
  case control =>
    rcases h with h | h <;> exact exec_other_chan h (by simp [Instr.chan?])

/-! ### Every event's effect on a channel -/

/-- Everything the step of event `e` can make of the channel `x` with number `c`. -/
inductive ChanStep (cap : Nat) (c : ChNum) (x : Chan) : Event → Chan → Prop
  | same (e : Event) : ChanStep cap c x e x
  | moved {e : Event} {i : Instr} {y : Chan} (hagent : e = .host ∨ e = .irq) (hchan : i.chan? = some c)
      (h : ChanMove cap i x y) : ChanStep cap c x e y
  | granted (r : IrqNum) : ChanStep cap c x (.grant r) { x with txPending := false }
  | done (hbusy : x.txe = false) : ChanStep cap c x (.txDone c) { x with txe := true, txPending := true }
  | arrived (b : Byte) (hread : x.rxPending = false) :
      ChanStep cap c x (.rxArrive c b) { x with rxlog := x.rxlog ++ [b], rxData := b, rxPending := true }
  | overrun (b v : Byte) (hunread : x.rxPending = true) :
      ChanStep cap c x (.rxArrive c b) { x with rxlog := x.rxlog ++ [b], rxOverrun := true, rxData := v }
  | reset (n : Nat) : ChanStep cap c x .reset (Chan.fresh n)

theorem movesChans_chanStep {s t : State} {i : Instr} {e : Event} (h : MovesChans s t i)
    (hagent : e = .host ∨ e = .irq) (c : ChNum) : ChanStep s.cfg.cap c (s.chan c) e (t.chan c) := by
  rcases h c with heq | ⟨hc, hm⟩
  · rw [heq]; exact .same e
  · exact .moved hagent hc hm

theorem hostStep_chanStep {s t : State} (h : s.hostStep = .next t) (c : ChNum) :
    ChanStep s.cfg.cap c (s.chan c) .host (t.chan c) := by
  obtain ⟨-, ⟨-, why, rest, -, rfl⟩ | ⟨-, i, rest, -, h⟩ | ⟨-, i, -, h⟩⟩ := hostStep_cases h
  · exact .same _
  · exact movesChans_chanStep (exec_movesChans h) (.inl rfl) c
  · exact movesChans_chanStep (exec_movesChans h) (.inl rfl) c

theorem irqStep_chanStep {s t : State} (h : s.irqStep = .next t) (c : ChNum) :
    ChanStep s.cfg.cap c (s.chan c) .irq (t.chan c) := by
  obtain ⟨-, -, h⟩ := irqStep_cases h
  exact movesChans_chanStep (exec_movesChans h) (.inr rfl) c

theorem grant_chanStep (s : State) (r : IrqNum) (c : ChNum) :
    ChanStep s.cfg.cap c (s.chan c) (.grant r) ((s.enterHandler r).chan c) := by
  rw [chan_enterHandler]
  split
  · exact .granted r
  · exact .same _

theorem txDone_chanStep {s t : State} {c' : ChNum} (h : s.txDone c' = .next t) (c : ChNum) :
    ChanStep s.cfg.cap c (s.chan c) (.txDone c') (t.chan c) := by
  obtain ⟨-, hbusy, rfl⟩ := txDone_next h
  rw [chan_setChan]
  split
  · next heq => subst heq; exact .done hbusy
  · exact .same _

/-- What an arrival does to the channels (R226). -/
theorem arrive_chans (s : State) (c : ChNum) (b : Byte) :
    ((s.chan c).rxPending = true ∧ (s.arrive c b).chans = (s.setChan c { s.chan c with
      rxlog := (s.chan c).rxlog ++ [b], rxOverrun := true, rxData := Config.freeByte s.freeCtr }).chans) ∨
    ((s.chan c).rxPending = false ∧ (s.arrive c b).chans = (s.setChan c { s.chan c with
      rxlog := (s.chan c).rxlog ++ [b], rxData := b, rxPending := true }).chans) := by
  unfold State.arrive
  dsimp only
  split
  · next hunread => exact .inl ⟨hunread, rfl⟩
  · next hread => exact .inr ⟨Bool.eq_false_of_not_eq_true hread, rfl⟩

theorem arrive_chanStep (s : State) (c' c : ChNum) (b : Byte) :
    ChanStep s.cfg.cap c (s.chan c) (.rxArrive c' b) ((s.arrive c' b).chan c) := by
  rcases arrive_chans s c' b with ⟨hunread, hchans⟩ | ⟨hread, hchans⟩ <;> rw [chan_congr hchans, chan_setChan] <;> split
  · next heq => subst heq; exact .overrun b _ hunread
  · exact .same _
  · next heq => subst heq; exact .arrived b hread
  · exact .same _

/-- Everything a step does to a channel. -/
theorem eventStep_chanStep {s t : State} {e : Event} (h : s.eventStep e = .next t) (c : ChNum) :
    ChanStep s.cfg.cap c (s.chan c) e (t.chan c) := by
  cases e with
  | host => exact hostStep_chanStep h c
  | irq => exact irqStep_chanStep h c
  | grant r => obtain ⟨-, rfl⟩ := grant_next h; exact grant_chanStep s r c
  | txDone c' => exact txDone_chanStep h c
  | rxArrive c' b => obtain ⟨-, rfl⟩ := rxArrive_next h; exact arrive_chanStep s c' c b
  | reset =>
    obtain rfl := Host.Outcome.next.inj h
    rw [chan_resetEvent]
    exact .reset _

/-! ### The transmitter's flag (R31, R225) -/

theorem txDone_ready {s : State} {c : ChNum} (h : (s.chan c).txe = true) : s.txDone c = .refused .notEnabled := by
  simp [State.txDone, h]

/-- No micro-step of an operation sets `txe`. -/
theorem chanMove_txe_not_set {cap : Nat} {i : Instr} {x y : Chan} (h : ChanMove cap i x y) (hx : x.txe = false) :
    y.txe = false := by
  cases h <;> simp [hx]

/-- `txe` falls with a write of `tx_data`, which the trace records. -/
theorem chanMove_txe_falls {cap : Nat} {i : Instr} {x y : Chan} (h : ChanMove cap i x y) (hx : x.txe = true)
    (hy : y.txe = false) (hover : x.txOverrun = false) : y.txlog = x.txlog ++ [y.txData] := by
  cases h with
  | pushed => simp [hx] at hy
  | popped => simp [hx] at hy
  | sent => rfl
  | overrun _ _ _ hbad => simp [hx, hover] at hbad
  | taken => simp [hx] at hy

/-- Settles O32: among the effects of a step on a channel, that of `TX_DONE` and reset alone set `txe`, and that of a
write of `tx_data` alone clears it. -/
theorem txDoneReadiesTheTransmitter : Obligations.TxDoneReadiesTheTransmitter := by
  refine ⟨fun s c hc => ⟨txDone_busy ((validCh_iff s c).mpr hc), txDone_ready⟩, fun s t e c h => ?_⟩
  generalize hy : t.chan c = y
  cases hy ▸ eventStep_chanStep h c with
  | same => simp +contextual
  | moved _ _ hm =>
    exact ⟨fun hf ht => by simp [chanMove_txe_not_set hm hf] at ht, fun ht hf => chanMove_txe_falls hm ht hf⟩
  | granted => simp +contextual
  | done => simp
  | arrived => simp +contextual
  | overrun => simp +contextual
  | reset => simp [Chan.fresh]

/-! ### The fault flags (R40) and `ie` (R35) -/

theorem chanMove_txOverrun {cap : Nat} {i : Instr} {x y : Chan} (h : ChanMove cap i x y) (hx : x.txOverrun = true) :
    y.txOverrun = true := by
  cases h <;> simp [hx]

theorem chanStep_flags_sticky {cap : Nat} {c : ChNum} {e : Event} {x y : Chan} (h : ChanStep cap c x e y)
    (he : e ≠ .reset) :
    (x.txOverrun = true → y.txOverrun = true) ∧ (x.rxOverrun = true → y.rxOverrun = true) := by
  cases h with
  | moved _ _ hm =>
    obtain ⟨-, -, -, hrx⟩ := chanMove_keeps_environment hm
    exact ⟨chanMove_txOverrun hm, fun hx => hrx.trans hx⟩
  | reset => exact absurd rfl he
  | _ => simp

theorem exec_cmdFault {s t : State} {i : Instr} (h : exec i s = .next t) : t.cmdFault = s.cmdFault := by
  rcases microStep_shape (exec_microStep h) with ⟨-, hs⟩ | ⟨-, hs⟩ <;> cases hs <;> rfl

theorem exec_ie {s t : State} {i : Instr} (h : exec i s = .next t) : t.ie = s.ie ∨ i = .ieSet ∨ i = .ieClr := by
  rcases microStep_shape (exec_microStep h) with ⟨-, hs⟩ | ⟨-, hs⟩
  · cases hs with
    | answers V f n e b hie => exact hie
    | goesOn => exact .inl rfl
  · cases hs <;> exact .inl rfl

/-- An arrival writes its channel, and draws a free value on an overrun. -/
theorem arrive_eq (s : State) (c : ChNum) (b : Byte) :
    s.arrive c b = { s with chans := (s.arrive c b).chans, freeCtr := (s.arrive c b).freeCtr } := by
  unfold State.arrive
  dsimp only
  split <;> rfl

theorem eventStep_cmdFault {s t : State} {e : Event} (h : s.eventStep e = .next t) (he : e ≠ .reset)
    (hf : s.cmdFault = true) : t.cmdFault = true := by
  cases e with
  | host =>
    obtain ⟨hen, -⟩ := hostStep_cases h
    simp [State.hostEnabled, hf] at hen
  | irq => obtain ⟨-, -, h⟩ := irqStep_cases h; exact (exec_cmdFault h).trans hf
  | grant r => obtain ⟨-, rfl⟩ := grant_next h; simpa using hf
  | txDone c => obtain ⟨-, -, rfl⟩ := txDone_next h; exact hf
  | rxArrive c b => obtain ⟨-, rfl⟩ := rxArrive_next h; rw [arrive_eq]; exact hf
  | reset => exact absurd rfl he

/-- Settles O38: no effect of a step on a channel clears a flag but that of reset, and HOST has no step once `cmd_fault`
is set. -/
theorem faultFlagsAreSticky : Obligations.FaultFlagsAreSticky := fun _ _ _ h he =>
  ⟨eventStep_cmdFault h he, fun c => chanStep_flags_sticky (eventStep_chanStep h c) he⟩

theorem hostInstr_of_idle {s : State} {i : Instr} {rest : List Half} (hpc : s.hostPc = .idle)
    (hd : decodeCommand s.words = .instr i rest) : s.hostInstr = some i := by
  simp [State.hostInstr, hpc, hd]

theorem hostInstr_of_busy {s : State} (hpc : s.hostPc ≠ .idle) : s.hostInstr = s.hostCmd := by
  simp [State.hostInstr, hpc]

theorem hostStep_ie {s t : State} (h : s.hostStep = .next t) :
    t.ie = s.ie ∨ s.hostInstr = some .ieSet ∨ s.hostInstr = some .ieClr := by
  obtain ⟨-, ⟨-, why, rest, -, rfl⟩ | ⟨hpc, i, rest, hd, h⟩ | ⟨hpc, i, hc, h⟩⟩ := hostStep_cases h
  · exact .inl rfl
  · simpa [hostInstr_of_idle hpc hd] using exec_ie h
  · simpa [hostInstr_of_busy hpc, hc] using exec_ie h

theorem decodeRequest_isCommand (r : IrqNum) : (decodeRequest r).isCommand = false := by
  unfold decodeRequest
  split <;> rfl

theorem irqStep_ie {s t : State} (h : s.irqStep = .next t) : t.ie = s.ie := by
  obtain ⟨-, -, h⟩ := irqStep_cases h
  rcases exec_ie h with heq | hi | hi
  · exact heq
  all_goals have := decodeRequest_isCommand s.curIrq; simp [hi, Instr.isCommand] at this

/-- Settles O37: outside HOST's commands no step but reset writes `ie`, and of the commands only the two do. -/
theorem onlyInterruptControlChangesIe : Obligations.OnlyInterruptControlChangesIe := by
  intro s t e h hne
  cases e with
  | host => exact .inr ⟨rfl, (hostStep_ie h).resolve_left hne⟩
  | irq => exact absurd (irqStep_ie h) hne
  | grant r => obtain ⟨-, rfl⟩ := grant_next h; exact absurd (enterHandler_ie s r) hne
  | txDone c => obtain ⟨-, -, rfl⟩ := txDone_next h; exact absurd rfl hne
  | rxArrive c b => obtain ⟨-, rfl⟩ := rxArrive_next h; rw [arrive_eq] at hne; exact absurd rfl hne
  | reset => exact .inl rfl

end Sys2Proof.Machine
end

/-! ## Reset (R44 to R49, R240, R241) -/

section
namespace Sys2Proof.Machine

theorem step_of_sched {s : State} {e : Event} {es : List Event} (h : s.sched = e :: es) :
    step s = State.eventStep { s with sched := es } e := by
  simp [step, State.stepOnce, h]

theorem ring_resetOf (p : Params) (c : ChNum) (d : Dir) : ∃ n, (State.resetOf p).ring c d = Ring.fresh n := by
  cases d
  · exact ⟨_, by rw [State.ring, chan_resetOf, ring_fresh_out]⟩
  · exact ⟨_, by rw [State.ring, chan_resetOf, ring_fresh_inp]⟩

theorem ring_resetEvent (s : State) (c : ChNum) (d : Dir) : ∃ n, s.resetEvent.ring c d = Ring.fresh n := by
  cases d
  · exact ⟨_, by rw [State.ring, chan_resetEvent, ring_fresh_out]⟩
  · exact ⟨_, by rw [State.ring, chan_resetEvent, ring_fresh_inp]⟩

/-- Settles O34: every buffer is a fresh one, every channel too, and the other values are written out in the reset
state. -/
theorem resetLeavesTheStatedValues : Obligations.ResetLeavesTheStatedValues := by
  intro p
  refine ⟨fun c d => ?buffers, fun c => ?channels, rfl, rfl, rfl, rfl, rfl, rfl, rfl⟩
  case buffers => obtain ⟨n, hF⟩ := ring_resetOf p c d; simp [hF, Ring.fresh]
  case channels => simp [Chan.fresh]

/-- Settles O35: the event has no guard, and its state is the reset state with the parameters, HOST's words and the
schedule kept. -/
theorem resetEventAbandonsEverything : Obligations.ResetEventAbandonsEverything := by
  intro s es h
  refine ⟨State.resetEvent { s with sched := es }, by rw [step_of_sched h]; rfl, rfl, rfl, rfl, fun c d => ?buffers,
    fun c => ?channels, rfl, rfl, rfl, rfl, rfl, rfl, rfl⟩
  case buffers => obtain ⟨n, hF⟩ := ring_resetEvent { s with sched := es } c d; simp [hF, Ring.fresh]
  case channels => simp [Chan.fresh]

end Sys2Proof.Machine
end

/-! ## Which instruction a step runs, and the stops off its labels (R37, R96, R141, R217) -/

section
namespace Sys2Proof.Machine

theorem hostEnabled_of {s : State} (hidle : s.inHandler = false) (hfault : s.cmdFault = false)
    (hgrant : s.cfg.grantPolicy = .any ∨ s.grantWaiting = false) (hready : s.hostPc ≠ .idle ∨ s.commandReady = true) :
    s.hostEnabled = true := by
  have hheld : (s.cfg.grantPolicy == .eager && s.grantWaiting) = false := by
    rcases hgrant with hp | hw
    · rw [hp]; rfl
    · rw [hw, Bool.and_false]
  simpa [State.hostEnabled, hidle, hfault, hheld] using hready

theorem commandReady_of {s : State} {i : Instr} {rest : List Half} (h : decodeCommand s.words = .instr i rest) :
    s.commandReady = true := by
  simp [State.commandReady, h]

theorem hostStep_of_idle {s : State} {i : Instr} {rest : List Half} (hen : s.hostEnabled = true)
    (hpc : s.hostPc = .idle) (hd : decodeCommand s.words = .instr i rest) :
    s.hostStep = exec i (s.accept i rest) := by
  simp [State.hostStep, hen, hpc, hd]

theorem hostStep_of_busy {s : State} {i : Instr} (hen : s.hostEnabled = true) (hpc : s.hostPc ≠ .idle)
    (hc : s.hostCmd = some i) : s.hostStep = exec i s := by
  simp [State.hostStep, hen, hc]

theorem irqStep_of {s : State} {i : Instr} (hrun : s.inHandler = true) (hi : decodeRequest s.curIrq = i)
    (hwf : i.wf s.cfg.nCh = true) : s.irqStep = exec i s := by
  simp [State.irqStep, hrun, hi, hwf]

theorem firstLabel_eq (i : Instr) : firstLabel i = if i = .ieSet ∨ i = .ieClr then .s1 else .s0 := by
  cases i <;> simp [firstLabel]

theorem decodeRequest_rx (c : ChNum) : decodeRequest (requestNumber c false) = .rxirq c := by
  simp [decodeRequest]

theorem decodeRequest_tx (c : ChNum) : decodeRequest (requestNumber c true) = .txirq c := by
  simp [decodeRequest]

/-- Settles O26: with its guard true, HOST's entry runs `exec` of the command taken or latched, and IRQ's entry `exec`
of the handler that the running request decodes to. -/
theorem stepRunsTheDecodedInstruction : Obligations.StepRunsTheDecodedInstruction := by
  refine ⟨fun s es i rest hs hidle hfault hgrant => ⟨fun hpc hd => ?idle, fun hpc hc => ?busy⟩,
    fun s es c hs hrun hc => ⟨fun hr => ?rx, fun hr => ?tx⟩⟩
  case idle =>
    rw [step_of_sched hs, ← firstLabel_eq]
    exact hostStep_of_idle (hostEnabled_of hidle hfault hgrant (.inr (commandReady_of hd))) hpc hd
  case busy =>
    rw [step_of_sched hs]
    exact hostStep_of_busy (hostEnabled_of hidle hfault hgrant (.inl hpc)) hpc hc
  case rx =>
    rw [step_of_sched hs]
    exact irqStep_of hrun (hr ▸ decodeRequest_rx c) (decide_eq_true hc)
  case tx =>
    rw [step_of_sched hs]
    exact irqStep_of hrun (hr ▸ decodeRequest_tx c) (decide_eq_true hc)

theorem onChannel_invalid {s : State} {c : ChNum} (act : Host.Outcome State Fault Refusal) (h : s.cfg.nCh ≤ c.toNat) :
    s.onChannel c act = .fault .noSuchChannel := by
  have : ¬ c.toNat < s.cfg.nCh := by omega
  simp [State.onChannel, State.validCh, this]

/-- A command has no micro-step at a label that is none of its own. -/
theorem exec_off_label {s : State} {i : Instr} (hi : i.isCommand = true) (hl : hasHostLabel i s.hostPc = false) :
    exec i s = .refused .notAtMicroStep := by
  cases i with
  | push d c v => simp only [exec, execPush]; split <;> simp_all [hasHostLabel]
  | pop d c => simp only [exec, execPop]; split <;> simp_all [hasHostLabel]
  | enqOut c p => simp only [exec, execEnqOut]; split <;> simp_all [hasHostLabel]
  | enqIn c v => simp only [exec, execEnqIn]; split <;> simp_all [hasHostLabel]
  | deqIn c => simp only [exec, execDeqIn]; split <;> simp_all [hasHostLabel]
  | pump c => simp only [exec, execPump]; split <;> simp_all [hasHostLabel]
  | ieSet => simp only [exec, execIeSet]; split <;> simp_all [hasHostLabel]
  | ieClr => simp only [exec, execIeClr]; split <;> simp_all [hasHostLabel]
  | rxirq c => cases hi
  | txirq c => cases hi

/-- Every micro-step of a command past S0 is guarded by the existence of its channel. -/
theorem exec_absent_channel {s : State} {i : Instr} {ch : ChNum} (hi : i.isCommand = true) (hc : i.chan? = some ch)
    (hl : hasHostLabel i s.hostPc = true) (hs0 : s.hostPc ≠ .s0) (h : s.cfg.nCh ≤ ch.toNat) :
    exec i s = .fault .noSuchChannel := by
  cases i with
  | push d c v => cases hc; simp only [exec, execPush]; split <;> simp_all [hasHostLabel, onChannel_invalid]
  | pop d c => cases hc; simp only [exec, execPop]; split <;> simp_all [hasHostLabel, onChannel_invalid]
  | enqOut c p => cases hc; simp only [exec, execEnqOut]; split <;> simp_all [hasHostLabel, onChannel_invalid]
  | enqIn c v => cases hc; simp only [exec, execEnqIn]; split <;> simp_all [hasHostLabel, onChannel_invalid]
  | deqIn c => cases hc; simp only [exec, execDeqIn]; split <;> simp_all [hasHostLabel, onChannel_invalid]
  | pump c => cases hc; simp only [exec, execPump]; split <;> simp_all [hasHostLabel, onChannel_invalid]
  | ieSet => cases hc
  | ieClr => cases hc
  | rxirq c => cases hi
  | txirq c => cases hi

theorem execRxirq_off_label {s : State} (c : ChNum) (h1 : s.irqPc ≠ .g1) (h2 : s.irqPc ≠ .g2) (h3 : s.irqPc ≠ .g3) :
    execRxirq c s = .refused .notAtMicroStep := by
  unfold execRxirq
  split
  · next hpc => exact absurd hpc h1
  · next hpc => exact absurd hpc h2
  · next hpc => exact absurd hpc h3
  · rfl

theorem execTxirq_off_label {s : State} (c : ChNum) (h1 : s.irqPc ≠ .p1) (h2 : s.irqPc ≠ .p2) (h3 : s.irqPc ≠ .p3)
    (h4 : s.irqPc ≠ .t4) : execTxirq c s = .refused .notAtMicroStep := by
  unfold execTxirq
  split
  · next hpc => exact absurd hpc h1
  · next hpc => exact absurd hpc h2
  · next hpc => exact absurd hpc h3
  · next hpc => exact absurd hpc h4
  · rfl

theorem execRxirq_absent_channel {s : State} {c : ChNum} (h : s.cfg.nCh ≤ c.toNat)
    (hl : s.irqPc = .g1 ∨ s.irqPc = .g2 ∨ s.irqPc = .g3) : execRxirq c s = .fault .noSuchChannel := by
  rcases hl with hl | hl | hl <;> simp [execRxirq, hl, onChannel_invalid _ h]

theorem execTxirq_absent_channel {s : State} {c : ChNum} (h : s.cfg.nCh ≤ c.toNat)
    (hl : s.irqPc = .p1 ∨ s.irqPc = .p2 ∨ s.irqPc = .p3 ∨ s.irqPc = .t4) :
    execTxirq c s = .fault .noSuchChannel := by
  rcases hl with hl | hl | hl | hl <;> simp [execTxirq, hl, onChannel_invalid _ h]

theorem fillStep_past_batch {s : State} (c : ChNum) {p : List Byte} (h : p.length ≤ s.hostI) :
    s.fillStep c p = .refused .notAtMicroStep := by
  simp [State.fillStep, List.getElem?_eq_none h]

/-- Settles O25: the labels of each operation are those its meaning matches on, and past S0 every one of them checks
that the channel exists. -/
theorem offItsLabelsAnOperationStops : Obligations.OffItsLabelsAnOperationStops := by
  refine ⟨fun s i => exec_off_label, fun s c => execRxirq_off_label c, fun s c => execTxirq_off_label c,
    fun s i ch => exec_absent_channel,
    fun s c h => ⟨execRxirq_absent_channel h, execTxirq_absent_channel h⟩, fun s ch p hpc hc hlen => ?_⟩
  simp only [exec, execEnqOut, hpc]
  rw [onChannel_valid _ ((validCh_iff s ch).mpr hc), fillStep_past_batch ch hlen]

end Sys2Proof.Machine
end

/-! ## The sequencers' part of the invariant (R36, R37, R148) -/

section
namespace Sys2Proof.Machine

/-! ### HOST's sequencer -/

theorem hostSeqOk_none {s : State} (hc : s.hostCmd = none) : s.hostSeqOk = true ↔ s.hostPc = .idle := by
  unfold State.hostSeqOk
  rw [hc]
  cases s.hostPc <;> simp

/-- The table of `hostSeqOk` by columns: the label is one of the command's, past S0 the channel exists, a batch has a
legal length, and during the fill the rest of the batch fits. -/
theorem hostSeqOk_some {s : State} {i : Instr} (hc : s.hostCmd = some i) :
    s.hostSeqOk = true ↔
      hasHostLabel i s.hostPc = true ∧ (s.hostPc ≠ .s0 → ∀ c, i.chan? = some c → s.validCh c = true) ∧
      i.wf 8 = true ∧
      (s.hostPc = .s2 → ∀ c p, i = .enqOut c p →
        s.hostI < p.length ∧ (s.ring c .out).occ + (p.length - s.hostI) ≤ s.cfg.cap) := by
  unfold State.hostSeqOk
  rw [hc]
  cases i with
  | enqOut c p => cases s.hostPc <;> simp [hasHostLabel, Instr.isCommand, firstLabel, Instr.chan?, and_assoc]
  | _ => cases s.hostPc <;> simp [hasHostLabel, Instr.isCommand, firstLabel, Instr.chan?, Instr.wf]

theorem hasHostLabel_isCommand {i : Instr} {pc : HostPc} (h : hasHostLabel i pc = true) : i.isCommand = true := by
  cases i with
  | rxirq c => cases h
  | txirq c => cases h
  | _ => rfl

theorem not_hasHostLabel_idle (i : Instr) : hasHostLabel i .idle = false := by
  cases i <;> rfl

theorem hostCmd_of_idle {s : State} (h : s.hostSeqOk = true) (hpc : s.hostPc = .idle) : s.hostCmd = none := by
  cases hc : s.hostCmd with
  | none => rfl
  | some i =>
    obtain ⟨hl, -⟩ := (hostSeqOk_some hc).mp h
    rw [hpc, not_hasHostLabel_idle] at hl
    cases hl

theorem hostCmd_of_busy {s : State} (h : s.hostSeqOk = true) (hpc : s.hostPc ≠ .idle) : ∃ i, s.hostCmd = some i := by
  cases hc : s.hostCmd with
  | none => exact absurd ((hostSeqOk_none hc).mp h) hpc
  | some i => exact ⟨i, rfl⟩

/-- A step of another agent keeps HOST's sequencer sound: it leaves the sequencer alone and adds no output byte. -/
theorem hostSeqOk_frame {s t : State} (h : s.hostSeqOk = true) (hcfg : t.cfg = s.cfg) (hpc : t.hostPc = s.hostPc)
    (hcmd : t.hostCmd = s.hostCmd) (hI : t.hostI = s.hostI)
    (hocc : ∀ c, (t.ring c .out).occ ≤ (s.ring c .out).occ) : t.hostSeqOk = true := by
  cases hc : s.hostCmd with
  | none => rwa [hostSeqOk_none (hcmd.trans hc), hpc, ← hostSeqOk_none hc]
  | some i =>
    obtain ⟨hl, hch, hwf, hfit⟩ := (hostSeqOk_some hc).mp h
    refine (hostSeqOk_some (hcmd.trans hc)).mpr ⟨hpc ▸ hl, ?valid, hwf, ?fits⟩
    case valid => rw [hpc]; simpa [State.validCh, hcfg] using hch
    case fits =>
      rw [hpc, hI, hcfg]
      intro hs2 c p hi
      obtain ⟨hlt, hroom⟩ := hfit hs2 c p hi
      exact ⟨hlt, (Nat.add_le_add_right (hocc c) _).trans hroom⟩

/-! ### IRQ's sequencer -/

/-- The labels of the handler of request `r`. -/
def hasIrqLabel (r : IrqNum) : IrqPc → Bool
  | .idle => false
  | .g1 => !irqIsTx r
  | .g2 => !irqIsTx r
  | .g3 => !irqIsTx r
  | .p1 => irqIsTx r
  | .p2 => irqIsTx r
  | .p3 => irqIsTx r
  | .t4 => irqIsTx r

theorem irqSeqOk_stopped {s : State} (hrun : s.inHandler = false) : s.irqSeqOk = true ↔ s.irqPc = .idle := by
  unfold State.irqSeqOk
  rw [hrun]
  cases s.irqPc <;> simp

/-- The table of `irqSeqOk` by columns: the channel exists, the label is one of the handler's, the arrival is unread
before G1, and the transmitter is ready from P2 to P3. -/
theorem irqSeqOk_running {s : State} (hrun : s.inHandler = true) :
    s.irqSeqOk = true ↔
      s.validCh (irqCh s.curIrq) = true ∧ hasIrqLabel s.curIrq s.irqPc = true ∧
      (s.irqPc = .g1 → (s.chan (irqCh s.curIrq)).rxPending = true) ∧
      (s.irqPc = .p2 ∨ s.irqPc = .p3 → (s.chan (irqCh s.curIrq)).txe = true) := by
  unfold State.irqSeqOk
  rw [hrun]
  cases s.irqPc <;> simp [hasIrqLabel, and_assoc]

/-- A step of another agent keeps IRQ's sequencer sound: it leaves the sequencer alone, and reads no arrival and makes
no transmitter busy while a handler runs. -/
theorem irqSeqOk_frame {s t : State} (h : s.irqSeqOk = true) (hcfg : t.cfg = s.cfg) (hrun : t.inHandler = s.inHandler)
    (hpc : t.irqPc = s.irqPc) (hcur : t.curIrq = s.curIrq)
    (hchan : s.inHandler = true → ∀ c, ((s.chan c).rxPending = true → (t.chan c).rxPending = true) ∧
      ((s.chan c).txe = true → (t.chan c).txe = true)) : t.irqSeqOk = true := by
  cases hr : s.inHandler with
  | false => rwa [irqSeqOk_stopped (hrun.trans hr), hpc, ← irqSeqOk_stopped hr]
  | true =>
    obtain ⟨hch, hl, hg1, hpump⟩ := (irqSeqOk_running hr).mp h
    obtain ⟨hrx, htxe⟩ := hchan hr (irqCh s.curIrq)
    rw [irqSeqOk_running (hrun.trans hr), hpc, hcur]
    exact ⟨by simpa [State.validCh, hcfg] using hch, hl, fun h1 => hrx (hg1 h1), fun h2 => htxe (hpump h2)⟩

/-! ### The command a decoder can deliver -/

/-- A header alone decodes to a command, or to a batch of at most `K_MAX` bytes. -/
def Head.sound : Head → Bool
  | .single i => i.isCommand && i.wf 8
  | .batch _ k => decide (k ≤ Config.kMax)

theorem sound_of_decodeHeader {w : Half} {hd : Head} (h : decodeHeader w = .ok hd) : Head.sound hd = true := by
  unfold decodeHeader at h
  split at h
  · cases h; rfl
  · split at h <;> cases h
    rfl
  · split at h <;> cases h
    exact decide_eq_true (Nat.le_of_lt_succ (fieldArg w).isLt)
  · split at h <;> cases h
    rfl
  · split at h
    · split at h <;> cases h
      rfl
    · cases h
  · split at h
    · split at h <;> cases h
      rfl
    · cases h
  · split at h <;> cases h
    rfl
  · split at h <;> cases h
    rfl
  · cases h

theorem decodeCommand_sound {ws rest : List Half} {i : Instr} (h : decodeCommand ws = .instr i rest) :
    i.isCommand = true ∧ i.wf 8 = true := by
  cases ws with
  | nil => cases h
  | cons w ws =>
    simp only [decodeCommand] at h
    split at h
    · cases h
    · next j hj =>
        cases h
        exact Bool.and_eq_true_iff.mp (sound_of_decodeHeader hj)
    · next ch k hk =>
        have hmax : k ≤ Config.kMax := of_decide_eq_true (sound_of_decodeHeader hk)
        split at h
        · cases h
        · split at h
          · cases h
            refine ⟨rfl, decide_eq_true ?_⟩
            rw [List.length_map, List.length_take]
            exact (Nat.min_le_left _ _).trans hmax
          · cases h

end Sys2Proof.Machine
end

/-! ## The buffers, and HOST's micro-steps, keep the invariant (R26, R37, R98, R148) -/

section
namespace Sys2Proof.Machine

/-! ### The buffers -/

/-- Every buffer satisfies R26. -/
def State.RingsInv (s : State) : Prop := ∀ c d, Ring.Inv s.cfg.cap (s.ring c d)

theorem ringsInv_iff (s : State) :
    s.RingsInv ↔ ∀ c, Ring.Inv s.cfg.cap (s.ring c .out) ∧ Ring.Inv s.cfg.cap (s.ring c .inp) :=
  ⟨fun h c => ⟨h c .out, h c .inp⟩, fun h c d => by cases d; exacts [(h c).1, (h c).2]⟩

theorem one_le_cap {p : Params} (h : p.wf = true) : 1 ≤ p.cap := by
  simp only [Params.wf, Bool.and_eq_true, decide_eq_true_eq] at h
  exact h.1.1

theorem inv_setRing {cap : Nat} {x : Chan} {d : Dir} {F : Ring} (h : ∀ d, Ring.Inv cap (x.ring d))
    (hF : Ring.Inv cap F) (d' : Dir) : Ring.Inv cap ((x.setRing d F).ring d') := by
  by_cases hd : d = d'
  · subst hd; rwa [ring_setRing_chan]
  · rw [ring_setRing_other x F hd]; exact h d'

theorem chanMove_inv {cap : Nat} {i : Instr} {x y : Chan} (h : ChanMove cap i x y)
    (hx : ∀ d, Ring.Inv cap (x.ring d)) : ∀ d, Ring.Inv cap (y.ring d) := by
  cases h with
  | pushed d v _ hroom => exact inv_setRing hx (inv_pushed v (hx d) hroom)
  | popped d _ hheld => exact inv_setRing hx (inv_popped (hx d) hheld)
  | _ => intro d; cases d; exacts [hx .out, hx .inp]

theorem chanStep_inv {cap : Nat} {c : ChNum} {e : Event} {x y : Chan} (h : ChanStep cap c x e y) (hcap : 1 ≤ cap)
    (hx : ∀ d, Ring.Inv cap (x.ring d)) : ∀ d, Ring.Inv cap (y.ring d) := by
  cases h with
  | moved _ _ hm => exact chanMove_inv hm hx
  | reset n => intro d; cases d; exacts [inv_fresh n hcap, inv_fresh (n + 1) hcap]
  | _ => intro d; cases d; exacts [hx .out, hx .inp]

theorem eventStep_ringsInv {s t : State} {e : Event} (h : s.eventStep e = .next t) (hwf : s.cfg.wf = true)
    (hs : s.RingsInv) : t.RingsInv := by
  intro c
  rw [eventStep_cfg h]
  exact chanStep_inv (eventStep_chanStep h c) (one_le_cap hwf) (hs c)

/-! ### A micro-step of a command -/

theorem legalResponse_none (b : Byte) : legalResponse (responseWord .none b) = true := by
  have h : (responseWord .none b).toNat = b.toNat := by
    rw [responseWord, BitVec.toNat_append]
    simp [ErrVal.code]
  have hlt : (responseWord .none b).toNat < 256 := by
    have := b.isLt
    omega
  simp [legalResponse, hlt]

/-- The core answers every error but the two unexpected ones (R98, R207). -/
theorem legalResponse_error {e : ErrVal} (h1 : e ≠ .unexpectedFull) (h2 : e ≠ .unexpectedEmpty) :
    legalResponse (responseWord e 0) = true := by
  cases e with
  | unexpectedFull => exact absurd rfl h1
  | unexpectedEmpty => exact absurd rfl h2
  | _ => decide

/-- HOST's part of the invariant after a micro-step of command `i`. -/
def CommandSound (s t : State) (i : Instr) : Prop :=
  t.hostSeqOk = true ∧
    (t.hostlog = s.hostlog ∨ ∃ r, legalResponse r = true ∧ t.hostlog = s.hostlog ++ [(i, r)])

theorem commandSound_of_answers {s u : State} {i : Instr} {e : ErrVal} {b : Byte} (hu : u.hostlog = s.hostlog)
    (hr : legalResponse (responseWord e b) = true) : CommandSound s (u.respond i e b) i :=
  ⟨rfl, .inr ⟨_, hr, by rw [respond_hostlog, hu]⟩⟩

theorem commandSound_of_goesOn {s t : State} {i : Instr} (hs : s.hostSeqOk = true) (hcmd : s.hostCmd = some i)
    (hcmd' : t.hostCmd = s.hostCmd) (hlog : t.hostlog = s.hostlog) (hl : hasHostLabel i t.hostPc = true)
    (hch : ∀ c, i.chan? = some c → t.validCh c = true)
    (hfit : t.hostPc = .s2 → ∀ c p, i = .enqOut c p →
      t.hostI < p.length ∧ (t.ring c .out).occ + (p.length - t.hostI) ≤ t.cfg.cap) : CommandSound s t i := by
  obtain ⟨-, -, hwf, -⟩ := (hostSeqOk_some hcmd).mp hs
  exact ⟨(hostSeqOk_some (hcmd'.trans hcmd)).mpr ⟨hl, fun _ => hch, hwf, hfit⟩, .inl hlog⟩

theorem hasHostLabel_afterCheck {i : Instr} {c : ChNum} (hi : i.isCommand = true) (hc : i.chan? = some c) :
    hasHostLabel i (afterCheck i) = true := by
  cases i with
  | ieSet => cases hc
  | ieClr => cases hc
  | rxirq c => cases hi
  | txirq c => cases hi
  | _ => rfl

theorem afterCheck_ne_s2 (i : Instr) : afterCheck i ≠ .s2 := by
  cases i <;> simp [afterCheck]

theorem checkChannel_sound {s t : State} {i : Instr} {c : ChNum} (h : s.checkChannel i c (afterCheck i) = .next t)
    (hs : s.hostSeqOk = true) (hcmd : s.hostCmd = some i) (hi : i.isCommand = true) (hc : i.chan? = some c) :
    CommandSound s t i := by
  rcases checkChannel_cases s i c (afterCheck i) with ⟨hv, hn⟩ | ⟨-, hn⟩ <;>
    obtain rfl := Host.Outcome.next.inj (hn.symm.trans h)
  · refine commandSound_of_goesOn hs hcmd rfl rfl (hasHostLabel_afterCheck hi hc) (fun c' hc' => ?_)
      (fun hs2 => absurd hs2 (afterCheck_ne_s2 i))
    obtain rfl := Option.some.inj (hc.symm.trans hc')
    exact hv
  · exact commandSound_of_answers rfl (legalResponse_error (by decide) (by decide))

theorem pushAndRespond_sound {s t : State} {i : Instr} {c : ChNum} {d : Dir} {v : Byte}
    (h : s.pushAndRespond i c d v = .next t) : CommandSound s t i := by
  rcases pushAndRespond_next h with ⟨-, rfl⟩ | ⟨-, -, rfl⟩
  · exact commandSound_of_answers rfl (legalResponse_error (by decide) (by decide))
  · exact commandSound_of_answers rfl (legalResponse_none 0)

theorem popAndRespond_sound {s t : State} {i : Instr} {c : ChNum} {d : Dir} (h : s.popAndRespond i c d = .next t) :
    CommandSound s t i := by
  rcases popAndRespond_next h with ⟨-, rfl⟩ | ⟨-, -, rfl⟩
  · exact commandSound_of_answers rfl (legalResponse_error (by decide) (by decide))
  · exact commandSound_of_answers rfl (legalResponse_none _)

/-- A micro-step of `ENQ_OUT c p` that leaves the fill, or is none of it, has nothing to check of the room. -/
theorem commandSound_enqOut {s t : State} {c : ChNum} {p : List Byte} (hs : s.hostSeqOk = true)
    (hcmd : s.hostCmd = some (.enqOut c p)) (hcmd' : t.hostCmd = s.hostCmd) (hlog : t.hostlog = s.hostlog)
    (hpc : t.hostPc ≠ .idle) (hch : t.validCh c = true)
    (hfit : t.hostPc = .s2 → t.hostI < p.length ∧ (t.ring c .out).occ + (p.length - t.hostI) ≤ t.cfg.cap) :
    CommandSound s t (.enqOut c p) := by
  refine commandSound_of_goesOn hs hcmd hcmd' hlog (by simpa [hasHostLabel] using hpc) (fun c' hc' => ?valid)
    (fun hs2 c' p' hi => ?fits)
  case valid => obtain rfl := Option.some.inj hc'; exact hch
  case fits => cases hi; exact hfit hs2

theorem preCheck_sound {s t : State} {c : ChNum} {p : List Byte} (h : s.preCheck c p = .next t)
    (hs : s.hostSeqOk = true) (hcmd : s.hostCmd = some (.enqOut c p)) (hch : s.validCh c = true)
    (hF : Ring.Inv s.cfg.cap (s.ring c .out)) : CommandSound s t (.enqOut c p) := by
  rcases preCheck_next h with ⟨-, rfl⟩ | ⟨hroom, rfl⟩
  · exact commandSound_of_answers rfl (legalResponse_error (by decide) (by decide))
  · obtain ⟨hocc, -⟩ := hF
    unfold Ring.room at hroom
    cases p with
    | nil => exact commandSound_enqOut hs hcmd rfl rfl (by simp) hch (by simp)
    | cons v p =>
      refine commandSound_enqOut hs hcmd rfl rfl (by simp) hch (fun _ => ⟨Nat.zero_lt_succ _, ?_⟩)
      show (s.ring c .out).occ + ((v :: p).length - 0) ≤ s.cfg.cap
      omega

theorem fillStep_sound {s t : State} {c : ChNum} {p : List Byte} (h : s.fillStep c p = .next t)
    (hs : s.hostSeqOk = true) (hcmd : s.hostCmd = some (.enqOut c p)) (hpc : s.hostPc = .s2)
    (hch : s.validCh c = true) : CommandSound s t (.enqOut c p) := by
  obtain ⟨-, -, -, hfit⟩ := (hostSeqOk_some hcmd).mp hs
  obtain ⟨hlt, hroom⟩ := hfit hpc c p rfl
  obtain ⟨v, -, ⟨hfull, -⟩ | ⟨-, -, rfl⟩⟩ := fillStep_next h
  · omega
  · by_cases hmore : s.hostI + 1 < p.length
    · refine commandSound_enqOut hs hcmd rfl rfl (by simp [hmore]) hch (fun _ => ⟨hmore, ?_⟩)
      show ((s.setRing c .out (Ring.pushed s.cfg.cap (s.ring c .out) v)).ring c .out).occ +
        (p.length - (s.hostI + 1)) ≤ s.cfg.cap
      rw [ring_setRing_same]
      simp only [Ring.pushed]
      omega
    · exact commandSound_enqOut hs hcmd rfl rfl (by simp [hmore]) hch (by simp [hmore])

theorem armCheck_sound {s t : State} {c : ChNum} {p : List Byte} (h : s.armCheck c p = .next t)
    (hs : s.hostSeqOk = true) (hcmd : s.hostCmd = some (.enqOut c p)) (hch : s.validCh c = true) :
    CommandSound s t (.enqOut c p) := by
  rcases armCheck_next h with ⟨-, rfl⟩ | ⟨-, rfl⟩
  · exact commandSound_enqOut hs hcmd rfl rfl (by simp) hch (by simp)
  · exact commandSound_of_answers rfl (legalResponse_none 0)

/-- The two commands with a pump have its labels, and answer no error that is unexpected. -/
theorem hostPump_sound {s t : State} {i : Instr} {c : ChNum} {ret : ErrVal → ErrVal} {pc : PumpPc}
    (h : s.hostPump i c ret pc = .next t) (hs : s.hostSeqOk = true) (hcmd : s.hostCmd = some i)
    (hch : s.validCh c = true) (hc : i.chan? = some c)
    (hl : hasHostLabel i .p2 = true ∧ hasHostLabel i .p3 = true) (hret : ret = id ∨ ret = fun _ => .none) :
    CommandSound s t i := by
  have hlegal : ∀ e, e = .hardwareNotReady ∨ e = .empty ∨ e = .none →
      legalResponse (responseWord (ret e) 0) = true := by
    rcases hret with rfl | rfl
    · rintro e (rfl | rfl | rfl) <;> decide
    · exact fun e _ => legalResponse_none 0
  have hgo : ∀ u : State, u.hostCmd = s.hostCmd → u.hostlog = s.hostlog → u.cfg = s.cfg →
      u.hostPc = .p2 ∨ u.hostPc = .p3 → CommandSound s u i := by
    intro u hcmd' hlog hcfg hpc
    refine commandSound_of_goesOn hs hcmd hcmd' hlog ?label (fun c' hc' => ?valid) (fun hs2 => ?fits)
    case label => rcases hpc with hpc | hpc <;> rw [hpc]; exacts [hl.1, hl.2]
    case valid =>
      obtain rfl := Option.some.inj (hc.symm.trans hc')
      simpa [State.validCh, hcfg] using hch
    case fits => rcases hpc with hpc | hpc <;> rw [hpc] at hs2 <;> cases hs2
  rcases hostPump_next h with ⟨-, -, rfl⟩ | ⟨-, -, rfl⟩ | ⟨-, -, rfl⟩ | ⟨-, -, -, rfl⟩ | ⟨-, rfl⟩
  · exact hgo _ rfl rfl rfl (.inl rfl)
  · exact commandSound_of_answers rfl (hlegal _ (.inl rfl))
  · exact commandSound_of_answers rfl (hlegal _ (.inr (.inl rfl)))
  · exact hgo _ rfl rfl rfl (.inr rfl)
  · exact commandSound_of_answers (by rw [writeTxData_eq]) (hlegal _ (.inr (.inr rfl)))

theorem command_sound {s t : State} {i : Instr} (h : MicroStep s t i) (hi : i.isCommand = true)
    (hs : s.hostSeqOk = true) (hcmd : s.hostCmd = some i) (hF : s.RingsInv) : CommandSound s t i := by
  cases h with
  | check hc hi _ h => exact checkChannel_sound h hs hcmd hi hc
  | push _ _ h => exact pushAndRespond_sound h
  | pop _ _ h => exact popAndRespond_sound h
  | enqIn _ _ h => exact pushAndRespond_sound h
  | deqIn _ _ h => exact popAndRespond_sound h
  | preCheck _ hch h => exact preCheck_sound h hs hcmd hch (hF _ _)
  | fill hpc hch h => exact fillStep_sound h hs hcmd hpc hch
  | armCheck _ hch h => exact armCheck_sound h hs hcmd hch
  | enqOutPump _ _ hch h => exact hostPump_sound h hs hcmd hch rfl ⟨rfl, rfl⟩ (.inr rfl)
  | pump _ _ hch h => exact hostPump_sound h hs hcmd hch rfl ⟨rfl, rfl⟩ (.inl rfl)
  | ieSet _ h => subst h; exact commandSound_of_answers rfl (legalResponse_none 0)
  | ieClr _ h => subst h; exact commandSound_of_answers rfl (legalResponse_none 0)
  | take => cases hi
  | store => cases hi
  | leaveRx => cases hi
  | txPump => cases hi
  | leaveTx => cases hi

end Sys2Proof.Machine
end

/-! ## A handler's micro-step, and every event, keeps the invariant -/

section
namespace Sys2Proof.Machine

/-! ### A micro-step of a handler -/

/-- A handler pushes into no output buffer. -/
theorem chanMove_out_occ_le {cap : Nat} {i : Instr} {x y : Chan} (h : ChanMove cap i x y)
    (hpush : pushesInto i .out = false) : (y.ring .out).occ ≤ (x.ring .out).occ := by
  cases h with
  | pushed d v hd _ => exact (congrArg Ring.occ (setRing_out x _ (show d ≠ .out by rintro rfl; simp [hpush] at hd))).le
  | popped d _ _ =>
    cases d with
    | out => exact Nat.sub_le _ 1
    | inp => exact le_rfl
  | _ => exact le_rfl

theorem exec_out_occ_le {s t : State} {i : Instr} (h : exec i s = .next t) (hpush : pushesInto i .out = false)
    (c : ChNum) : (t.ring c .out).occ ≤ (s.ring c .out).occ := by
  rcases exec_movesChans h c with heq | ⟨-, hm⟩
  · exact (congrArg (fun x => (Chan.ring x .out).occ) heq).le
  · exact chanMove_out_occ_le hm hpush

theorem pushesInto_decodeRequest_out (r : IrqNum) : pushesInto (decodeRequest r) .out = false := by
  unfold decodeRequest
  split <;> rfl

theorem exec_handlerShape {s t : State} {r : IrqNum} (h : exec (decodeRequest r) s = .next t) : HandlerShape s t := by
  rcases microStep_shape (exec_microStep h) with ⟨hi, -⟩ | ⟨-, hs⟩
  · rw [decodeRequest_isCommand] at hi; cases hi
  · exact hs

theorem handlerShape_host {s t : State} (h : HandlerShape s t) :
    t.hostPc = s.hostPc ∧ t.hostCmd = s.hostCmd ∧ t.hostI = s.hostI ∧ t.hostB = s.hostB ∧ t.hostlog = s.hostlog := by
  cases h <;> exact ⟨rfl, rfl, rfl, rfl, rfl⟩

theorem irqSeqOk_leaveHandler (s : State) : s.leaveHandler.irqSeqOk = true := rfl

theorem irqSeqOk_goesOn {t : State} {c : ChNum} (hrun : t.inHandler = true) (hcur : irqCh t.curIrq = c)
    (hch : t.validCh c = true) (hl : hasIrqLabel t.curIrq t.irqPc = true) (hg1 : t.irqPc ≠ .g1)
    (htxe : t.irqPc = .p2 ∨ t.irqPc = .p3 → (t.chan c).txe = true) : t.irqSeqOk = true := by
  subst hcur
  exact (irqSeqOk_running hrun).mpr ⟨hch, hl, fun h => absurd h hg1, htxe⟩

theorem rxirq_irqSeqOk {s t : State} {c : ChNum} (h : MicroStep s t (.rxirq c)) (hrun : s.inHandler = true)
    (hcur : irqCh s.curIrq = c) (hrx : irqIsTx s.curIrq = false) : t.irqSeqOk = true := by
  cases h with
  | check _ hi => cases hi
  | take _ hch h =>
    obtain rfl := Host.Outcome.next.inj h
    exact irqSeqOk_goesOn hrun hcur hch (by simp [hasIrqLabel, State.readRxData, hrx]) (by simp) (by simp)
  | store _ hch h =>
    rcases storeArrival_next h with ⟨-, rfl⟩ | ⟨-, -, rfl⟩ <;>
      exact irqSeqOk_goesOn hrun hcur hch (by simp [hasIrqLabel, hrx]) (by simp) (by simp)
  | leaveRx _ _ h => subst h; exact irqSeqOk_leaveHandler s

theorem txirq_irqSeqOk {s t : State} {c : ChNum} (h : MicroStep s t (.txirq c)) (hs : s.irqSeqOk = true)
    (hrun : s.inHandler = true) (hcur : irqCh s.curIrq = c) (htx : irqIsTx s.curIrq = true) : t.irqSeqOk = true := by
  cases h with
  | check _ hi => cases hi
  | txPump pc hpc hch h =>
    obtain ⟨-, -, -, hready⟩ := (irqSeqOk_running hrun).mp hs
    rw [hcur, hpc] at hready
    rcases irqPump_next h with ⟨-, hx, rfl⟩ | ⟨-, -, rfl⟩ | ⟨-, -, rfl⟩ | ⟨rfl, -, -, rfl⟩ | ⟨-, rfl⟩
    · exact irqSeqOk_goesOn hrun hcur hch htx (by simp) (fun _ => hx)
    · exact irqSeqOk_goesOn hrun hcur hch htx (by simp) (by simp)
    · exact irqSeqOk_goesOn hrun hcur hch htx (by simp) (by simp)
    · refine irqSeqOk_goesOn hrun hcur hch htx (by simp) (fun _ => ?_)
      refine (congrArg Chan.txe (chan_setChan_same s c _)).trans ?_
      rw [setRing_chan_txe]
      exact hready (.inl rfl)
    · rw [writeTxData_eq]; exact irqSeqOk_goesOn hrun hcur hch htx (by simp) (by simp)
  | leaveTx _ _ h => subst h; exact irqSeqOk_leaveHandler s

theorem handler_irqSeqOk {s t : State} (h : exec (decodeRequest s.curIrq) s = .next t) (hs : s.irqSeqOk = true)
    (hrun : s.inHandler = true) : t.irqSeqOk = true := by
  have hstep := exec_microStep h
  unfold decodeRequest at hstep
  split at hstep
  · next htx => exact txirq_irqSeqOk hstep hs hrun rfl htx
  · next htx => exact rxirq_irqSeqOk hstep hrun rfl (Bool.eq_false_of_not_eq_true htx)

/-! ### Every event -/

/-- The part of the invariant beside the parameters and the buffers. -/
def State.SeqsInv (s : State) : Prop :=
  s.hostSeqOk = true ∧ s.irqSeqOk = true ∧ s.hostlog.all (fun x => legalResponse x.2) = true

theorem inv_iff (s : State) : s.Inv ↔ s.cfg.wf = true ∧ s.RingsInv ∧ s.SeqsInv := by
  rw [ringsInv_iff]
  rfl

theorem commandShape_irq {s t : State} {i : Instr} (h : CommandShape s i t) :
    t.inHandler = s.inHandler ∧ t.irqPc = s.irqPc ∧ t.curIrq = s.curIrq ∧ t.irqB = s.irqB := by
  cases h <;> exact ⟨rfl, rfl, rfl, rfl⟩

theorem exec_commandShape {s t : State} {i : Instr} (h : exec i s = .next t) (hi : i.isCommand = true) :
    CommandShape s i t := by
  rcases microStep_shape (exec_microStep h) with ⟨-, hs⟩ | ⟨hi', -⟩
  · exact hs
  · rw [hi] at hi'; cases hi'

theorem command_seqsInv {s t : State} {i : Instr} (h : exec i s = .next t) (hi : i.isCommand = true)
    (hcmd : s.hostCmd = some i) (hidle : s.inHandler = false) (hF : s.RingsInv) (hs : s.SeqsInv) : t.SeqsInv := by
  obtain ⟨hhost, hirq, hlog⟩ := hs
  obtain ⟨hhost', hlog'⟩ := command_sound (exec_microStep h) hi hhost hcmd hF
  obtain ⟨hrun, hpc, hcur, -⟩ := commandShape_irq (exec_commandShape h hi)
  refine ⟨hhost', irqSeqOk_frame hirq (exec_cfg h) hrun hpc hcur (by simp [hidle]), ?_⟩
  rcases hlog' with heq | ⟨r, hr, heq⟩
  · rwa [heq]
  · rw [heq, List.all_append, hlog]; simp [hr]

/-- A command just taken stands at its first label. -/
theorem accept_seqsInv {s : State} {i : Instr} {rest : List Half} (hs : s.SeqsInv)
    (hi : i.isCommand = true) (hwf : i.wf 8 = true) : (s.accept i rest).SeqsInv := by
  obtain ⟨-, hirq, hlog⟩ := hs
  refine ⟨(hostSeqOk_some rfl).mpr ?_, irqSeqOk_frame hirq rfl rfl rfl rfl (fun _ _ => ⟨id, id⟩), hlog⟩
  rw [accept_hostPc]
  cases i with
  | rxirq c => cases hi
  | txirq c => cases hi
  | _ => simp [firstLabel, hasHostLabel, Instr.chan?, hwf]

theorem hostEnabled_idle {s : State} (h : s.hostEnabled = true) : s.inHandler = false := by
  by_contra hrun
  rw [hostEnabled_of_inHandler (Bool.eq_true_of_not_eq_false hrun)] at h
  cases h

theorem hostStep_seqsInv {s t : State} (h : s.hostStep = .next t) (hF : s.RingsInv) (hs : s.SeqsInv) : t.SeqsInv := by
  obtain ⟨hen, ⟨-, why, rest, -, rfl⟩ | ⟨-, i, rest, hd, h⟩ | ⟨-, i, hc, h⟩⟩ := hostStep_cases h
  · exact hs
  · obtain ⟨hi, hwf⟩ := decodeCommand_sound hd
    have hidle : (s.accept i rest).inHandler = false := hostEnabled_idle (s := s) hen
    exact command_seqsInv h hi rfl hidle hF (accept_seqsInv hs hi hwf)
  · obtain ⟨hhost, -⟩ := id hs
    obtain ⟨hl, -⟩ := (hostSeqOk_some hc).mp hhost
    exact command_seqsInv h (hasHostLabel_isCommand hl) hc (hostEnabled_idle hen) hF hs

theorem irqStep_seqsInv {s t : State} (h : s.irqStep = .next t) (hs : s.SeqsInv) : t.SeqsInv := by
  obtain ⟨hrun, -, h⟩ := irqStep_cases h
  obtain ⟨hhost, hirq, hlog⟩ := hs
  obtain ⟨hpc, hcmd, hI, -, hlog'⟩ := handlerShape_host (exec_handlerShape h)
  exact ⟨hostSeqOk_frame hhost (exec_cfg h) hpc hcmd hI (exec_out_occ_le h (pushesInto_decodeRequest_out _)),
    handler_irqSeqOk h hirq hrun, by rwa [hlog']⟩

/-- A granted request is pending, and its handler starts at its first label. -/
theorem enterHandler_seqsInv {s : State} {r : IrqNum} (h : s.canGrant r = true) (hs : s.SeqsInv) :
    (s.enterHandler r).SeqsInv := by
  obtain ⟨hhost, -, hlog⟩ := hs
  obtain ⟨-, -, hpend⟩ := canGrant_spec h
  obtain ⟨hch, hflag⟩ := Bool.and_eq_true_iff.mp hpend
  refine ⟨hostSeqOk_frame hhost (enterHandler_cfg s r) (enterHandler_hostPc s r) (enterHandler_hostCmd s r)
    (enterHandler_hostI s r) (fun c => by rw [ring_enterHandler]), ?irq, by rwa [enterHandler_hostlog]⟩
  rw [irqSeqOk_running (enterHandler_inHandler s r), enterHandler_curIrq, enterHandler_irqPc, chan_enterHandler]
  refine ⟨by simpa [State.validCh] using hch, ?_⟩
  unfold firstIrqLabel
  by_cases htx : irqIsTx r = true
  · simp [htx, hasIrqLabel]
  · simpa [htx, hasIrqLabel] using hflag

/-- The steps of the UART leave both sequencers alone, and clear neither an arrival nor a ready transmitter. -/
theorem uart_seqsInv {s t : State} (hs : s.SeqsInv)
    (heq : t = { s with chans := t.chans, freeCtr := t.freeCtr })
    (hchan : ∀ c, (t.chan c).out = (s.chan c).out ∧ ((s.chan c).rxPending = true → (t.chan c).rxPending = true) ∧
      ((s.chan c).txe = true → (t.chan c).txe = true)) : t.SeqsInv := by
  obtain ⟨hhost, hirq, hlog⟩ := hs
  refine ⟨hostSeqOk_frame hhost (by rw [heq]) (by rw [heq]) (by rw [heq]) (by rw [heq]) (fun c => ?_),
    irqSeqOk_frame hirq (by rw [heq]) (by rw [heq]) (by rw [heq]) (by rw [heq]) (fun _ c => (hchan c).2),
    by rw [heq]; exact hlog⟩
  exact (congrArg Ring.occ (hchan c).1).le

/-- What the UART's events do to a channel. -/
theorem chanStep_uart {cap : Nat} {c : ChNum} {e : Event} {x y : Chan} (h : ChanStep cap c x e y)
    (he : (∃ c', e = .txDone c') ∨ ∃ c' b, e = .rxArrive c' b) :
    y.out = x.out ∧ (x.rxPending = true → y.rxPending = true) ∧ (x.txe = true → y.txe = true) := by
  cases h with
  | moved hagent => rcases he with ⟨c', rfl⟩ | ⟨c', b, rfl⟩ <;> simp at hagent
  | granted => simp at he
  | reset => simp at he
  | _ => simp

theorem eventStep_seqsInv {s t : State} {e : Event} (h : s.eventStep e = .next t) (hF : s.RingsInv)
    (hs : s.SeqsInv) : t.SeqsInv := by
  have hchan := eventStep_chanStep h
  cases e with
  | host => exact hostStep_seqsInv h hF hs
  | irq => exact irqStep_seqsInv h hs
  | grant r => obtain ⟨hg, rfl⟩ := grant_next h; exact enterHandler_seqsInv hg hs
  | txDone c =>
    obtain ⟨-, -, rfl⟩ := txDone_next h
    exact uart_seqsInv hs rfl (fun c' => chanStep_uart (hchan c') (.inl ⟨c, rfl⟩))
  | rxArrive c b =>
    obtain ⟨-, rfl⟩ := rxArrive_next h
    exact uart_seqsInv hs (arrive_eq s c b) (fun c' => chanStep_uart (hchan c') (.inr ⟨c, b, rfl⟩))
  | reset => obtain rfl := Host.Outcome.next.inj h; exact ⟨rfl, rfl, rfl⟩

theorem eventStep_inv {s t : State} {e : Event} (h : s.eventStep e = .next t) (hs : s.Inv) : t.Inv := by
  obtain ⟨hwf, hF, hseqs⟩ := (inv_iff s).mp hs
  exact (inv_iff t).mpr ⟨by rwa [eventStep_cfg h], eventStep_ringsInv h hwf hF, eventStep_seqsInv h hF hseqs⟩

theorem inv_sched (s : State) (es : List Event) : State.Inv { s with sched := es } ↔ s.Inv := Iff.rfl

/-- Settles O41: every event keeps the buffers' invariant, as its moves are pushes with room and pops of held bytes,
and both sequencers, as each agent's step moves its own to a label of its table. -/
theorem everyStepKeepsTheInvariant : Obligations.EveryStepKeepsTheInvariant := by
  intro s t hs h
  rcases step_cases h with ⟨e, es, -, he⟩ | ⟨-, e, -, he⟩ | ⟨-, -, rfl⟩
  · exact eventStep_inv he ((inv_sched s es).mpr hs)
  · exact eventStep_inv he hs
  · exact hs

end Sys2Proof.Machine
end

/-! ## Under the invariant every enabled step has a next state (R22, R61, R200) -/

section
namespace Sys2Proof.Machine

/-! ### The shared operations on sound buffers -/

theorem pushRing_ok {s : State} {c : ChNum} {d : Dir} (v : Byte) (hF : s.RingsInv) :
    ∃ e t, s.pushRing c d v = .ok (e, t) := by
  obtain ⟨e, G, hG, -⟩ := ring_push_keeps_inv v (hF c d)
  exact ⟨e, _, by rw [pushRing_eq, hG]⟩

theorem popRing_ok {s : State} {c : ChNum} {d : Dir} (hF : s.RingsInv) : ∃ r t, s.popRing c d = .ok (r, t) := by
  obtain ⟨r, G, hG, -⟩ := ring_pop_keeps_inv (hF c d)
  exact ⟨r, _, by rw [popRing_eq, hG]⟩

theorem onChannel_ok {s : State} {c : ChNum} {act : Host.Outcome State Fault Refusal} (hch : s.validCh c = true)
    (h : ∃ t, act = .next t) : ∃ t, s.onChannel c act = .next t := by
  rwa [onChannel_valid act hch]

theorem checkChannel_ok (s : State) (i : Instr) (c : ChNum) (pc : HostPc) : ∃ t, s.checkChannel i c pc = .next t := by
  rcases checkChannel_cases s i c pc with ⟨-, h⟩ | ⟨-, h⟩ <;> exact ⟨_, h⟩

theorem pushAndRespond_ok {s : State} (i : Instr) (c : ChNum) (d : Dir) (v : Byte) (hF : s.RingsInv) :
    ∃ t, s.pushAndRespond i c d v = .next t := by
  obtain ⟨e, t, h⟩ := pushRing_ok (c := c) (d := d) v hF
  exact ⟨_, by rw [State.pushAndRespond, h]⟩

theorem popAndRespond_ok {s : State} (i : Instr) (c : ChNum) (d : Dir) (hF : s.RingsInv) :
    ∃ t, s.popAndRespond i c d = .next t := by
  obtain ⟨r, t, h⟩ := popRing_ok (c := c) (d := d) hF
  cases r <;> exact ⟨_, by rw [State.popAndRespond, h]⟩

theorem preCheck_ok (s : State) (c : ChNum) (p : List Byte) : ∃ t, s.preCheck c p = .next t := by
  unfold State.preCheck
  dsimp only
  split <;> exact ⟨_, rfl⟩

theorem fillStep_ok {s : State} (c : ChNum) {p : List Byte} (hlt : s.hostI < p.length) (hF : s.RingsInv) :
    ∃ t, s.fillStep c p = .next t := by
  obtain ⟨e, t, h⟩ := pushRing_ok (c := c) (d := .out) p[s.hostI] hF
  unfold State.fillStep
  rw [List.getElem?_eq_getElem hlt]
  dsimp only
  rw [h]
  cases e <;> exact ⟨_, rfl⟩

theorem armCheck_ok (s : State) (c : ChNum) (p : List Byte) : ∃ t, s.armCheck c p = .next t := by
  unfold State.armCheck
  split <;> exact ⟨_, rfl⟩

/-- No micro-step of a pump on a sound buffer faults. -/
theorem pumpStep_ok {s : State} (c : ChNum) (b : Byte) (pc : PumpPc) (hF : s.RingsInv) (f : Fault) :
    s.pumpStep c b pc ≠ .fault f := by
  cases pc with
  | p1 => cases hx : s.readTxe c <;> simp [State.pumpStep, hx]
  | p2 =>
    obtain ⟨r, t, h⟩ := popRing_ok (c := c) (d := .out) hF
    cases r <;> simp [State.pumpStep, h]
  | p3 => simp [State.pumpStep]

theorem hostPump_ok {s : State} (i : Instr) (c : ChNum) (ret : ErrVal → ErrVal) (pc : PumpPc) (hF : s.RingsInv) :
    ∃ t, s.hostPump i c ret pc = .next t := by
  unfold State.hostPump
  split
  · next f h => exact absurd h (pumpStep_ok c _ pc hF f)
  all_goals exact ⟨_, rfl⟩

theorem irqPump_ok {s : State} (c : ChNum) (pc : PumpPc) (hF : s.RingsInv) : ∃ t, s.irqPump c pc = .next t := by
  unfold State.irqPump
  split
  · next f h => exact absurd h (pumpStep_ok c _ pc hF f)
  all_goals exact ⟨_, rfl⟩

theorem storeArrival_ok {s : State} (c : ChNum) (hF : s.RingsInv) : ∃ t, s.storeArrival c = .next t := by
  obtain ⟨e, t, h⟩ := pushRing_ok (c := c) (d := .inp) s.irqB hF
  exact ⟨_, by rw [State.storeArrival, h]⟩

/-! ### The agents -/

/-- A command at a label of its own, past S0 on a channel of the core, has a next state. -/
theorem command_ok {s : State} {i : Instr} (hs : s.hostSeqOk = true) (hcmd : s.hostCmd = some i) (hF : s.RingsInv) :
    ∃ t, exec i s = .next t := by
  obtain ⟨hl, hch, -, hfit⟩ := (hostSeqOk_some hcmd).mp hs
  cases i with
  | push d c v =>
    simp only [exec, execPush]
    split
    · exact checkChannel_ok _ _ _ _
    · next hpc => exact onChannel_ok (hch (by simp [hpc]) c rfl) (pushAndRespond_ok _ _ _ _ hF)
    · simp_all [hasHostLabel]
  | pop d c =>
    simp only [exec, execPop]
    split
    · exact checkChannel_ok _ _ _ _
    · next hpc => exact onChannel_ok (hch (by simp [hpc]) c rfl) (popAndRespond_ok _ _ _ hF)
    · simp_all [hasHostLabel]
  | enqOut c p =>
    have hv : s.hostPc ≠ .s0 → s.validCh c = true := fun h => hch h c rfl
    simp only [exec, execEnqOut]
    split
    · exact checkChannel_ok _ _ _ _
    · next hpc => exact onChannel_ok (hv (by simp [hpc])) (preCheck_ok _ _ _)
    · next hpc => exact onChannel_ok (hv (by simp [hpc])) (fillStep_ok _ (hfit hpc c p rfl).1 hF)
    · next hpc => exact onChannel_ok (hv (by simp [hpc])) (armCheck_ok _ _ _)
    · next hpc => exact onChannel_ok (hv (by simp [hpc])) (hostPump_ok _ _ _ _ hF)
    · next hpc => exact onChannel_ok (hv (by simp [hpc])) (hostPump_ok _ _ _ _ hF)
    · next hpc => exact onChannel_ok (hv (by simp [hpc])) (hostPump_ok _ _ _ _ hF)
    · next hpc => simp [hasHostLabel, hpc] at hl
  | enqIn c v =>
    simp only [exec, execEnqIn]
    split
    · exact checkChannel_ok _ _ _ _
    · next hpc => exact onChannel_ok (hch (by simp [hpc]) c rfl) (pushAndRespond_ok _ _ _ _ hF)
    · simp_all [hasHostLabel]
  | deqIn c =>
    simp only [exec, execDeqIn]
    split
    · exact checkChannel_ok _ _ _ _
    · next hpc => exact onChannel_ok (hch (by simp [hpc]) c rfl) (popAndRespond_ok _ _ _ hF)
    · simp_all [hasHostLabel]
  | pump c =>
    simp only [exec, execPump]
    split
    · exact checkChannel_ok _ _ _ _
    · next hpc => exact onChannel_ok (hch (by simp [hpc]) c rfl) (hostPump_ok _ _ _ _ hF)
    · next hpc => exact onChannel_ok (hch (by simp [hpc]) c rfl) (hostPump_ok _ _ _ _ hF)
    · next hpc => exact onChannel_ok (hch (by simp [hpc]) c rfl) (hostPump_ok _ _ _ _ hF)
    · simp_all [hasHostLabel]
  | ieSet =>
    have hpc : s.hostPc = .s1 := eq_of_beq hl
    exact ⟨_, by rw [exec, execIeSet, hpc]⟩
  | ieClr =>
    have hpc : s.hostPc = .s1 := eq_of_beq hl
    exact ⟨_, by rw [exec, execIeClr, hpc]⟩
  | rxirq c => cases hl
  | txirq c => cases hl

/-- A handler at a label of its own on a channel of the core has a next state. -/
theorem handler_ok {s : State} (hch : s.validCh (irqCh s.curIrq) = true)
    (hl : hasIrqLabel s.curIrq s.irqPc = true) (hF : s.RingsInv) : ∃ t, exec (decodeRequest s.curIrq) s = .next t := by
  unfold decodeRequest
  split
  · next htx =>
      simp only [exec, execTxirq]
      split
      · exact onChannel_ok hch (irqPump_ok _ _ hF)
      · exact onChannel_ok hch (irqPump_ok _ _ hF)
      · exact onChannel_ok hch (irqPump_ok _ _ hF)
      · exact onChannel_ok hch ⟨_, rfl⟩
      · cases hpc : s.irqPc <;> simp_all [hasIrqLabel]
  · next hrx =>
      simp only [exec, execRxirq]
      split
      · exact onChannel_ok hch ⟨_, rfl⟩
      · exact onChannel_ok hch (storeArrival_ok _ hF)
      · exact onChannel_ok hch ⟨_, rfl⟩
      · cases hpc : s.irqPc <;> simp_all [hasIrqLabel]

theorem wf_decodeRequest {s : State} {r : IrqNum} (h : s.validCh (irqCh r) = true) :
    (decodeRequest r).wf s.cfg.nCh = true := by
  unfold decodeRequest
  split <;> exact h

theorem irqStep_ok {s : State} (hs : s.Inv) (hrun : s.inHandler = true) : ∃ t, s.irqStep = .next t := by
  obtain ⟨-, hF, -, hirq, -⟩ := (inv_iff s).mp hs
  obtain ⟨hch, hl, -⟩ := (irqSeqOk_running hrun).mp hirq
  rw [irqStep_of hrun rfl (wf_decodeRequest hch)]
  exact handler_ok hch hl hF

theorem hostStep_ok {s : State} (hs : s.Inv) (hen : s.hostEnabled = true) : ∃ t, s.hostStep = .next t := by
  obtain ⟨-, hF, hseqs⟩ := (inv_iff s).mp hs
  obtain ⟨hhost, -⟩ := id hseqs
  by_cases hpc : s.hostPc = .idle
  · have hready : s.commandReady = true := by simpa [State.hostEnabled, hpc] using (Bool.and_eq_true_iff.mp hen).2
    cases hd : decodeCommand s.words with
    | incomplete => simp [State.commandReady, hd] at hready
    | illegal why rest => exact ⟨s.illegalCommand rest, by simp [State.hostStep, hen, hpc, hd]⟩
    | instr i rest =>
      obtain ⟨hi, hwf⟩ := decodeCommand_sound hd
      obtain ⟨hhost', -⟩ := accept_seqsInv (rest := rest) hseqs hi hwf
      rw [hostStep_of_idle hen hpc hd]
      exact command_ok hhost' rfl hF
  · obtain ⟨i, hc⟩ := hostCmd_of_busy hhost hpc
    rw [hostStep_of_busy hen hpc hc]
    exact command_ok hhost hc hF

/-- Under the invariant an event's step is taken, or its guard is false. -/
theorem eventStep_ok {s : State} (hs : s.Inv) (e : Event) :
    (∃ t, s.eventStep e = .next t) ∨ s.eventStep e = .refused .notEnabled := by
  cases e with
  | host =>
    cases hen : s.hostEnabled with
    | true => exact .inl (hostStep_ok hs hen)
    | false => exact .inr (hostStep_disabled hen)
  | irq =>
    cases hrun : s.inHandler with
    | true => exact .inl (irqStep_ok hs hrun)
    | false => exact .inr (by simp [State.eventStep, State.irqStep, hrun])
  | grant r => by_cases hg : s.canGrant r = true <;> simp [State.eventStep, State.grant, hg]
  | txDone c => simp only [State.eventStep, State.txDone]; split <;> simp
  | rxArrive c b => simp only [State.eventStep, State.rxArrive]; split <;> simp
  | reset => exact .inl ⟨_, rfl⟩

theorem pending_of_lowest {s : State} {r : IrqNum} (h : s.lowestPending = some r) : s.pending r = true :=
  List.find?_some h

theorem canGrant_of_lowest {s : State} {r : IrqNum} (hie : s.ie = true) (hidle : s.inHandler = false)
    (h : s.lowestPending = some r) : s.canGrant r = true := by
  simp only [State.canGrant, hie, hidle, pending_of_lowest h, h]
  cases s.cfg.arbOrder <;> simp

/-- The machine's own choice is always enabled. -/
theorem ownChoice_ok {s : State} (hs : s.Inv) {e : Event} (h : s.ownChoice = some e) :
    ∃ t, s.eventStep e = .next t := by
  unfold State.ownChoice at h
  split at h
  · next hrun => cases h; exact irqStep_ok hs hrun
  · next hidle =>
      split at h
      · next r hr =>
          cases h
          split at hr
          · next hie =>
              have hg := canGrant_of_lowest hie (Bool.eq_false_of_not_eq_true hidle) hr
              exact ⟨_, by rw [State.eventStep, State.grant, if_pos hg]⟩
          · cases hr
      · split at h
        · next hen => cases h; exact hostStep_ok hs hen
        · cases h

theorem step_of_choice {s : State} {e : Event} (hs : s.sched = []) (h : s.ownChoice = some e) :
    step s = s.eventStep e := by
  simp [step, State.stepOnce, hs, h]

theorem step_of_no_choice {s : State} (hs : s.sched = []) (h : s.ownChoice = none) : step s = .next s := by
  simp [step, State.stepOnce, hs, h]

theorem step_own_ok {s : State} (hs : s.Inv) (hsched : s.sched = []) : ∃ t, step s = .next t := by
  cases h : s.ownChoice with
  | some e => rw [step_of_choice hsched h]; exact ownChoice_ok hs h
  | none => exact ⟨s, step_of_no_choice hsched h⟩

theorem step_ok {s : State} (hs : s.Inv) : (∃ t, step s = .next t) ∨ step s = .refused .notEnabled := by
  cases hsched : s.sched with
  | nil => exact .inl (step_own_ok hs hsched)
  | cons e es =>
    rw [step_of_sched hsched]
    exact eventStep_ok ((inv_sched s es).mpr hs) e

/-- Settles O42: under the invariant every buffer operation is in range and each sequencer stands at a label of its own,
so only a guard can keep a step from being taken; the machine's own choice has its guard true. -/
theorem invariantRulesOutEveryStop : Obligations.InvariantRulesOutEveryStop := by
  intro s hs
  refine ⟨fun f hf => ?fault, fun r hr => ?refused, step_own_ok hs⟩
  case fault => rcases step_ok hs with ⟨t, ht⟩ | ht <;> simp [ht] at hf
  case refused =>
    rcases step_ok hs with ⟨t, ht⟩ | ht
    · simp [ht] at hr
    · simpa [ht] using hr.symm

end Sys2Proof.Machine
end

/-! ## The invariants hold at reset (R26, R44, R48, R49) -/

section
namespace Sys2Proof.Machine

theorem resetOf_inv {p : Params} (h : p.wf = true) : (State.resetOf p).Inv := by
  refine (inv_iff _).mpr ⟨h, fun c d => ?_, rfl, rfl, rfl⟩
  obtain ⟨n, hF⟩ := ring_resetOf p c d
  rw [hF]
  exact inv_fresh n (one_le_cap h)

theorem hostArmed_resetOf (p : Params) (c : ChNum) : (State.resetOf p).hostArmed c = false := rfl

theorem held_resetOf (p : Params) (cap : Nat) (c : ChNum) (d : Dir) :
    Ring.held cap ((State.resetOf p).ring c d) = [] := by
  obtain ⟨n, hF⟩ := ring_resetOf p c d
  rw [hF, held_eq_nil_iff]
  rfl

theorem quietPump_resetOf (p : Params) (c : ChNum) : (State.resetOf p).QuietPump c := by
  intro h
  rw [hostArmed_resetOf] at h
  cases h

theorem pumpSafe_resetOf (p : Params) (c : ChNum) : (State.resetOf p).PumpSafe c := by
  refine ⟨by simp [Chan.fresh], fun h => ?_⟩
  rw [hostArmed_resetOf] at h
  cases h

theorem outputOrder_resetOf (p : Params) (c : ChNum) : (State.resetOf p).OutputOrder c := by
  intro _
  have hpump : (State.resetOf p).inPump c = [] := rfl
  have haccepted : (State.resetOf p).acceptedOut c = [] := rfl
  rw [hpump, haccepted, held_resetOf, chan_resetOf]
  rfl

theorem inputComplete_resetOf (p : Params) (c : ChNum) : (State.resetOf p).InputComplete c := by
  intro _ _
  have hdelivered : (State.resetOf p).delivered c = [] := rfl
  rw [hdelivered, held_resetOf, State.arriving, chan_resetOf]
  rfl

/-- All the arrived bytes in order are a subsequence of the arrived bytes. -/
theorem inputOrder_of_complete {s : State} {c : ChNum} (h : s.InputComplete c) : s.InputOrder c :=
  fun hd ho => h hd ho ▸ List.Sublist.refl _

theorem drainAlive_resetOf (p : Params) (c : ChNum) : (State.resetOf p).DrainAlive c := by
  intro _ hocc
  obtain ⟨n, hF⟩ := ring_resetOf p c .out
  rw [hF] at hocc
  exact absurd hocc (Nat.lt_irrefl 0)

/-- Settles O40: at reset nothing is held, in progress, sent or received. -/
theorem invariantHoldsAtReset : Obligations.InvariantHoldsAtReset :=
  ⟨resetOf_inv rfl, fun p hp =>
    ⟨resetOf_inv hp, fun c => ⟨(pumpSafe_resetOf p c).1, quietPump_resetOf p c⟩, fun c =>
      ⟨pumpSafe_resetOf p c, quietPump_resetOf p c, outputOrder_resetOf p c,
        inputOrder_of_complete (inputComplete_resetOf p c), inputComplete_resetOf p c, drainAlive_resetOf p c⟩⟩⟩

end Sys2Proof.Machine
end

/-! ## Under eager grants the bytes sent are the bytes enqueued (R41, R75, R148 (d)) -/

section
namespace Sys2Proof.Machine

/-! ### The two sides of the account -/

/-- The bytes of channel `c` sent, popped by a pump, and held, in order. -/
def State.outStream (s : State) (c : ChNum) : List Byte :=
  (s.chan c).txlog ++ s.inPump c ++ Ring.held s.cfg.cap (s.ring c .out)

theorem outputOrder_iff (s : State) (c : ChNum) :
    s.OutputOrder c ↔ (s.outDisciplined c = true → s.outStream c = s.acceptedOut c) := Iff.rfl

/-- The byte HOST's pump on `c` has popped and not written. -/
def State.hostPumped (s : State) (c : ChNum) : List Byte := if s.hostPc == .p3 && s.hostArmed c then [s.hostB] else []

/-- The byte that the pump of `TXIRQ(c)` has popped and not written. -/
def State.irqPumped (s : State) (c : ChNum) : List Byte := if s.irqPc == .p3 && s.running c true then [s.irqB] else []

theorem inPump_eq (s : State) (c : ChNum) : s.inPump c = s.hostPumped c ++ s.irqPumped c := rfl

/-- The bytes that a returned command `x.1` with response word `x.2` had accepted on `c`. -/
def returnedBatch (c : ChNum) (x : Instr × Half) : List Byte :=
  match x.1 with
  | .enqOut ch p => if ch = c ∧ x.2 = 0x0000 then p else []
  | _ => []

/-- The bytes that the command in progress has had accepted and pushed on `c`. -/
def batchPart (c : ChNum) (cmd : Option Instr) (pc : HostPc) (k : Nat) : List Byte :=
  match cmd with
  | some (.enqOut ch p) =>
    if ch = c then
      match pc with
      | .s2 => p.take k
      | .s3 => p
      | .p1 => p
      | .p2 => p
      | .p3 => p
      | _ => []
    else []
  | _ => []

theorem acceptedOut_eq (s : State) (c : ChNum) :
    s.acceptedOut c = s.hostlog.flatMap (returnedBatch c) ++ batchPart c s.hostCmd s.hostPc s.hostI := rfl

theorem acceptedOut_respond (u : State) (i : Instr) (e : ErrVal) (b : Byte) (c : ChNum) :
    (u.respond i e b).acceptedOut c = u.hostlog.flatMap (returnedBatch c) ++ returnedBatch c (i, responseWord e b) := by
  rw [acceptedOut_eq, respond_hostlog, respond_hostCmd, List.flatMap_append, List.flatMap_singleton]
  exact List.append_nil _

/-- From P1 on the whole batch has been pushed. -/
theorem batchPart_pump (c : ChNum) (cmd : Option Instr) (pc pc' : PumpPc) (k k' : Nat) :
    batchPart c cmd pc.hostLabel k = batchPart c cmd pc'.hostLabel k' := by
  cases pc <;> cases pc' <;> rfl

/-- A step that appends the same bytes to both sides of the account. -/
def Tracks (s t : State) (c : ChNum) : Prop :=
  ∃ bs, t.outStream c = s.outStream c ++ bs ∧ t.acceptedOut c = s.acceptedOut c ++ bs

theorem tracks_of_eq {s t : State} {c : ChNum} (h : t.outStream c = s.outStream c)
    (h' : t.acceptedOut c = s.acceptedOut c) : Tracks s t c :=
  ⟨[], by rw [h, List.append_nil], by rw [h', List.append_nil]⟩

theorem outputOrder_of_tracks {s t : State} {c : ChNum} (hs : s.OutputOrder c)
    (hd : t.outDisciplined c = true → s.outDisciplined c = true) (h : s.outDisciplined c = true → Tracks s t c) :
    t.OutputOrder c := by
  rw [outputOrder_iff] at hs ⊢
  intro ht
  obtain ⟨bs, hstream, haccepted⟩ := h (hd ht)
  rw [hstream, haccepted, hs (hd ht)]

/-! ### The discipline -/

theorem outDisciplined_of_issued {s t : State} {c : ChNum} (h : ∀ q, s.issued q = true → t.issued q = true)
    (ht : t.outDisciplined c = true) : s.outDisciplined c = true := by
  unfold State.outDisciplined at ht ⊢
  rw [Bool.not_eq_true'] at ht ⊢
  exact Bool.eq_false_of_not_eq_true fun hs => Bool.false_ne_true (ht.symm.trans (h _ hs))

theorem issued_command {s t : State} {i : Instr} (h : CommandShape s i t) (hcmd : s.hostCmd = some i)
    (q : Instr → Bool) : t.issued q = s.issued q := by
  cases h <;> simp [State.issued, hcmd]

theorem issued_accept {s : State} {i : Instr} {rest : List Half} (hcmd : s.hostCmd = none) (q : Instr → Bool)
    (h : s.issued q = true) : (s.accept i rest).issued q = true := by
  simp only [State.issued, hcmd, accept_hostlog, accept_hostCmd] at h ⊢
  simp_all

theorem issued_congr {s t : State} (hlog : t.hostlog = s.hostlog) (hcmd : t.hostCmd = s.hostCmd) (q : Instr → Bool) :
    t.issued q = s.issued q := by
  simp [State.issued, hlog, hcmd]

/-- A disciplined HOST is running no `PUSH OUT c` and no `POP OUT c`. -/
theorem outDisciplined_command {s : State} {c : ChNum} {i : Instr} (h : s.outDisciplined c = true)
    (hcmd : s.hostCmd = some i) : (∀ v, i ≠ .push .out c v) ∧ i ≠ .pop .out c := by
  unfold State.outDisciplined State.issued at h
  rw [hcmd] at h
  constructor
  · rintro v rfl; simp at h
  · rintro rfl; simp at h

/-! ### HOST's commands -/

/-- The operations of HOST that pump on `c`. -/
theorem pumpsOn_iff {s : State} {c : ChNum} {i : Instr} (hcmd : s.hostCmd = some i) :
    s.pumpsOn c = true ↔ (∃ p, i = .enqOut c p) ∨ i = .pump c := by
  unfold State.pumpsOn
  rw [hcmd]
  cases i <;> simp

theorem hostPumped_nil {s : State} {c : ChNum} (h : s.hostPc ≠ .p3) : s.hostPumped c = [] := by
  simp [State.hostPumped, h]

theorem hostPumped_nil_of_unarmed {s : State} {c : ChNum} (h : s.hostArmed c = false) : s.hostPumped c = [] := by
  simp [State.hostPumped, h]

theorem hostArmed_of_not_pumpsOn {s : State} {c : ChNum} (h : s.pumpsOn c = false) : s.hostArmed c = false := by
  simp [State.hostArmed, h]

theorem irqPumped_nil {s : State} {c : ChNum} (h : s.irqPc ≠ .p3) : s.irqPumped c = [] := by
  simp [State.irqPumped, h]

theorem irqPumped_nil_of_not_running {s : State} {c : ChNum} (h : s.running c true = false) : s.irqPumped c = [] := by
  simp [State.irqPumped, h]

theorem running_of_stopped {s : State} {c : ChNum} {tx : Bool} (h : s.inHandler = false) : s.running c tx = false := by
  simp [State.running, h]

/-- While no handler runs, only HOST's pump is between its pop and its write. -/
theorem outStream_stopped {s : State} (c : ChNum) (h : s.inHandler = false) :
    s.outStream c = (s.chan c).txlog ++ s.hostPumped c ++ Ring.held s.cfg.cap (s.ring c .out) := by
  rw [State.outStream, inPump_eq, irqPumped_nil_of_not_running (running_of_stopped h), List.append_nil]

/-- A command off the output path of the channel it acts on uses neither the output buffer nor the transmitter. -/
theorem off_output_path {i : Instr} {c : ChNum} (hi : i.isCommand = true) (hc : i.chan? = some c)
    (hpush : ∀ v, i ≠ .push .out c v) (hpop : i ≠ .pop .out c) (henq : ∀ p, i ≠ .enqOut c p) (hpump : i ≠ .pump c) :
    pushesInto i .out = false ∧ popsFrom i .out = false ∧ transmits i = false := by
  cases i with
  | push d ch v =>
    cases hc
    cases d with
    | out => exact absurd rfl (hpush v)
    | inp => exact ⟨rfl, rfl, rfl⟩
  | pop d ch =>
    cases hc
    cases d with
    | out => exact absurd rfl hpop
    | inp => exact ⟨rfl, rfl, rfl⟩
  | enqOut ch p => cases hc; exact absurd rfl (henq p)
  | pump ch => cases hc; exact absurd rfl hpump
  | txirq ch => cases hi
  | _ => exact ⟨rfl, rfl, rfl⟩

theorem returnedBatch_nil {i : Instr} {c : ChNum} {r : Half} (h : ∀ p, i ≠ .enqOut c p ∨ r ≠ 0x0000) :
    returnedBatch c (i, r) = [] := by
  unfold returnedBatch
  cases i with
  | enqOut ch p =>
    refine if_neg ?_
    rintro ⟨rfl, rfl⟩
    rcases h p with h | h <;> exact h rfl
  | _ => rfl

theorem batchPart_nil {i : Instr} {c : ChNum} (pc : HostPc) (k : Nat) (h : ∀ p, i ≠ .enqOut c p) :
    batchPart c (some i) pc k = [] := by
  unfold batchPart
  cases i with
  | enqOut ch p =>
    refine if_neg ?_
    rintro rfl
    exact h p rfl
  | _ => rfl

/-- A disciplined command that is none of `c`'s output path leaves both sides of `c`'s account alone. -/
theorem command_elsewhere_tracks {s t : State} {i : Instr} {c : ChNum} (h : exec i s = .next t)
    (hi : i.isCommand = true) (hcmd : s.hostCmd = some i) (hidle : s.inHandler = false)
    (hd : s.outDisciplined c = true) (hoff : s.pumpsOn c = false) : Tracks s t c := by
  obtain ⟨hpush, hpop⟩ := outDisciplined_command hd hcmd
  have hon : ¬ ((∃ p, i = .enqOut c p) ∨ i = .pump c) := by rw [← pumpsOn_iff hcmd, hoff]; exact Bool.false_ne_true
  obtain ⟨henq, hpump⟩ := not_or.mp hon
  have henq : ∀ p, i ≠ .enqOut c p := not_exists.mp henq
  have hchan : (t.chan c).txlog = (s.chan c).txlog ∧ t.ring c .out = s.ring c .out := by
    rcases exec_movesChans h c with heq | ⟨hc, hm⟩
    · exact ⟨congrArg Chan.txlog heq, congrArg Chan.out heq⟩
    · obtain ⟨hnopush, hnopop, hnotx⟩ := off_output_path hi hc hpush hpop henq hpump
      obtain ⟨hout, -, -, -, hlog⟩ := chanMove_keeps_out hm hnopush hnopop hnotx
      exact ⟨hlog, hout⟩
  have hs : s.hostPumped c = [] := hostPumped_nil_of_unarmed (hostArmed_of_not_pumpsOn hoff)
  have hshape := exec_commandShape h hi
  obtain ⟨hrun, -⟩ := commandShape_irq hshape
  have hstream : t.hostPumped c = [] → t.outStream c = s.outStream c := by
    intro ht
    rw [outStream_stopped c hidle, outStream_stopped c (hrun.trans hidle), hs, ht, hchan.1, hchan.2, exec_cfg h]
  cases hshape with
  | answers V f n e b _ =>
    refine tracks_of_eq (hstream (hostPumped_nil (by simp))) ?_
    rw [acceptedOut_respond, acceptedOut_eq, hcmd, batchPart_nil _ _ henq, returnedBatch_nil (fun p => .inl (henq p))]
  | goesOn V pc k o f b =>
    refine tracks_of_eq (hstream (hostPumped_nil_of_unarmed (hostArmed_of_not_pumpsOn hoff))) ?_
    rw [acceptedOut_eq, acceptedOut_eq]
    simp only [hcmd, batchPart_nil _ _ henq]

/-! ### The commands of the output path -/

/-- A micro-step of HOST before its pump's P3 that leaves the channels alone. -/
theorem outStream_goesOn {s t : State} {c : ChNum} (hidle : s.inHandler = false) (hrun : t.inHandler = s.inHandler)
    (hcfg : t.cfg = s.cfg) (hchans : t.chans = s.chans) (hs : s.hostPc ≠ .p3) (ht : t.hostPc ≠ .p3) :
    t.outStream c = s.outStream c := by
  rw [outStream_stopped c hidle, outStream_stopped c (hrun.trans hidle), hostPumped_nil hs, hostPumped_nil ht, hcfg,
    chan_congr hchans c, ring_congr hchans c]

theorem outStream_answers {s : State} {i : Instr} {e : ErrVal} {b : Byte} {c : ChNum} (hidle : s.inHandler = false)
    (hs : s.hostPc ≠ .p3) : (s.respond i e b).outStream c = s.outStream c :=
  outStream_goesOn hidle rfl rfl rfl hs (by simp)

theorem batchPart_first (c : ChNum) (i : Instr) (k : Nat) :
    batchPart c (some i) .s0 k = [] ∧ batchPart c (some i) .s1 k = [] ∧ batchPart c (some i) (afterCheck i) k = [] := by
  cases i <;> simp [batchPart, afterCheck]

theorem checkChannel_tracks {s t : State} {i : Instr} {c : ChNum} (h : s.checkChannel i c (afterCheck i) = .next t)
    (hcmd : s.hostCmd = some i) (hidle : s.inHandler = false) (hpc : s.hostPc = .s0) (hp3 : afterCheck i ≠ .p3) :
    Tracks s t c := by
  obtain ⟨hs0, -, hnext⟩ := batchPart_first c i s.hostI
  have hpc3 : s.hostPc ≠ .p3 := by simp [hpc]
  rcases checkChannel_cases s i c (afterCheck i) with ⟨-, hn⟩ | ⟨-, hn⟩ <;>
    obtain rfl := Host.Outcome.next.inj (hn.symm.trans h)
  · refine tracks_of_eq (outStream_goesOn hidle rfl rfl rfl hpc3 hp3) ?_
    rw [acceptedOut_eq, acceptedOut_eq, hcmd, hpc, hs0, hnext]
  · refine tracks_of_eq (outStream_answers hidle hpc3) ?_
    rw [acceptedOut_respond, acceptedOut_eq, hcmd, hpc, hs0, returnedBatch_nil (fun _ => .inr (by decide))]

theorem preCheck_tracks {s t : State} {c : ChNum} {p : List Byte} (h : s.preCheck c p = .next t)
    (hcmd : s.hostCmd = some (.enqOut c p)) (hidle : s.inHandler = false) (hpc : s.hostPc = .s1) : Tracks s t c := by
  obtain ⟨-, hs1, -⟩ := batchPart_first c (.enqOut c p) s.hostI
  have hpc3 : s.hostPc ≠ .p3 := by simp [hpc]
  rcases preCheck_next h with ⟨-, rfl⟩ | ⟨-, rfl⟩
  · refine tracks_of_eq (outStream_answers hidle hpc3) ?_
    rw [acceptedOut_respond, acceptedOut_eq, hcmd, hpc, hs1, returnedBatch_nil (fun _ => .inr (by decide))]
  · refine tracks_of_eq (outStream_goesOn hidle rfl rfl rfl hpc3 (by cases p <;> simp)) ?_
    rw [acceptedOut_eq, acceptedOut_eq, hcmd, hpc, hs1]
    cases p <;> simp [batchPart]

theorem batchPart_s2 (c : ChNum) (p : List Byte) (k : Nat) : batchPart c (some (.enqOut c p)) .s2 k = p.take k := by
  simp [batchPart]

theorem batchPart_s3 (c : ChNum) (p : List Byte) (k : Nat) : batchPart c (some (.enqOut c p)) .s3 k = p := by
  simp [batchPart]

/-- The fill's next label: while bytes are left the pushed part is what was taken, and at S3 that is the batch. -/
theorem batchPart_filled (c : ChNum) (p : List Byte) (k : Nat) :
    batchPart c (some (.enqOut c p)) (if k < p.length then .s2 else .s3) k = p.take k := by
  split
  · exact batchPart_s2 c p k
  · next hall => rw [batchPart_s3, List.take_of_length_le (Nat.le_of_not_lt hall)]

/-- The output side of `c` after its output buffer has been replaced. -/
theorem output_of_setRing {s t : State} {c : ChNum} {F : Ring} (h : t.chans = (s.setRing c .out F).chans) :
    (t.chan c).txlog = (s.chan c).txlog ∧ t.ring c .out = F := by
  rw [ring_congr h, ring_setRing_same, chan_congr h, State.setRing, chan_setChan_same]
  exact ⟨rfl, rfl⟩

/-- The output side of `c` after a byte has been written to its ready transmitter. -/
theorem output_of_writeTxData {s t : State} {c : ChNum} {v : Byte} (h : t.chans = (s.writeTxData c v).chans)
    (hready : (s.chan c).txe = true) (hover : (s.chan c).txOverrun = false) :
    (t.chan c).txlog = (s.chan c).txlog ++ [v] ∧ t.ring c .out = s.ring c .out := by
  rcases writeTxData_cases s c v with ⟨-, -, hw⟩ | ⟨hbad, -⟩
  · rw [hw] at h
    rw [State.ring, chan_congr h, chan_setChan_same]
    exact ⟨rfl, rfl⟩
  · simp [hready, hover] at hbad

/-- The stream after HOST's step, by the output side of `c`. -/
theorem outStream_of_output {s t : State} {c : ChNum} {l : List Byte} {F : Ring} (hidle : t.inHandler = false)
    (hcfg : t.cfg = s.cfg) (h : (t.chan c).txlog = l ∧ t.ring c .out = F) :
    t.outStream c = l ++ t.hostPumped c ++ Ring.held s.cfg.cap F := by
  obtain ⟨rfl, rfl⟩ := h
  rw [outStream_stopped c hidle, hcfg]

/-- One push of the fill adds its byte to the held bytes and to the accepted ones. -/
theorem fillStep_tracks {s t : State} {c : ChNum} {p : List Byte} (h : s.fillStep c p = .next t)
    (hcmd : s.hostCmd = some (.enqOut c p)) (hidle : s.inHandler = false) (hpc : s.hostPc = .s2)
    (hs : s.hostSeqOk = true) (hF : s.RingsInv) : Tracks s t c := by
  obtain ⟨-, -, -, hfit⟩ := (hostSeqOk_some hcmd).mp hs
  obtain ⟨hlt, hroom⟩ := hfit hpc c p rfl
  obtain ⟨v, hv, ⟨hfull, -⟩ | ⟨ho, -, rfl⟩⟩ := fillStep_next h
  · omega
  · refine ⟨[v], ?stream, ?accepted⟩
    case stream =>
      refine Eq.trans (outStream_of_output (s := s) hidle rfl (output_of_setRing rfl)) ?_
      rw [hostPumped_nil (by dsimp only; split <;> simp), held_pushed v (hF c .out) ho,
        outStream_stopped c hidle, hostPumped_nil (by simp [hpc]), List.append_assoc _ _ [v]]
    case accepted =>
      have htake : p.take (s.hostI + 1) = p.take s.hostI ++ [v] := by rw [List.take_add_one, hv]; rfl
      rw [acceptedOut_eq, acceptedOut_eq, hpc, hcmd, batchPart_s2, List.append_assoc, ← htake]
      exact congrArg _ ((congrArg (batchPart c · _ _) hcmd).trans (batchPart_filled c p (s.hostI + 1)))

theorem armCheck_tracks {s t : State} {c : ChNum} {p : List Byte} (h : s.armCheck c p = .next t)
    (hcmd : s.hostCmd = some (.enqOut c p)) (hidle : s.inHandler = false) (hpc : s.hostPc = .s3) : Tracks s t c := by
  have hpc3 : s.hostPc ≠ .p3 := by simp [hpc]
  rcases armCheck_next h with ⟨-, rfl⟩ | ⟨-, rfl⟩
  · refine tracks_of_eq (outStream_goesOn hidle rfl rfl rfl hpc3 (by simp)) ?_
    rw [acceptedOut_eq, acceptedOut_eq, hcmd, hpc]
    rfl
  · refine tracks_of_eq (outStream_answers hidle hpc3) ?_
    rw [acceptedOut_respond, acceptedOut_eq, hcmd, hpc, batchPart_s3]
    simp [returnedBatch, responseWord, ErrVal.code]

/-- A pump of HOST on `c` moves the oldest held byte to HOST and then to the transmitter, which is ready. -/
theorem hostPump_tracks {s t : State} {i : Instr} {c : ChNum} {ret : ErrVal → ErrVal} {pc : PumpPc}
    (h : s.hostPump i c ret pc = .next t) (hpumps : s.pumpsOn c = true)
    (hidle : s.inHandler = false) (hpc : s.hostPc = pc.hostLabel) (hover : (s.chan c).txOverrun = false)
    (hquiet : s.QuietPump c)
    (hans : ∀ e k, returnedBatch c (i, responseWord (ret e) 0) = batchPart c s.hostCmd (PumpPc.hostLabel .p1) k) :
    Tracks s t c := by
  have haccepted : ∀ pc', s.acceptedOut c = s.hostlog.flatMap (returnedBatch c) ++
      batchPart c s.hostCmd (PumpPc.hostLabel pc') s.hostI := fun pc' => by
    rw [acceptedOut_eq, hpc, batchPart_pump c _ pc pc' _ s.hostI]
  have hanswers : ∀ (u : State) (e : ErrVal), u.hostlog = s.hostlog →
      (u.respond i (ret e) 0).acceptedOut c = s.acceptedOut c := fun u e hlog => by
    rw [acceptedOut_respond, haccepted .p1, hlog, hans e s.hostI]
  rcases hostPump_next h with ⟨rfl, -, rfl⟩ | ⟨rfl, -, rfl⟩ | ⟨rfl, -, rfl⟩ | ⟨rfl, ho, ht, hpopped⟩ | ⟨rfl, hsent⟩
  · have hp3 : s.hostPc ≠ .p3 := by simp [hpc, PumpPc.hostLabel]
    exact tracks_of_eq (outStream_goesOn hidle rfl rfl rfl hp3 (by simp)) (haccepted .p2).symm
  · exact tracks_of_eq (outStream_answers hidle (by simp [hpc, PumpPc.hostLabel])) (hanswers s _ rfl)
  · exact tracks_of_eq (outStream_answers hidle (by simp [hpc, PumpPc.hostLabel])) (hanswers s _ rfl)
  · have hbyte : t.hostPumped c = [(s.ring c .out).slot (s.ring c .out).tail] := by
      rw [hpopped]
      exact if_pos hpumps
    refine tracks_of_eq ?_ (by rw [hpopped]; exact (haccepted .p3).symm)
    rw [outStream_of_output (s := s) (by simp [hpopped, hidle]) (by simp [hpopped])
      (output_of_setRing (s := s) (by rw [hpopped])), hbyte, outStream_stopped c hidle,
      hostPumped_nil (by simp [hpc, PumpPc.hostLabel]), held_popped ho ht]
    simp
  · have harmed : s.hostArmed c = true := by simp [State.hostArmed, hpc, PumpPc.hostLabel, hpumps]
    have hbyte : s.hostPumped c = [s.hostB] := by simp [State.hostPumped, hpc, PumpPc.hostLabel, harmed]
    obtain ⟨hready, -⟩ := hquiet harmed
    refine tracks_of_eq ?_ (by rw [hsent]; exact hanswers _ _ (by rw [writeTxData_eq]))
    rw [outStream_of_output (s := s) (by rw [hsent, writeTxData_eq]; exact hidle) (by simp [hsent])
      (output_of_writeTxData (v := s.hostB) (by simp [hsent]) hready hover),
      hostPumped_nil (by simp [hsent]), outStream_stopped c hidle, hbyte, List.append_nil]

theorem command_path_tracks {s t : State} {i : Instr} {c : ChNum} (h : MicroStep s t i) (hcmd : s.hostCmd = some i)
    (hidle : s.inHandler = false) (hs : s.hostSeqOk = true) (hF : s.RingsInv) (hover : (s.chan c).txOverrun = false)
    (hquiet : s.QuietPump c) (hon : s.pumpsOn c = true) : Tracks s t c := by
  rcases (pumpsOn_iff hcmd).mp hon with ⟨p, rfl⟩ | rfl
  · cases h with
    | check hc _ hpc h =>
      cases hc
      exact checkChannel_tracks h hcmd hidle hpc (by simp [afterCheck])
    | preCheck hpc _ h => exact preCheck_tracks h hcmd hidle hpc
    | fill hpc _ h => exact fillStep_tracks h hcmd hidle hpc hs hF
    | armCheck hpc _ h => exact armCheck_tracks h hcmd hidle hpc
    | enqOutPump pc hpc _ h =>
      refine hostPump_tracks h hon hidle hpc hover hquiet (fun e k => ?_)
      simp [hcmd, returnedBatch, batchPart, PumpPc.hostLabel, responseWord, ErrVal.code]
  · cases h with
    | check hc _ hpc h =>
      cases hc
      exact checkChannel_tracks h hcmd hidle hpc (by simp [afterCheck])
    | pump pc hpc _ h =>
      refine hostPump_tracks h hon hidle hpc hover hquiet (fun e k => ?_)
      simp [hcmd, returnedBatch, batchPart]

theorem command_tracks {s t : State} {i : Instr} {c : ChNum} (h : exec i s = .next t) (hcmd : s.hostCmd = some i)
    (hidle : s.inHandler = false) (hs : s.hostSeqOk = true) (hF : s.RingsInv) (hover : (s.chan c).txOverrun = false)
    (hquiet : s.QuietPump c) (hd : s.outDisciplined c = true) : Tracks s t c := by
  obtain ⟨hl, -⟩ := (hostSeqOk_some hcmd).mp hs
  cases hon : s.pumpsOn c with
  | true => exact command_path_tracks (exec_microStep h) hcmd hidle hs hF hover hquiet hon
  | false => exact command_elsewhere_tracks h (hasHostLabel_isCommand hl) hcmd hidle hd hon

theorem command_outputOrder {s t : State} {i : Instr} {c : ChNum} (h : exec i s = .next t) (hi : i.isCommand = true)
    (hcmd : s.hostCmd = some i) (hidle : s.inHandler = false) (hs : s.hostSeqOk = true) (hF : s.RingsInv)
    (hover : (s.chan c).txOverrun = false) (hquiet : s.QuietPump c) (horder : s.OutputOrder c) : t.OutputOrder c :=
  outputOrder_of_tracks horder
    (outDisciplined_of_issued fun q hq => (issued_command (exec_commandShape h hi) hcmd q).trans hq)
    (command_tracks h hcmd hidle hs hF hover hquiet)

/-! ### Taking a command -/

theorem batchPart_firstLabel (c : ChNum) (i : Instr) (k : Nat) : batchPart c (some i) (firstLabel i) k = [] := by
  cases i <;> simp [batchPart, firstLabel]

theorem accept_outputOrder {s : State} {i : Instr} {rest : List Half} {c : ChNum} (hpc : s.hostPc = .idle)
    (hcmd : s.hostCmd = none) (hidle : s.inHandler = false) (horder : s.OutputOrder c) :
    (s.accept i rest).OutputOrder c := by
  refine outputOrder_of_tracks horder (outDisciplined_of_issued fun q => issued_accept hcmd q)
    (fun _ => tracks_of_eq (outStream_goesOn hidle rfl rfl rfl (by simp [hpc]) ?_) ?_)
  · cases i <;> simp [firstLabel]
  · rw [acceptedOut_eq, acceptedOut_eq, hcmd, accept_hostCmd, accept_hostPc, batchPart_firstLabel]
    rfl

theorem hostStep_outputOrder {s t : State} {c : ChNum} (h : s.hostStep = .next t) (hs : s.Inv)
    (hover : (s.chan c).txOverrun = false) (hquiet : s.QuietPump c) (horder : s.OutputOrder c) : t.OutputOrder c := by
  obtain ⟨-, hF, hseqs⟩ := (inv_iff s).mp hs
  obtain ⟨hhost, -⟩ := id hseqs
  obtain ⟨hen, ⟨-, why, rest, -, rfl⟩ | ⟨hpc, i, rest, hd, h⟩ | ⟨-, i, hc, h⟩⟩ := hostStep_cases h
  · exact horder
  · obtain ⟨hi, hwf⟩ := decodeCommand_sound hd
    obtain ⟨hhost', -⟩ := accept_seqsInv (rest := rest) hseqs hi hwf
    have hidle : (s.accept i rest).inHandler = false := hostEnabled_idle (s := s) hen
    have hunarmed : (s.accept i rest).hostArmed c = false := by cases i <;> simp [State.hostArmed, firstLabel]
    exact command_outputOrder h hi rfl hidle hhost' hF hover (fun harmed => by rw [hunarmed] at harmed; cases harmed)
      (accept_outputOrder hpc (hostCmd_of_idle hhost hpc) hidle horder)
  · obtain ⟨hl, -⟩ := (hostSeqOk_some hc).mp hhost
    exact command_outputOrder h (hasHostLabel_isCommand hl) hc (hostEnabled_idle hen) hhost hF hover hquiet horder

/-! ### The handlers and the other events -/

theorem acceptedOut_congr {s t : State} {c : ChNum} (hlog : t.hostlog = s.hostlog) (hcmd : t.hostCmd = s.hostCmd)
    (hpc : t.hostPc = s.hostPc) (hI : t.hostI = s.hostI) : t.acceptedOut c = s.acceptedOut c := by
  rw [acceptedOut_eq, acceptedOut_eq, hlog, hcmd, hpc, hI]

theorem hostPumped_congr {s t : State} {c : ChNum} (hcmd : t.hostCmd = s.hostCmd) (hpc : t.hostPc = s.hostPc)
    (hB : t.hostB = s.hostB) : t.hostPumped c = s.hostPumped c := by
  have hpumps : t.pumpsOn c = s.pumpsOn c := by unfold State.pumpsOn; rw [hcmd]
  rw [State.hostPumped, State.hostArmed, hpumps, hpc, hB]
  rfl

/-- A step of another agent that leaves HOST's side, the trace, the handler's byte and the output buffer alone. -/
theorem outputOrder_frame {s t : State} {c : ChNum} (hcfg : t.cfg = s.cfg) (hpc : t.hostPc = s.hostPc)
    (hcmd : t.hostCmd = s.hostCmd) (hI : t.hostI = s.hostI) (hB : t.hostB = s.hostB) (hlog : t.hostlog = s.hostlog)
    (hstream : t.hostPumped c = s.hostPumped c →
      (t.chan c).txlog ++ (s.hostPumped c ++ t.irqPumped c) ++ Ring.held s.cfg.cap (t.ring c .out) = s.outStream c)
    (horder : s.OutputOrder c) : t.OutputOrder c := by
  have hpumped : t.hostPumped c = s.hostPumped c := hostPumped_congr hcmd hpc hB
  refine outputOrder_of_tracks horder
    (outDisciplined_of_issued fun q hq => (issued_congr hlog hcmd q).trans hq)
    (fun _ => tracks_of_eq ?_ (acceptedOut_congr hlog hcmd hpc hI))
  rw [← hstream hpumped, State.outStream, inPump_eq, hpumped, hcfg]

/-- No `TXIRQ(c)` pumps before the step or after it, and the step is none of `c`'s output side. -/
theorem outputOrder_frame_quiet {s t : State} {c : ChNum} (hcfg : t.cfg = s.cfg) (hpc : t.hostPc = s.hostPc)
    (hcmd : t.hostCmd = s.hostCmd) (hI : t.hostI = s.hostI) (hB : t.hostB = s.hostB) (hlog : t.hostlog = s.hostlog)
    (hirq : t.irqPumped c = s.irqPumped c) (hout : (t.chan c).out = (s.chan c).out)
    (htxlog : (t.chan c).txlog = (s.chan c).txlog) (horder : s.OutputOrder c) : t.OutputOrder c := by
  refine outputOrder_frame hcfg hpc hcmd hI hB hlog (fun _ => ?_) horder
  have hring : t.ring c .out = s.ring c .out := hout
  rw [htxlog, hirq, hring, ← inPump_eq, State.outStream]

theorem running_iff (s : State) (c : ChNum) :
    s.running c true = true ↔ s.inHandler = true ∧ irqCh s.curIrq = c ∧ irqIsTx s.curIrq = true := by
  simp [State.running, and_assoc]

theorem handlerShape_running {s t : State} {c : ChNum} (h : HandlerShape s t) (hs : s.running c true = false) :
    t.running c true = false := by
  cases h with
  | goesOn => exact hs
  | returns => rfl

/-- A handler other than `TXIRQ(c)` does nothing to the output side of `c`. -/
theorem handler_elsewhere {s t : State} {c : ChNum} (h : exec (decodeRequest s.curIrq) s = .next t)
    (hrun : s.inHandler = true) (hother : s.running c true = false) :
    (t.chan c).out = (s.chan c).out ∧ (t.chan c).txlog = (s.chan c).txlog := by
  unfold decodeRequest at h
  split at h
  · next htx =>
      have hne : irqCh s.curIrq ≠ c := fun hc => by simp [(running_iff s c).mpr ⟨hrun, hc, htx⟩] at hother
      rw [exec_other_chan h (fun hc => hne (Option.some.inj hc))]
      exact ⟨rfl, rfl⟩
  · obtain ⟨hout, -, -, -, hlog⟩ := exec_keeps_out h rfl rfl rfl c
    exact ⟨hout, hlog⟩

/-- `TXIRQ(c)` moves the oldest held byte to the handler and then to the transmitter, which is ready. -/
theorem txirq_stream {s t : State} {c : ChNum} (h : MicroStep s t (.txirq c)) (hs : s.irqSeqOk = true)
    (hrun : s.running c true = true) (hover : (s.chan c).txOverrun = false) :
    (t.chan c).txlog ++ t.irqPumped c ++ Ring.held s.cfg.cap (t.ring c .out) =
      (s.chan c).txlog ++ s.irqPumped c ++ Ring.held s.cfg.cap (s.ring c .out) := by
  obtain ⟨hin, hcur, -⟩ := (running_iff s c).mp hrun
  cases h with
  | check _ hi => cases hi
  | txPump pc hpc _ h =>
    rcases irqPump_next h with ⟨rfl, -, rfl⟩ | ⟨rfl, -, rfl⟩ | ⟨rfl, -, rfl⟩ | ⟨rfl, ho, ht, hpopped⟩ | ⟨rfl, hsent⟩
    · rw [irqPumped_nil (by simp), irqPumped_nil (by simp [hpc, PumpPc.irqLabel])]; rfl
    · rw [irqPumped_nil (by simp), irqPumped_nil (by simp [hpc, PumpPc.irqLabel])]; rfl
    · rw [irqPumped_nil (by simp), irqPumped_nil (by simp [hpc, PumpPc.irqLabel])]; rfl
    · obtain ⟨htxlog, hring⟩ := output_of_setRing (s := s) (t := t) (c := c) (by rw [hpopped])
      have hbyte : t.irqPumped c = [(s.ring c .out).slot (s.ring c .out).tail] := by
        rw [hpopped]
        exact if_pos hrun
      rw [htxlog, hring, hbyte, irqPumped_nil (by simp [hpc, PumpPc.irqLabel]), held_popped ho ht]
      simp
    · obtain ⟨-, -, -, hready⟩ := (irqSeqOk_running hin).mp hs
      rw [hcur] at hready
      obtain ⟨htxlog, hring⟩ := output_of_writeTxData (t := t) (by rw [hsent]) (hready (.inr hpc)) hover
      have hbyte : s.irqPumped c = [s.irqB] := by simp [State.irqPumped, hpc, PumpPc.irqLabel, hrun]
      rw [htxlog, hring, hbyte, irqPumped_nil (by simp [hsent]), List.append_nil]
  | leaveTx hpc _ h =>
    subst h
    rw [irqPumped_nil (by simp), irqPumped_nil (by simp [hpc])]
    rfl

theorem irqStep_outputOrder {s t : State} {c : ChNum} (h : s.irqStep = .next t) (hs : s.irqSeqOk = true)
    (hover : (s.chan c).txOverrun = false) (hquiet : s.QuietPump c) (horder : s.OutputOrder c) : t.OutputOrder c := by
  obtain ⟨hrun, -, h⟩ := irqStep_cases h
  have hshape := exec_handlerShape h
  obtain ⟨hpc, hcmd, hI, hB, hlog⟩ := handlerShape_host hshape
  cases hc : s.running c true with
  | false =>
    obtain ⟨hout, htxlog⟩ := handler_elsewhere h hrun hc
    refine outputOrder_frame_quiet (exec_cfg h) hpc hcmd hI hB hlog ?_ hout htxlog horder
    rw [irqPumped_nil_of_not_running hc, irqPumped_nil_of_not_running (handlerShape_running hshape hc)]
  | true =>
    obtain ⟨-, hcur, htx⟩ := (running_iff s c).mp hc
    have hunarmed : s.hostArmed c = false := by
      refine Bool.eq_false_of_not_eq_true fun harmed => ?_
      obtain ⟨-, -, hno⟩ := hquiet harmed
      rw [hc] at hno
      cases hno
    have hi : decodeRequest s.curIrq = .txirq c := by rw [decodeRequest, if_pos htx, hcur]
    refine outputOrder_frame (exec_cfg h) hpc hcmd hI hB hlog (fun _ => ?_) horder
    rw [hostPumped_nil_of_unarmed hunarmed, State.outStream, inPump_eq, hostPumped_nil_of_unarmed hunarmed]
    exact txirq_stream (hi ▸ exec_microStep h) hs hc hover

theorem reset_outputOrder (s : State) (c : ChNum) : s.resetEvent.OutputOrder c := by
  intro _
  have hpump : s.resetEvent.inPump c = [] := rfl
  have haccepted : s.resetEvent.acceptedOut c = [] := rfl
  obtain ⟨n, hF⟩ := ring_resetEvent s c .out
  rw [hpump, haccepted, hF, chan_resetEvent]
  rfl

/-- The steps that are no agent's of the output path leave the output side of every channel alone. -/
theorem chanStep_keeps_output {cap : Nat} {c : ChNum} {e : Event} {x y : Chan} (h : ChanStep cap c x e y)
    (hhost : e ≠ .host) (hirq : e ≠ .irq) (hreset : e ≠ .reset) : y.out = x.out ∧ y.txlog = x.txlog := by
  cases h with
  | moved hagent => exact absurd hagent (not_or.mpr ⟨hhost, hirq⟩)
  | reset => exact absurd rfl hreset
  | _ => exact ⟨rfl, rfl⟩

theorem eventStep_outputOrder {s t : State} {e : Event} {c : ChNum} (h : s.eventStep e = .next t) (hs : s.Inv)
    (hover : (s.chan c).txOverrun = false) (hquiet : s.QuietPump c) (horder : s.OutputOrder c) : t.OutputOrder c := by
  have hchan := eventStep_chanStep h c
  cases e with
  | host => exact hostStep_outputOrder h hs hover hquiet horder
  | irq =>
    obtain ⟨-, -, -, hirq, -⟩ := (inv_iff s).mp hs
    exact irqStep_outputOrder h hirq hover hquiet horder
  | grant r =>
    obtain ⟨hg, rfl⟩ := grant_next h
    obtain ⟨-, hidle, -⟩ := canGrant_spec hg
    obtain ⟨hout, htxlog⟩ := chanStep_keeps_output hchan (by simp) (by simp) (by simp)
    refine outputOrder_frame_quiet (enterHandler_cfg s r) (enterHandler_hostPc s r) (enterHandler_hostCmd s r)
      (enterHandler_hostI s r) (enterHandler_hostB s r) (enterHandler_hostlog s r) ?_ hout htxlog horder
    have hfirst : (s.enterHandler r).irqPc ≠ .p3 := by rw [enterHandler_irqPc, firstIrqLabel]; split <;> simp
    rw [irqPumped_nil hfirst, irqPumped_nil_of_not_running (running_of_stopped hidle)]
  | txDone c' =>
    obtain ⟨hout, htxlog⟩ := chanStep_keeps_output hchan (by simp) (by simp) (by simp)
    obtain ⟨-, -, rfl⟩ := txDone_next h
    exact outputOrder_frame_quiet (s := s) rfl rfl rfl rfl rfl rfl rfl hout htxlog horder
  | rxArrive c' b =>
    obtain ⟨hout, htxlog⟩ := chanStep_keeps_output hchan (by simp) (by simp) (by simp)
    obtain ⟨-, rfl⟩ := rxArrive_next h
    rw [arrive_eq] at hout htxlog ⊢
    exact outputOrder_frame_quiet (s := s) rfl rfl rfl rfl rfl rfl rfl hout htxlog horder
  | reset => obtain rfl := Host.Outcome.next.inj h; exact reset_outputOrder s c

/-- Settles O45: under the pump's safety a byte only moves along the stream of held bytes, pump and trace, and enters
it with the push of an accepted batch's byte. -/
theorem eagerKeepsOutputOrder : Obligations.EagerKeepsOutputOrder := by
  intro s t c _ hs hsafe horder h
  obtain ⟨hover, hquiet⟩ := hsafe c
  rcases step_cases h with ⟨e, es, -, he⟩ | ⟨-, e, -, he⟩ | ⟨-, -, rfl⟩
  · exact eventStep_outputOrder (s := { s with sched := es }) he hs hover hquiet horder
  · exact eventStep_outputOrder he hs hover hquiet horder
  · exact horder

end Sys2Proof.Machine
end

/-! ## What the input path's and the output path's accounts share: the next event, and HOST's part of a step -/

section
namespace Sys2Proof.Machine

/-- A step is the step of the next event, on a state that differs in the schedule alone; or no one moves. -/
theorem step_nextEvent {s t : State} (h : step s = .next t) :
    (∃ e es, s.nextEvent = some e ∧ State.eventStep { s with sched := es } e = .next t) ∨ t = s := by
  rcases step_cases h with ⟨e, es, hs, he⟩ | ⟨hs, e, hown, he⟩ | ⟨-, -, rfl⟩
  · exact .inl ⟨e, es, by rw [State.nextEvent, hs], he⟩
  · exact .inl ⟨e, s.sched, by rw [State.nextEvent, hs]; exact hown, he⟩
  · exact .inr rfl

/-- HOST's sequencer and its trace are the same in both states. -/
def SameHost (s t : State) : Prop :=
  t.hostPc = s.hostPc ∧ t.hostCmd = s.hostCmd ∧ t.hostI = s.hostI ∧ t.hostB = s.hostB ∧ t.hostlog = s.hostlog

theorem irqStep_sameHost {s t : State} (h : s.irqStep = .next t) : SameHost s t := by
  obtain ⟨-, -, h⟩ := irqStep_cases h
  exact handlerShape_host (exec_handlerShape h)

/-- Only HOST's own step and a reset move HOST. -/
theorem eventStep_sameHost {s t : State} {e : Event} (h : s.eventStep e = .next t) (hhost : e ≠ .host)
    (hreset : e ≠ .reset) : SameHost s t := by
  cases e with
  | host => exact absurd rfl hhost
  | irq => exact irqStep_sameHost h
  | grant r => obtain ⟨-, rfl⟩ := grant_next h; simp [SameHost]
  | txDone c => obtain ⟨-, -, rfl⟩ := txDone_next h; simp [SameHost]
  | rxArrive c b => obtain ⟨-, rfl⟩ := rxArrive_next h; rw [arrive_eq]; simp [SameHost]
  | reset => exact absurd rfl hreset

/-- The UART's steps leave the running handler alone. -/
theorem eventStep_sameHandler {s t : State} {e : Event} (h : s.eventStep e = .next t)
    (he : (∃ c, e = .txDone c) ∨ ∃ c b, e = .rxArrive c b) :
    t.inHandler = s.inHandler ∧ t.curIrq = s.curIrq ∧ t.irqPc = s.irqPc ∧ t.irqB = s.irqB := by
  rcases he with ⟨c, rfl⟩ | ⟨c, b, rfl⟩
  · obtain ⟨-, -, rfl⟩ := txDone_next h; exact ⟨rfl, rfl, rfl, rfl⟩
  · obtain ⟨-, rfl⟩ := rxArrive_next h; rw [arrive_eq]; exact ⟨rfl, rfl, rfl, rfl⟩

/-- No step but reset forgets a command. -/
theorem eventStep_issued {s t : State} {e : Event} (h : s.eventStep e = .next t) (hs : s.Inv) (hreset : e ≠ .reset)
    (q : Instr → Bool) (hq : s.issued q = true) : t.issued q = true := by
  by_cases he : e = .host
  · subst he
    obtain ⟨-, -, hhost, -⟩ := (inv_iff s).mp hs
    obtain ⟨-, ⟨-, why, rest, -, rfl⟩ | ⟨hpc, i, rest, hdec, h⟩ | ⟨-, i, hc, h⟩⟩ := hostStep_cases h
    · exact hq
    · obtain ⟨hi, -⟩ := decodeCommand_sound hdec
      exact (issued_command (exec_commandShape h hi) rfl q).trans (issued_accept (hostCmd_of_idle hhost hpc) q hq)
    · obtain ⟨hl, -⟩ := (hostSeqOk_some hc).mp hhost
      exact (issued_command (exec_commandShape h (hasHostLabel_isCommand hl)) hc q).trans hq
  · obtain ⟨-, hcmd, -, -, hlog⟩ := eventStep_sameHost h he hreset
    exact (issued_congr hlog hcmd q).trans hq

end Sys2Proof.Machine
end

/-! ## The bytes delivered, held and arriving against the bytes that arrived (R41, R75, R158, R161) -/

section
namespace Sys2Proof.Machine

/-! ### The fields of a response word (R97) -/

theorem getLsbD_responseWord (e : ErrVal) (b : Byte) (i : Nat) :
    (responseWord e b).getLsbD i =
      if i < 8 then b.getLsbD i else ((0 : BitVec 5) ++ e.code).getLsbD (i - 8) :=
  BitVec.getLsbD_append

theorem responseErr_responseWord (e : ErrVal) (b : Byte) : responseErr (responseWord e b) = e.code := by
  refine BitVec.eq_of_getLsbD_eq fun i hi => ?_
  have hbit : ((0 : BitVec 5) ++ e.code).getLsbD i = if i < 3 then e.code.getLsbD i else _ := BitVec.getLsbD_append
  rw [if_pos hi] at hbit
  rw [← hbit, responseErr, BitVec.getLsbD_extractLsb', getLsbD_responseWord]
  simp [hi]

theorem responseData_responseWord (e : ErrVal) (b : Byte) : responseData (responseWord e b) = b := by
  refine BitVec.eq_of_getLsbD_eq fun i hi => ?_
  simp [responseData, getLsbD_responseWord, hi]

/-! ### The stream of input bytes -/

/-- The byte of channel `c` that a returned command `x.1` with response word `x.2` delivered. -/
def deliveredByte (c : ChNum) (x : Instr × Half) : Option Byte :=
  match x.1 with
  | .deqIn ch => if ch = c ∧ responseErr x.2 = 0 then some (responseData x.2) else none
  | .pop .inp ch => if ch = c ∧ responseErr x.2 = 0 then some (responseData x.2) else none
  | _ => none

theorem delivered_eq (s : State) (c : ChNum) : s.delivered c = s.hostlog.filterMap (deliveredByte c) := rfl

theorem delivered_respond (u : State) (i : Instr) (e : ErrVal) (b : Byte) (c : ChNum) :
    (u.respond i e b).delivered c = u.delivered c ++ (deliveredByte c (i, responseWord e b)).toList := by
  rw [delivered_eq, delivered_eq, respond_hostlog, List.filterMap_append]
  cases h : deliveredByte c (i, responseWord e b) <;> simp [h]

/-- The byte that the running `RXIRQ(c)` has read and not yet pushed. -/
def State.irqTaken (s : State) (c : ChNum) : List Byte := if s.irqPc == .g2 && s.running c false then [s.irqB] else []

/-- The byte of a channel that has arrived and is unread. -/
def Chan.unread (x : Chan) : List Byte := if x.rxPending then [x.rxData] else []

theorem arriving_eq (s : State) (c : ChNum) : s.arriving c = s.irqTaken c ++ (s.chan c).unread := rfl

theorem irqTaken_nil {s : State} {c : ChNum} (h : s.irqPc ≠ .g2) : s.irqTaken c = [] := by
  simp [State.irqTaken, h]

theorem irqTaken_nil_of_not_running {s : State} {c : ChNum} (h : s.running c false = false) : s.irqTaken c = [] := by
  simp [State.irqTaken, h]

theorem irqTaken_running {s : State} {c : ChNum} (hpc : s.irqPc = .g2) (h : s.running c false = true) :
    s.irqTaken c = [s.irqB] := by
  simp [State.irqTaken, hpc, h]

/-- The bytes of channel `c` delivered, held and arriving, in order. -/
def State.inStream (s : State) (c : ChNum) : List Byte :=
  s.delivered c ++ Ring.held s.cfg.cap (s.ring c .inp) ++ s.arriving c

theorem inStream_eq (s : State) (c : ChNum) :
    s.inStream c = s.delivered c ++ Ring.held s.cfg.cap (s.ring c .inp) ++ (s.irqTaken c ++ (s.chan c).unread) := by
  rw [State.inStream, arriving_eq]

theorem inputOrder_iff (s : State) (c : ChNum) :
    s.InputOrder c ↔ (s.inDisciplined c = true → (s.chan c).rxOverrun = false →
      (s.inStream c).Sublist (s.chan c).rxlog) := Iff.rfl

theorem inputComplete_iff (s : State) (c : ChNum) :
    s.InputComplete c ↔ (s.inDisciplined c = true → (s.chan c).rxOverrun = false →
      s.inStream c = (s.chan c).rxlog) := Iff.rfl

/-- The input side of a channel is the same in both. -/
def SameInput (x y : Chan) : Prop :=
  y.inp = x.inp ∧ y.rxPending = x.rxPending ∧ y.rxData = x.rxData ∧ y.rxlog = x.rxlog

/-- What a step of event `e` does to the stream and to the trace of channel `c`: both gain the same bytes, or G2 of
`RXIRQ(c)` drops its byte on a full buffer. -/
inductive InputMove (s t : State) (c : ChNum) : Event → Prop
  | kept (e : Event) (bs : List Byte) (hstream : t.inStream c = s.inStream c ++ bs)
      (hlog : (t.chan c).rxlog = (s.chan c).rxlog ++ bs) : InputMove s t c e
  | dropped (hpc : s.irqPc = .g2) (hrun : s.running c false = true) (hfull : (s.ring c .inp).occ = s.cfg.cap)
      (hsub : (t.inStream c).Sublist (s.inStream c)) (hlog : (t.chan c).rxlog = (s.chan c).rxlog) :
      InputMove s t c .irq

theorem inputMove_of_eq {s t : State} {c : ChNum} {e : Event} (h : t.inStream c = s.inStream c)
    (hlog : (t.chan c).rxlog = (s.chan c).rxlog) : InputMove s t c e :=
  .kept e [] (by rw [h, List.append_nil]) (by rw [hlog, List.append_nil])

theorem inStream_congr {s t : State} {c : ChNum} (hcfg : t.cfg = s.cfg) (hlog : t.hostlog = s.hostlog)
    (htaken : t.irqTaken c = s.irqTaken c) (hchan : SameInput (s.chan c) (t.chan c)) :
    t.inStream c = s.inStream c := by
  obtain ⟨hinp, hpend, hdata, -⟩ := hchan
  have hring : t.ring c .inp = s.ring c .inp := hinp
  rw [inStream_eq, inStream_eq, delivered_eq, delivered_eq, Chan.unread, Chan.unread, hlog, hcfg, hring, htaken,
    hpend, hdata]

/-! ### The discipline -/

theorem inDisciplined_of_issued {s t : State} {c : ChNum} (h : ∀ q, s.issued q = true → t.issued q = true)
    (ht : t.inDisciplined c = true) : s.inDisciplined c = true := by
  unfold State.inDisciplined at ht ⊢
  rw [Bool.not_eq_true'] at ht ⊢
  exact Bool.eq_false_of_not_eq_true fun hs => Bool.false_ne_true (ht.symm.trans (h _ hs))

/-- A disciplined HOST is running no `PUSH IN c` and no `ENQ_IN c`. -/
theorem inDisciplined_command {s : State} {c : ChNum} {i : Instr} (h : s.inDisciplined c = true)
    (hcmd : s.hostCmd = some i) : (∀ v, i ≠ .push .inp c v) ∧ ∀ v, i ≠ .enqIn c v := by
  unfold State.inDisciplined State.issued at h
  rw [hcmd] at h
  constructor
  · rintro v rfl; simp at h
  · rintro v rfl; simp at h

/-! ### HOST's commands -/

/-- While no handler runs, no byte is between its arrival and the input buffer. -/
theorem inStream_stopped {s : State} (c : ChNum) (h : s.inHandler = false) :
    s.inStream c = s.delivered c ++ Ring.held s.cfg.cap (s.ring c .inp) ++ (s.chan c).unread := by
  rw [inStream_eq, irqTaken_nil_of_not_running (running_of_stopped h), List.nil_append]

/-- A command off the input path of the channel it acts on does not use the input buffer. -/
theorem off_input_path {i : Instr} {c : ChNum} (hi : i.isCommand = true) (hc : i.chan? = some c)
    (hpush : ∀ v, i ≠ .push .inp c v) (henq : ∀ v, i ≠ .enqIn c v) (hpop : i ≠ .pop .inp c) (hdeq : i ≠ .deqIn c) :
    pushesInto i .inp = false ∧ popsFrom i .inp = false := by
  cases i with
  | push d ch v =>
    cases hc
    cases d with
    | out => exact ⟨rfl, rfl⟩
    | inp => exact absurd rfl (hpush v)
  | pop d ch =>
    cases hc
    cases d with
    | out => exact ⟨rfl, rfl⟩
    | inp => exact absurd rfl hpop
  | enqIn ch v => cases hc; exact absurd rfl (henq v)
  | deqIn ch => cases hc; exact absurd rfl hdeq
  | rxirq ch => cases hi
  | _ => exact ⟨rfl, rfl⟩

theorem deliveredByte_none {i : Instr} {c : ChNum} {r : Half} (hpop : i ≠ .pop .inp c) (hdeq : i ≠ .deqIn c) :
    deliveredByte c (i, r) = none := by
  unfold deliveredByte
  cases i with
  | pop d ch =>
    cases d with
    | out => rfl
    | inp => exact if_neg (by rintro ⟨rfl, -⟩; exact hpop rfl)
  | deqIn ch => exact if_neg (by rintro ⟨rfl, -⟩; exact hdeq rfl)
  | _ => rfl

/-- A command that does not take from the input buffer of `c` leaves `c`'s stream alone. -/
theorem command_elsewhere_inStream {s t : State} {i : Instr} {c : ChNum} (h : exec i s = .next t)
    (hi : i.isCommand = true) (hcmd : s.hostCmd = some i) (hidle : s.inHandler = false)
    (hd : s.inDisciplined c = true) (hpop : i ≠ .pop .inp c) (hdeq : i ≠ .deqIn c) : t.inStream c = s.inStream c := by
  obtain ⟨hpush, henq⟩ := inDisciplined_command hd hcmd
  have hinput : t.ring c .inp = s.ring c .inp ∧ (t.chan c).unread = (s.chan c).unread := by
    rcases exec_movesChans h c with heq | ⟨hc, hm⟩
    · exact ⟨congrArg Chan.inp heq, congrArg Chan.unread heq⟩
    · obtain ⟨hnopush, hnopop⟩ := off_input_path hi hc hpush henq hpop hdeq
      obtain ⟨hinp, hpend⟩ := chanMove_keeps_inp hm hnopush hnopop
      obtain ⟨-, -, hdata, -⟩ := chanMove_keeps_environment hm
      exact ⟨hinp, by rw [Chan.unread, hpend, hdata]; rfl⟩
  have hshape := exec_commandShape h hi
  obtain ⟨hrun, -⟩ := commandShape_irq hshape
  have hdelivered : t.delivered c = s.delivered c := by
    cases hshape with
    | answers V f n e b _ => rw [delivered_respond, deliveredByte_none hpop hdeq]; exact List.append_nil _
    | goesOn => rfl
  rw [inStream_stopped c hidle, inStream_stopped c (hrun.trans hidle), hinput.1, hinput.2, hdelivered, exec_cfg h]

/-- The micro-steps of the commands that take from the input buffer of `c`. -/
theorem takes_microStep {s t : State} {i : Instr} {c : ChNum} (h : MicroStep s t i)
    (hi : i = .pop .inp c ∨ i = .deqIn c) :
    s.checkChannel i c (afterCheck i) = .next t ∨ s.popAndRespond i c .inp = .next t := by
  rcases hi with rfl | rfl
  · cases h with
    | check hc _ _ h => cases hc; exact .inl h
    | pop _ _ h => exact .inr h
  · cases h with
    | check hc _ _ h => cases hc; exact .inl h
    | deqIn _ _ h => exact .inr h

theorem deliveredByte_takes {i : Instr} {c : ChNum} (hi : i = .pop .inp c ∨ i = .deqIn c) (e : ErrVal) (b : Byte) :
    deliveredByte c (i, responseWord e b) = if e = .none then some b else none := by
  have hcode : e.code = 0#3 ↔ e = .none := by cases e <;> decide
  rcases hi with rfl | rfl <;> simp [deliveredByte, responseErr_responseWord, responseData_responseWord, hcode]

theorem inStream_respond_error {s : State} {i : Instr} {c : ChNum} {e : ErrVal} (hi : i = .pop .inp c ∨ i = .deqIn c)
    (hidle : s.inHandler = false) (he : e ≠ .none) : (s.respond i e 0).inStream c = s.inStream c := by
  rw [inStream_stopped c hidle, inStream_stopped c (s := s.respond i e 0) hidle, delivered_respond,
    deliveredByte_takes hi, if_neg he, Option.toList_none, List.append_nil]
  rfl

/-- A taken byte goes from the front of the held bytes to the end of the delivered ones. -/
theorem takes_inStream {s t : State} {i : Instr} {c : ChNum} (h : MicroStep s t i)
    (hi : i = .pop .inp c ∨ i = .deqIn c) (hidle : s.inHandler = false) : t.inStream c = s.inStream c := by
  rcases takes_microStep h hi with h | h
  · rcases checkChannel_cases s i c (afterCheck i) with ⟨-, hn⟩ | ⟨-, hn⟩ <;>
      obtain rfl := Host.Outcome.next.inj (hn.symm.trans h)
    · rfl
    · exact inStream_respond_error hi hidle (by decide)
  · rcases popAndRespond_next h with ⟨-, rfl⟩ | ⟨ho, ht, hpopped⟩
    · exact inStream_respond_error hi hidle (by decide)
    · have hdelivered : t.delivered c = s.delivered c ++ [(s.ring c .inp).slot (s.ring c .inp).tail] := by
        rw [hpopped, delivered_respond, deliveredByte_takes hi, if_pos rfl]
        rfl
      have hchan : t.chan c = (s.chan c).setRing .inp (Ring.popped s.cfg.cap (s.ring c .inp)) := by
        rw [hpopped]
        exact chan_setChan_same s c _
      have hring : t.ring c .inp = Ring.popped s.cfg.cap (s.ring c .inp) := by rw [State.ring, hchan]; rfl
      have hunread : (t.chan c).unread = (s.chan c).unread := by rw [hchan]; rfl
      have hrun : t.inHandler = false := by rw [hpopped]; exact hidle
      have hcfg : t.cfg = s.cfg := by rw [hpopped]; rfl
      rw [inStream_stopped c hidle, inStream_stopped c hrun, hdelivered, hring, hunread, hcfg, held_popped ho ht]
      simp

theorem command_inStream {s t : State} {i : Instr} {c : ChNum} (h : exec i s = .next t) (hi : i.isCommand = true)
    (hcmd : s.hostCmd = some i) (hidle : s.inHandler = false) (hd : s.inDisciplined c = true) :
    t.inStream c = s.inStream c := by
  by_cases htakes : i = .pop .inp c ∨ i = .deqIn c
  · exact takes_inStream (exec_microStep h) htakes hidle
  · obtain ⟨hpop, hdeq⟩ := not_or.mp htakes
    exact command_elsewhere_inStream h hi hcmd hidle hd hpop hdeq

/-! ### Every event -/

theorem hostStep_inStream {s t : State} {c : ChNum} (h : s.hostStep = .next t) (hs : s.Inv)
    (hd : t.inDisciplined c = true) : t.inStream c = s.inStream c := by
  obtain ⟨-, -, hhost, -⟩ := (inv_iff s).mp hs
  have hback : ∀ {u i}, exec i u = .next t → i.isCommand = true → u.hostCmd = some i → u.inDisciplined c = true :=
    fun hu hi hcmd =>
      inDisciplined_of_issued (fun q hq => (issued_command (exec_commandShape hu hi) hcmd q).trans hq) hd
  obtain ⟨hen, ⟨-, why, rest, -, rfl⟩ | ⟨-, i, rest, hdec, h⟩ | ⟨-, i, hc, h⟩⟩ := hostStep_cases h
  · rfl
  · obtain ⟨hi, -⟩ := decodeCommand_sound hdec
    have hd' : (s.accept i rest).inDisciplined c = true := hback h hi rfl
    exact command_inStream (s := s.accept i rest) h hi rfl (hostEnabled_idle (s := s) hen) hd'
  · obtain ⟨hl, -⟩ := (hostSeqOk_some hc).mp hhost
    have hi := hasHostLabel_isCommand hl
    exact command_inStream h hi hc (hostEnabled_idle hen) (hback h hi hc)

theorem rxRunning_iff (s : State) (c : ChNum) :
    s.running c false = true ↔ s.inHandler = true ∧ irqCh s.curIrq = c ∧ irqIsTx s.curIrq = false := by
  simp [State.running, and_assoc]

/-- The stream after a step of `RXIRQ(c)`, which leaves HOST's trace alone, by the input side of `c`. -/
theorem inStream_of_input {s t : State} {c : ChNum} {F : Ring} {taken unread : List Byte} (hcfg : t.cfg = s.cfg)
    (hlog : t.hostlog = s.hostlog) (hring : t.ring c .inp = F) (htaken : t.irqTaken c = taken)
    (hunread : (t.chan c).unread = unread) :
    t.inStream c = s.delivered c ++ Ring.held s.cfg.cap F ++ (taken ++ unread) := by
  rw [inStream_eq, delivered_eq, delivered_eq, hcfg, hlog, hring, htaken, hunread]

theorem takeArrival_inStream {s t : State} {c : ChNum} (h : s.takeArrival c = .next t) (hpc : s.irqPc = .g1)
    (hpend : (s.chan c).rxPending = true) (hrun : s.running c false = true) : t.inStream c = s.inStream c := by
  have ht := (Host.Outcome.next.inj h).symm
  have hchan : t.chan c = { s.chan c with rxPending := false } := by rw [ht]; exact chan_setChan_same s c _
  have hring : t.ring c .inp = s.ring c .inp := by rw [State.ring, hchan]; rfl
  have htaken : t.irqTaken c = [(s.chan c).rxData] := by rw [ht]; exact irqTaken_running rfl hrun
  have hread : (t.chan c).unread = [] := by rw [hchan]; rfl
  have hunread : (s.chan c).unread = [(s.chan c).rxData] := if_pos hpend
  rw [inStream_of_input (s := s) (by rw [ht]; rfl) (by rw [ht]; rfl) hring htaken hread, inStream_eq,
    irqTaken_nil (by simp [hpc]), hunread]
  rfl

/-- G2 of `RXIRQ(c)` moves the taken byte to the end of the held ones, or drops it. -/
theorem storeArrival_inputMove {s t : State} {c : ChNum} (h : s.storeArrival c = .next t) (hpc : s.irqPc = .g2)
    (hF : Ring.Inv s.cfg.cap (s.ring c .inp)) (hrun : s.running c false = true) : InputMove s t c .irq := by
  have hbyte : s.irqTaken c = [s.irqB] := irqTaken_running hpc hrun
  rcases storeArrival_next h with ⟨hfull, rfl⟩ | ⟨ho, -, ht⟩
  · refine .dropped hpc hrun hfull ?_ rfl
    rw [inStream_eq, inStream_eq, hbyte, irqTaken_nil (by simp)]
    exact (List.sublist_append_right _ _).append_left _
  · have hchan : t.chan c = (s.chan c).setRing .inp (Ring.pushed s.cfg.cap (s.ring c .inp) s.irqB) := by
      rw [ht]; exact chan_setChan_same s c _
    have hring : t.ring c .inp = Ring.pushed s.cfg.cap (s.ring c .inp) s.irqB := by
      rw [State.ring, hchan]; rfl
    have hunread : (t.chan c).unread = (s.chan c).unread := by rw [hchan]; rfl
    refine inputMove_of_eq ?_ (by rw [hchan]; rfl)
    rw [inStream_of_input (s := s) (by rw [ht]; rfl) (by rw [ht]; rfl) hring (irqTaken_nil (by simp [ht])) hunread,
      held_pushed _ hF ho, inStream_eq, hbyte]
    simp

theorem rxirq_inputMove {s t : State} {c : ChNum} (h : exec (.rxirq c) s = .next t) (hs : s.irqSeqOk = true)
    (hF : s.RingsInv) (hrun : s.running c false = true) : InputMove s t c .irq := by
  obtain ⟨hin, hcur, -⟩ := (rxRunning_iff s c).mp hrun
  obtain ⟨-, hlog, -⟩ := exec_keeps_environment h c
  cases exec_microStep h with
  | check _ hi => cases hi
  | take hpc _ h =>
    obtain ⟨-, -, hunread, -⟩ := (irqSeqOk_running hin).mp hs
    exact inputMove_of_eq (takeArrival_inStream h hpc (hcur ▸ hunread hpc) hrun) hlog
  | store hpc _ h => exact storeArrival_inputMove h hpc (hF c .inp) hrun
  | leaveRx hpc _ h =>
    subst h
    refine inputMove_of_eq ?_ rfl
    rw [inStream_eq, inStream_eq, irqTaken_nil (s := s) (by simp [hpc]), irqTaken_nil (by simp)]
    rfl

/-- A handler other than `RXIRQ(c)` does nothing to the input side of `c`. -/
theorem handler_sameInput {s t : State} {c : ChNum} (h : exec (decodeRequest s.curIrq) s = .next t)
    (hrun : s.inHandler = true) (hother : s.running c false = false) : SameInput (s.chan c) (t.chan c) := by
  obtain ⟨-, hlog, hdata, -⟩ := exec_keeps_environment h c
  unfold decodeRequest at h
  split at h
  · obtain ⟨hinp, hpend⟩ := exec_keeps_inp h rfl rfl c
    exact ⟨hinp, hpend, hdata, hlog⟩
  · next hrx =>
      have hne : irqCh s.curIrq ≠ c := fun hc => by
        simp [(rxRunning_iff s c).mpr ⟨hrun, hc, Bool.eq_false_of_not_eq_true hrx⟩] at hother
      rw [exec_other_chan h (fun hc => hne (Option.some.inj hc))]
      exact ⟨rfl, rfl, rfl, rfl⟩

theorem handlerShape_not_running {s t : State} {c : ChNum} {tx : Bool} (h : HandlerShape s t)
    (hs : s.running c tx = false) : t.running c tx = false := by
  cases h with
  | goesOn => exact hs
  | returns => rfl

theorem irqStep_inputMove {s t : State} {c : ChNum} (h : s.irqStep = .next t) (hs : s.Inv) : InputMove s t c .irq := by
  obtain ⟨-, hF, -, hirq, -⟩ := (inv_iff s).mp hs
  obtain ⟨hin, -, h⟩ := irqStep_cases h
  cases hrun : s.running c false with
  | true =>
    obtain ⟨-, hcur, hrx⟩ := (rxRunning_iff s c).mp hrun
    have hi : decodeRequest s.curIrq = .rxirq c := by rw [decodeRequest, hrx, hcur]; rfl
    exact rxirq_inputMove (hi ▸ h) hirq hF hrun
  | false =>
    have hshape := exec_handlerShape h
    have hinput := handler_sameInput h hin hrun
    obtain ⟨-, -, -, -, hhostlog⟩ := handlerShape_host hshape
    obtain ⟨-, -, -, hlog⟩ := id hinput
    refine inputMove_of_eq (inStream_congr (exec_cfg h) hhostlog ?_ hinput) hlog
    rw [irqTaken_nil_of_not_running hrun, irqTaken_nil_of_not_running (handlerShape_not_running hshape hrun)]

/-- A grant, or a byte's end in the transmitter, is no step of the input path. -/
theorem chanStep_sameInput {cap : Nat} {c : ChNum} {e : Event} {x y : Chan} (h : ChanStep cap c x e y)
    (he : (∃ r, e = .grant r) ∨ ∃ c', e = .txDone c') : SameInput x y := by
  cases h with
  | moved hagent => rcases he with ⟨r, rfl⟩ | ⟨c', rfl⟩ <;> simp at hagent
  | arrived => simp at he
  | overrun => simp at he
  | reset => simp at he
  | _ => exact ⟨rfl, rfl, rfl, rfl⟩

theorem chanStep_host_rxlog {cap : Nat} {c : ChNum} {e : Event} {x y : Chan} (h : ChanStep cap c x e y)
    (he : e = .host) : y.rxlog = x.rxlog := by
  cases h with
  | same => rfl
  | moved _ _ hm =>
    obtain ⟨-, hlog, -⟩ := chanMove_keeps_environment hm
    exact hlog
  | _ => cases he

/-- An arrival joins the stream at its end, unless it overruns an unread byte. -/
theorem arrive_inputMove {s : State} {c c' : ChNum} {b : Byte} (hover : ((s.arrive c' b).chan c).rxOverrun = false) :
    InputMove s (s.arrive c' b) c (.rxArrive c' b) := by
  have hhost : (s.arrive c' b).hostlog = s.hostlog := by rw [arrive_eq]
  have htaken : (s.arrive c' b).irqTaken c = s.irqTaken c := by rw [arrive_eq]; rfl
  have hsame := inStream_congr (c := c) (arrive_cfg s c' b) hhost htaken
  rcases arrive_chans s c' b with ⟨hunread, hchans⟩ | ⟨hread, hchans⟩ <;>
    have hchan := (chan_congr hchans c).trans (chan_setChan s c' c _) <;> split at hchan
  · simp [hchan] at hover
  · exact inputMove_of_eq (hsame (by simp [hchan, SameInput])) (by rw [hchan])
  · next heq =>
      subst heq
      have hring : (s.arrive c' b).ring c' .inp = s.ring c' .inp := by rw [State.ring, hchan]; rfl
      have hunread : ((s.arrive c' b).chan c').unread = [b] := by rw [hchan]; rfl
      have hnone : (s.chan c').unread = [] := by simp [Chan.unread, hread]
      refine .kept _ [b] ?_ (by rw [hchan])
      rw [inStream_of_input (s := s) (arrive_cfg s c' b) hhost hring htaken hunread, inStream_eq, hnone]
      simp
  · exact inputMove_of_eq (hsame (by simp [hchan, SameInput])) (by rw [hchan])

theorem grant_irqTaken {s : State} {r : IrqNum} (c : ChNum) (hidle : s.inHandler = false) :
    (s.enterHandler r).irqTaken c = s.irqTaken c := by
  have hfirst : (s.enterHandler r).irqPc ≠ .g2 := by rw [enterHandler_irqPc, firstIrqLabel]; split <;> simp
  rw [irqTaken_nil hfirst, irqTaken_nil_of_not_running (running_of_stopped hidle)]

/-- Everything a step but reset does to a disciplined channel's stream and trace of arrivals. -/
theorem eventStep_inputMove {s t : State} {e : Event} {c : ChNum} (h : s.eventStep e = .next t) (hs : s.Inv)
    (hreset : e ≠ .reset) (hd : t.inDisciplined c = true) (hover : (t.chan c).rxOverrun = false) :
    InputMove s t c e := by
  have hchan := eventStep_chanStep h c
  cases e with
  | host =>
    exact inputMove_of_eq (hostStep_inStream h hs hd) (chanStep_host_rxlog hchan rfl)
  | irq => exact irqStep_inputMove h hs
  | grant r =>
    obtain ⟨hg, rfl⟩ := grant_next h
    obtain ⟨-, hidle, -⟩ := canGrant_spec hg
    have hinput := chanStep_sameInput hchan (.inl ⟨r, rfl⟩)
    obtain ⟨-, -, -, hlog⟩ := id hinput
    exact inputMove_of_eq
      (inStream_congr (enterHandler_cfg s r) (enterHandler_hostlog s r) (grant_irqTaken c hidle) hinput) hlog
  | txDone c' =>
    have hinput := chanStep_sameInput hchan (.inr ⟨c', rfl⟩)
    obtain ⟨-, -, -, hlog⟩ := id hinput
    obtain ⟨-, -, rfl⟩ := txDone_next h
    exact inputMove_of_eq (inStream_congr (s := s) rfl rfl rfl hinput) hlog
  | rxArrive c' b =>
    obtain ⟨-, rfl⟩ := rxArrive_next h
    exact arrive_inputMove hover
  | reset => exact absurd rfl hreset

/-! ### Every step -/

theorem reset_inputComplete (s : State) (c : ChNum) : s.resetEvent.InputComplete c := by
  intro _ _
  have hdelivered : s.resetEvent.delivered c = [] := rfl
  obtain ⟨n, hF⟩ := ring_resetEvent s c .inp
  rw [hdelivered, hF, State.arriving, chan_resetEvent]
  rfl

/-- The premises of the account hold before a step if they hold after it. -/
theorem inputPremises_back {s t : State} {e : Event} {c : ChNum} (h : s.eventStep e = .next t) (hs : s.Inv)
    (hreset : e ≠ .reset) (hd : t.inDisciplined c = true) (hover : (t.chan c).rxOverrun = false) :
    s.inDisciplined c = true ∧ (s.chan c).rxOverrun = false := by
  obtain ⟨-, hsticky⟩ := chanStep_flags_sticky (eventStep_chanStep h c) hreset
  exact ⟨inDisciplined_of_issued (eventStep_issued h hs hreset) hd,
    Bool.eq_false_of_not_eq_true fun hx => Bool.false_ne_true (hover.symm.trans (hsticky hx))⟩

theorem eventStep_inputOrder {s t : State} {e : Event} {c : ChNum} (h : s.eventStep e = .next t) (hs : s.Inv)
    (horder : s.InputOrder c) : t.InputOrder c := by
  by_cases hreset : e = .reset
  · subst hreset
    obtain rfl := Host.Outcome.next.inj h
    exact inputOrder_of_complete (reset_inputComplete s c)
  · rw [inputOrder_iff] at horder ⊢
    intro hd hover
    obtain ⟨hd', hover'⟩ := inputPremises_back h hs hreset hd hover
    cases eventStep_inputMove h hs hreset hd hover with
    | kept _ bs hstream hlog => rw [hstream, hlog]; exact (horder hd' hover').append_right bs
    | dropped _ _ _ hsub hlog => rw [hlog]; exact hsub.trans (horder hd' hover')

theorem eventStep_inputComplete {s t : State} {e : Event} {c : ChNum} (h : s.eventStep e = .next t) (hs : s.Inv)
    (hroom : e = .irq → s.irqPc = .g2 → s.running c false = true → (s.ring c .inp).occ ≠ s.cfg.cap)
    (hcomplete : s.InputComplete c) : t.InputComplete c := by
  by_cases hreset : e = .reset
  · subst hreset
    obtain rfl := Host.Outcome.next.inj h
    exact reset_inputComplete s c
  · rw [inputComplete_iff] at hcomplete ⊢
    intro hd hover
    obtain ⟨hd', hover'⟩ := inputPremises_back h hs hreset hd hover
    cases eventStep_inputMove h hs hreset hd hover with
    | kept _ bs hstream hlog => rw [hstream, hlog, hcomplete hd' hover']
    | dropped hpc hrun hfull => exact absurd hfull (hroom rfl hpc hrun)

/-- A next step that drops no arrival of `c`, and is G2 of `RXIRQ(c)`, finds room. -/
theorem room_of_not_dropsArrival {s : State} {c : ChNum} (h : s.dropsArrival c = false)
    (hnext : s.nextEvent = some .irq) (hpc : s.irqPc = .g2) (hrun : s.running c false = true) :
    (s.ring c .inp).occ ≠ s.cfg.cap := by
  simpa [State.dropsArrival, hnext, hpc, hrun, Ring.isFull] using h

/-- Settles O46: along the stream of delivered, held and arriving bytes a byte only moves on, an arrival joins it at its
end as in the trace, and only a G2 on a full buffer takes a byte out. -/
theorem everyStepKeepsInputOrder : Obligations.EveryStepKeepsInputOrder := by
  refine ⟨fun s t c hs horder h => ?order, fun s t c hs hcomplete hdrop h => ?complete⟩
  case order =>
    rcases step_nextEvent h with ⟨e, es, -, he⟩ | rfl
    · exact eventStep_inputOrder (s := { s with sched := es }) he hs horder
    · exact horder
  case complete =>
    rcases step_nextEvent h with ⟨e, es, hnext, he⟩ | rfl
    · refine eventStep_inputComplete (s := { s with sched := es }) he hs ?_ hcomplete
      rintro rfl hpc hrun
      exact room_of_not_dropsArrival (s := s) hdrop hnext hpc hrun
    · exact hcomplete

end Sys2Proof.Machine
end

/-! ## A buffer between its bounds: push and pop commute (R76) -/

section
namespace Sys2Proof.Machine

/-- Between the bounds `head` is another slot than `tail`. -/
theorem tail_ne_head {cap : Nat} {F : Ring} (h : Ring.Inv cap F) (ho : 0 < F.occ) (hc : F.occ < cap) :
    F.tail ≠ F.head := by
  obtain ⟨-, -, htail, hgap, -⟩ := h
  have hne := add_mod_ne_of_lt (x := F.tail) ho hc
  rwa [hgap, Nat.add_zero, Nat.mod_eq_of_lt htail] at hne

theorem popped_pushed {cap : Nat} {F : Ring} (v : Byte) (ho : 0 < F.occ) :
    Ring.popped cap (Ring.pushed cap F v) = Ring.pushed cap (Ring.popped cap F) v := by
  simp only [Ring.popped, Ring.pushed, Ring.mk.injEq, true_and]
  omega

/-- Settles O12: the push writes at `head`, the pop reads at `tail`, and each leaves the other's index alone. -/
theorem pushAndPopCommuteBetweenTheBounds : Obligations.PushAndPopCommuteBetweenTheBounds := by
  intro cap F v hinv ho hc
  obtain ⟨-, hhead, htail, -⟩ := id hinv
  have hbyte : (Ring.pushed cap F v).slot F.tail = F.slot F.tail := by
    rw [slot_pushed, if_neg (tail_ne_head hinv ho hc)]
  have hpop : (Ring.pushed cap F v).pop cap =
      .ok (some ((Ring.pushed cap F v).slot F.tail), Ring.popped cap (Ring.pushed cap F v)) :=
    ring_pop_held (Nat.succ_ne_zero _) htail
  have hpush : (Ring.popped cap F).push cap v = .ok (.none, Ring.pushed cap (Ring.popped cap F) v) :=
    ring_push_room v (show F.occ - 1 ≠ cap by omega) hhead
  rw [hbyte, popped_pushed v ho] at hpop
  exact ⟨F.slot F.tail, _, _, _, ring_push_room v hc.ne hhead, hpop, ring_pop_held ho.ne' htail, hpush⟩

end Sys2Proof.Machine
end

/-! ## The pump's and `RXIRQ`'s micro-steps as equations (R66, R67, R145, R157, R158, R170, R171) -/

section
namespace Sys2Proof.Machine

/-! ### The shared operations, each branch as an equation -/

theorem respond_eq_answered (s : State) (i : Instr) (e : ErrVal) (b : Byte) :
    s.respond i e b = s.answered i (responseWord e b) := rfl

theorem pushRing_full {s : State} {c : ChNum} {d : Dir} (v : Byte) (h : (s.ring c d).occ = s.cfg.cap) :
    s.pushRing c d v = .ok (.full, s) := by
  rw [pushRing_eq, ring_push_full v h]
  simp

theorem pushRing_room {s : State} {c : ChNum} {d : Dir} (v : Byte) (ho : (s.ring c d).occ ≠ s.cfg.cap)
    (hh : (s.ring c d).head < s.cfg.cap) :
    s.pushRing c d v = .ok (.none, s.setRing c d (Ring.pushed s.cfg.cap (s.ring c d) v)) := by
  rw [pushRing_eq, ring_push_room v ho hh]

theorem popRing_empty {s : State} {c : ChNum} {d : Dir} (h : (s.ring c d).occ = 0) : s.popRing c d = .ok (none, s) := by
  rw [popRing_eq, ring_pop_empty h]
  simp

theorem popRing_held {s : State} {c : ChNum} {d : Dir} (ho : (s.ring c d).occ ≠ 0)
    (ht : (s.ring c d).tail < s.cfg.cap) :
    s.popRing c d =
      .ok (some ((s.ring c d).slot (s.ring c d).tail), s.setRing c d (Ring.popped s.cfg.cap (s.ring c d))) := by
  rw [popRing_eq, ring_pop_held ho ht]

theorem writeTxData_ready {s : State} {c : ChNum} (v : Byte) (hready : (s.chan c).txe = true)
    (hover : (s.chan c).txOverrun = false) :
    s.writeTxData c v = s.setChan c { s.chan c with txData := v, txe := false, txlog := (s.chan c).txlog ++ [v] } := by
  simp [State.writeTxData, hready, hover]

/-- A write to a busy or overrun transmitter (R66). -/
theorem writeTxData_overrun {s : State} {c : ChNum} (v : Byte)
    (hbad : (s.chan c).txe = false ∨ (s.chan c).txOverrun = true) : s.writeTxData c v = s.txFree c false := by
  rcases writeTxData_cases s c v with ⟨hready, hover, -⟩ | ⟨-, hw⟩
  · simp [hready, hover] at hbad
  · exact hw

theorem hostPump_ready {s : State} {c : ChNum} (i : Instr) (ret : ErrVal → ErrVal) (h : (s.chan c).txe = true) :
    s.hostPump i c ret .p1 = .next { s with hostT := true, hostPc := .p2 } := by
  simp [State.hostPump, State.pumpStep, State.readTxe, h]

theorem hostPump_notReady {s : State} {c : ChNum} (i : Instr) (ret : ErrVal → ErrVal) (h : (s.chan c).txe = false) :
    s.hostPump i c ret .p1 = .next (s.answered i (responseWord (ret .hardwareNotReady) 0)) := by
  simp [State.hostPump, State.pumpStep, State.readTxe, h, respond_eq_answered]

theorem hostPump_empty {s : State} {c : ChNum} (i : Instr) (ret : ErrVal → ErrVal) (h : (s.ring c .out).occ = 0) :
    s.hostPump i c ret .p2 = .next (s.answered i (responseWord (ret .empty) 0)) := by
  simp [State.hostPump, State.pumpStep, popRing_empty h, respond_eq_answered]

theorem hostPump_pops {s : State} {c : ChNum} (i : Instr) (ret : ErrVal → ErrVal) (ho : (s.ring c .out).occ ≠ 0)
    (ht : (s.ring c .out).tail < s.cfg.cap) :
    s.hostPump i c ret .p2 = .next { s.setRing c .out (Ring.popped s.cfg.cap (s.ring c .out)) with
      hostPc := .p3, hostB := (s.ring c .out).slot (s.ring c .out).tail } := by
  simp only [State.hostPump, State.pumpStep, popRing_held ho ht]

theorem hostPump_writes (s : State) (i : Instr) (c : ChNum) (ret : ErrVal → ErrVal) :
    s.hostPump i c ret .p3 = .next ((s.writeTxData c s.hostB).answered i (responseWord (ret .none) 0)) := rfl

/-! ### The operations at a label of their pump -/

theorem execPump_at {s : State} {c : ChNum} (pc : PumpPc) (hc : s.validCh c = true) (hpc : s.hostPc = pc.hostLabel) :
    exec (.pump c) s = s.hostPump (.pump c) c id pc := by
  cases pc <;> simp [exec, execPump, hpc, PumpPc.hostLabel, onChannel_valid _ hc]

theorem execEnqOut_at {s : State} {c : ChNum} (p : List Byte) (pc : PumpPc) (hc : s.validCh c = true)
    (hpc : s.hostPc = pc.hostLabel) :
    exec (.enqOut c p) s = s.hostPump (.enqOut c p) c (fun _ => .none) pc := by
  cases pc <;> simp [exec, execEnqOut, hpc, PumpPc.hostLabel, onChannel_valid _ hc]

theorem execTxirq_at {s : State} {c : ChNum} (pc : PumpPc) (hc : s.validCh c = true) (hpc : s.irqPc = pc.irqLabel) :
    exec (.txirq c) s = s.irqPump c pc := by
  cases pc <;> simp [exec, execTxirq, hpc, PumpPc.irqLabel, onChannel_valid _ hc]

/-- Settles O20: `PUMP` and `ENQ_OUT` run the same pump, and differ in the answer they make of its result. -/
theorem hostPumpMovesOneByte : Obligations.HostPumpMovesOneByte := by
  intro s ch p hch
  have hc : s.validCh ch = true := (validCh_iff s ch).mpr hch
  refine ⟨fun hpc hready => ?ready, fun hpc hbusy => ?busy, fun hpc hempty => ?empty, fun b hpc hheld htail hb => ?pops,
    fun hpc hready hover => ?writes⟩
  case ready =>
    rw [execPump_at .p1 hc hpc, execEnqOut_at p .p1 hc hpc]
    exact ⟨hostPump_ready _ _ hready, hostPump_ready _ _ hready⟩
  case busy =>
    rw [execPump_at .p1 hc hpc, execEnqOut_at p .p1 hc hpc]
    exact ⟨hostPump_notReady _ _ hbusy, hostPump_notReady _ _ hbusy⟩
  case empty =>
    rw [execPump_at .p2 hc hpc, execEnqOut_at p .p2 hc hpc]
    exact ⟨hostPump_empty _ _ hempty, hostPump_empty _ _ hempty⟩
  case pops =>
    subst hb
    rw [execPump_at .p2 hc hpc, execEnqOut_at p .p2 hc hpc]
    exact ⟨hostPump_pops _ _ hheld.ne' htail, hostPump_pops _ _ hheld.ne' htail⟩
  case writes =>
    rw [execPump_at .p3 hc hpc, execEnqOut_at p .p3 hc hpc, ← writeTxData_ready s.hostB hready hover]
    exact ⟨hostPump_writes _ _ _ _, hostPump_writes _ _ _ _⟩

/-- Settles O21: at each call site P3 is the write of `tx_data`, whose fault branch draws free values. -/
theorem writeToABusyTransmitterIsAFault : Obligations.WriteToABusyTransmitterIsAFault := by
  intro s ch p hch hbad
  have hc : s.validCh ch = true := (validCh_iff s ch).mpr hch
  refine ⟨fun hpc => ?pump, fun hpc => ?enqOut, fun hpc => ?txirq⟩
  case pump =>
    rw [execPump_at .p3 hc hpc, hostPump_writes, writeTxData_overrun _ hbad]
    exact ⟨_, _, _, rfl, rfl⟩
  case enqOut =>
    rw [execEnqOut_at p .p3 hc hpc, hostPump_writes, writeTxData_overrun _ hbad]
    exact ⟨_, _, _, rfl, rfl⟩
  case txirq =>
    rw [execTxirq_at .p3 hc hpc]
    simp only [State.irqPump, State.pumpStep, writeTxData_overrun _ hbad]
    exact ⟨_, _, _, rfl, rfl⟩

/-- Settles O23: G1 is the read of `rx_data`, G2 a push whose answer is dropped, G3 the handler's return. -/
theorem rxirqMovesTheArrivedByte : Obligations.RxirqMovesTheArrivedByte := by
  intro s c hch
  have hc : s.validCh c = true := (validCh_iff s c).mpr hch
  have hat : ∀ act, s.onChannel c act = act := fun act => onChannel_valid act hc
  refine ⟨fun hpc => ?g1, fun hpc hfull => ?full, fun hpc hroom hhead => ?room, fun hpc => ?g3⟩
  case g1 => simp only [exec, execRxirq, hpc, hat]; rfl
  case full => simp only [exec, execRxirq, hpc, hat, State.storeArrival, pushRing_full _ hfull]
  case room => simp only [exec, execRxirq, hpc, hat, State.storeArrival, pushRing_room _ hroom.ne hhead]
  case g3 => simp only [exec, execRxirq, hpc, hat]; exact ⟨_, rfl, rfl⟩

end Sys2Proof.Machine
end

/-! ## Under any policy the bytes sent are the bytes enqueued, but for the race of log entry 24 (R66, R148 (d), R246) -/

section
namespace Sys2Proof.Machine

/-! ### HOST between P1 and P3 of its pump -/

theorem hostArmed_iff (s : State) (c : ChNum) :
    s.hostArmed c = true ↔ (s.hostPc = .p2 ∨ s.hostPc = .p3) ∧ s.pumpsOn c = true := by
  simp [State.hostArmed]

theorem racing_iff (s : State) (c : ChNum) :
    s.racing c = true ↔ s.hostPc = .p3 ∧ s.pumpsOn c = true ∧ (s.chan c).txe = false := by
  simp [State.racing, and_assoc]

theorem hostArmed_of_racing {s : State} {c : ChNum} (h : s.racing c = true) : s.hostArmed c = true := by
  obtain ⟨hpc, hon, -⟩ := (racing_iff s c).mp h
  exact (hostArmed_iff s c).mpr ⟨.inr hpc, hon⟩

theorem unarmed_of_pc {s : State} (c : ChNum) (h2 : s.hostPc ≠ .p2) (h3 : s.hostPc ≠ .p3) : s.hostArmed c = false := by
  simp [State.hostArmed, h2, h3]

theorem quietPump_of_unarmed {s : State} {c : ChNum} (h : s.hostArmed c = false) : s.QuietPump c :=
  fun harmed => absurd (h.symm.trans harmed) Bool.false_ne_true

theorem pumpsOn_sameHost {s t : State} (h : SameHost s t) (c : ChNum) : t.pumpsOn c = s.pumpsOn c := by
  obtain ⟨-, hcmd, -⟩ := h
  rw [State.pumpsOn, hcmd]
  rfl

theorem hostArmed_sameHost {s t : State} (h : SameHost s t) (c : ChNum) : t.hostArmed c = s.hostArmed c := by
  have hon := pumpsOn_sameHost h c
  obtain ⟨hpc, -⟩ := h
  rw [State.hostArmed, State.hostArmed, hpc, hon]

/-- P2 and P3 of HOST's pump on `c`, whatever command runs it. The answer counts the batch as the pump's labels do. -/
inductive ArmedStep (s t : State) (c : ChNum) : Prop
  | empty (hpc : s.hostPc = .p2) (ho : (s.ring c .out).occ = 0) (i : Instr) (e : ErrVal) (ht : t = s.respond i e 0)
      (hbatch : t.acceptedOut c = s.acceptedOut c)
  | popped (hpc : s.hostPc = .p2) (ho : (s.ring c .out).occ ≠ 0) (htail : (s.ring c .out).tail < s.cfg.cap)
      (ht : t = { s.setRing c .out (Ring.popped s.cfg.cap (s.ring c .out)) with
        hostPc := .p3, hostB := (s.ring c .out).slot (s.ring c .out).tail })
      (hbatch : t.acceptedOut c = s.acceptedOut c)
  | wrote (hpc : s.hostPc = .p3) (i : Instr) (e : ErrVal) (ht : t = (s.writeTxData c s.hostB).respond i e 0)
      (hbatch : t.acceptedOut c = s.acceptedOut c)

theorem armedStep_of_hostPump {s t : State} {i : Instr} {c : ChNum} {ret : ErrVal → ErrVal} {pc : PumpPc}
    (h : s.hostPump i c ret pc = .next t) (hpc : s.hostPc = pc.hostLabel) (harmed : s.hostArmed c = true)
    (hans : ∀ e, returnedBatch c (i, responseWord (ret e) 0) = batchPart c s.hostCmd s.hostPc s.hostI) :
    ArmedStep s t c := by
  obtain ⟨hpc23, -⟩ := (hostArmed_iff s c).mp harmed
  have hanswers : ∀ (u : State) (e : ErrVal), u.hostlog = s.hostlog →
      (u.respond i (ret e) 0).acceptedOut c = s.acceptedOut c := fun u e hlog => by
    rw [acceptedOut_respond, acceptedOut_eq, hlog, hans e]
  rcases hostPump_next h with ⟨rfl, -⟩ | ⟨rfl, -⟩ | ⟨rfl, ho, rfl⟩ | ⟨rfl, ho, htail, ht⟩ | ⟨rfl, rfl⟩
  · simp [hpc, PumpPc.hostLabel] at hpc23
  · simp [hpc, PumpPc.hostLabel] at hpc23
  · exact .empty hpc ho i _ rfl (hanswers s _ rfl)
  · refine .popped hpc ho htail ht ?_
    rw [ht, acceptedOut_eq, acceptedOut_eq, hpc]
    exact congrArg _ (batchPart_pump c s.hostCmd .p3 .p2 s.hostI s.hostI)
  · exact .wrote hpc i _ rfl (hanswers _ _ (by rw [writeTxData_eq]))

theorem hostStep_armed {s t : State} {c : ChNum} (h : s.hostStep = .next t) (harmed : s.hostArmed c = true) :
    ArmedStep s t c := by
  obtain ⟨hpc23, hon⟩ := (hostArmed_iff s c).mp harmed
  obtain ⟨-, ⟨hpc, -⟩ | ⟨hpc, -⟩ | ⟨-, i, hcmd, h⟩⟩ := hostStep_cases h
  · simp [hpc] at hpc23
  · simp [hpc] at hpc23
  · rcases (pumpsOn_iff hcmd).mp hon with ⟨p, rfl⟩ | rfl
    · cases exec_microStep h with
      | check _ _ hpc => simp [hpc] at hpc23
      | preCheck hpc => simp [hpc] at hpc23
      | fill hpc => simp [hpc] at hpc23
      | armCheck hpc => simp [hpc] at hpc23
      | enqOutPump pc hpc _ h =>
        refine armedStep_of_hostPump h hpc harmed (fun e => ?_)
        rw [hcmd, hpc]
        cases pc <;> simp [returnedBatch, batchPart, PumpPc.hostLabel, responseWord, ErrVal.code]
    · cases exec_microStep h with
      | check _ _ hpc => simp [hpc] at hpc23
      | pump pc hpc _ h =>
        refine armedStep_of_hostPump h hpc harmed (fun e => ?_)
        rw [hcmd]
        rfl

/-! ### HOST's step keeps the order, or overruns the transmitter -/

theorem writeTxData_busy_overruns {s t : State} {c : ChNum} {v : Byte} (h : t.chans = (s.writeTxData c v).chans)
    (hbusy : (s.chan c).txe = false) : (t.chan c).txOverrun = true := by
  rw [writeTxData_overrun v (.inl hbusy)] at h
  rw [chan_congr h, chan_txFree, if_pos rfl]

/-- P2 moves the oldest held byte to HOST, and P3 moves it to a ready transmitter. -/
theorem armedStep_tracks {s t : State} {c : ChNum} (h : ArmedStep s t c) (harmed : s.hostArmed c = true)
    (hidle : s.inHandler = false) (hover : (s.chan c).txOverrun = false)
    (hready : s.hostPc = .p3 → (s.chan c).txe = true) : Tracks s t c := by
  cases h with
  | empty hpc _ i e ht hbatch => exact tracks_of_eq (by rw [ht]; exact outStream_answers hidle (by simp [hpc])) hbatch
  | popped hpc ho htail ht hbatch =>
    have hbyte : t.hostPumped c = [(s.ring c .out).slot (s.ring c .out).tail] := by
      obtain ⟨-, hon⟩ := (hostArmed_iff s c).mp harmed
      have harmed' : t.hostArmed c = true := (hostArmed_iff t c).mpr ⟨.inr (by rw [ht]), by rw [ht]; exact hon⟩
      rw [State.hostPumped, harmed', ht]
      rfl
    refine tracks_of_eq ?_ hbatch
    rw [outStream_of_output (s := s) (by rw [ht]; exact hidle) (by rw [ht]; rfl)
      (output_of_setRing (s := s) (by rw [ht])), hbyte, outStream_stopped c hidle, hostPumped_nil (by simp [hpc]),
      held_popped ho htail]
    simp
  | wrote hpc i e ht hbatch =>
    have hbyte : s.hostPumped c = [s.hostB] := by simp [State.hostPumped, hpc, harmed]
    refine tracks_of_eq ?_ hbatch
    rw [outStream_of_output (s := s) (by rw [ht, writeTxData_eq]; exact hidle) (by simp [ht])
      (output_of_writeTxData (v := s.hostB) (by simp [ht]) (hready hpc) hover), hostPumped_nil (by simp [ht]),
      outStream_stopped c hidle, hbyte, List.append_nil]

theorem hostStep_orderOrRace {s t : State} {c : ChNum} (h : s.hostStep = .next t) (hs : s.Inv)
    (horder : s.OrderOrRace c) (hover : (s.chan c).txOverrun = false) (hover' : (t.chan c).txOverrun = false) :
    t.OutputOrder c := by
  cases harmed : s.hostArmed c with
  | false =>
    have hnorace : s.racing c ≠ true := fun hr => by simp [hostArmed_of_racing hr] at harmed
    exact hostStep_outputOrder h hs hover (quietPump_of_unarmed harmed) (horder.resolve_right hnorace)
  | true =>
    obtain ⟨hen, -⟩ := hostStep_cases h
    have hstep := hostStep_armed h harmed
    have hready : s.hostPc = .p3 → (s.chan c).txe = true := fun hpc => by
      cases hstep with
      | empty hpc' => simp [hpc] at hpc'
      | popped hpc' => simp [hpc] at hpc'
      | wrote _ i e ht =>
        by_contra hbusy
        have hfault := writeTxData_busy_overruns (t := t) (by rw [ht]; rfl) (Bool.eq_false_of_not_eq_true hbusy)
        exact Bool.false_ne_true (hover'.symm.trans hfault)
    have hnorace : s.racing c ≠ true := fun hr => by
      obtain ⟨hpc, -, hbusy⟩ := (racing_iff s c).mp hr
      simp [hready hpc] at hbusy
    refine outputOrder_of_tracks (horder.resolve_right hnorace) ?_
      (fun _ => armedStep_tracks hstep harmed (hostEnabled_idle hen) hover hready)
    exact outDisciplined_of_issued (eventStep_issued (e := .host) h hs (by simp))

/-! ### The handlers keep the order, or a race begins -/

theorem racing_sameHost {s t : State} {c : ChNum} (h : SameHost s t) (htxe : (t.chan c).txe = false)
    (hr : s.hostPc = .p3 ∧ s.pumpsOn c = true) : t.racing c = true := by
  obtain ⟨hpc, hon⟩ := hr
  obtain ⟨hpc', -⟩ := id h
  exact (racing_iff t c).mpr ⟨hpc'.trans hpc, (pumpsOn_sameHost h c).trans hon, htxe⟩

theorem outputOrder_sameHost {s t : State} {c : ChNum} (hcfg : t.cfg = s.cfg) (h : SameHost s t)
    (hstream : (t.chan c).txlog ++ (s.hostPumped c ++ t.irqPumped c) ++ Ring.held s.cfg.cap (t.ring c .out) =
      s.outStream c) (horder : s.OutputOrder c) : t.OutputOrder c := by
  obtain ⟨hpc, hcmd, hI, hB, hlog⟩ := h
  exact outputOrder_frame hcfg hpc hcmd hI hB hlog (fun _ => hstream) horder

theorem outputOrder_sameOutput {s t : State} {c : ChNum} (hcfg : t.cfg = s.cfg) (h : SameHost s t)
    (hirq : t.irqPumped c = s.irqPumped c) (hout : (t.chan c).out = (s.chan c).out)
    (htxlog : (t.chan c).txlog = (s.chan c).txlog) (horder : s.OutputOrder c) : t.OutputOrder c := by
  obtain ⟨hpc, hcmd, hI, hB, hlog⟩ := h
  exact outputOrder_frame_quiet hcfg hpc hcmd hI hB hlog hirq hout htxlog horder

theorem writeTxData_txe {s t : State} {c : ChNum} {v : Byte} (h : t.chans = (s.writeTxData c v).chans) :
    (t.chan c).txe = false := by
  rw [chan_congr h]
  rcases writeTxData_cases s c v with ⟨-, -, hw⟩ | ⟨-, hw⟩ <;> rw [hw]
  · rw [chan_setChan_same]
  · rw [chan_txFree, if_pos rfl]

/-- `TXIRQ(c)` writes the trace at its P3 alone, and leaves the transmitter busy there. -/
theorem txirq_transmitter {s t : State} {c : ChNum} (h : MicroStep s t (.txirq c)) :
    ((t.chan c).txlog = (s.chan c).txlog ∧ (t.chan c).txe = (s.chan c).txe ∧
      (t.chan c).txOverrun = (s.chan c).txOverrun) ∨
    (s.irqPc = .p3 ∧ t.chans = (s.writeTxData c s.irqB).chans) := by
  cases h with
  | check _ hi => cases hi
  | txPump pc hpc _ h =>
    rcases irqPump_next h with ⟨-, -, rfl⟩ | ⟨-, -, rfl⟩ | ⟨-, -, rfl⟩ | ⟨-, -, -, ht⟩ | ⟨rfl, rfl⟩
    · exact .inl ⟨rfl, rfl, rfl⟩
    · exact .inl ⟨rfl, rfl, rfl⟩
    · exact .inl ⟨rfl, rfl, rfl⟩
    · have hchan : t.chan c = (s.chan c).setRing .out (Ring.popped s.cfg.cap (s.ring c .out)) := by
        rw [ht]; exact chan_setChan_same s c _
      rw [hchan]
      exact .inl ⟨rfl, rfl, rfl⟩
    · exact .inr ⟨hpc, rfl⟩
  | leaveTx _ _ h => subst h; exact .inl ⟨rfl, rfl, rfl⟩

/-- A byte that `TXIRQ(c)` writes while HOST holds an older one overtakes it: that is the race. -/
theorem txirq_orderOrRace {s t : State} {c : ChNum} (h : exec (.txirq c) s = .next t) (hs : s.irqSeqOk = true)
    (hhost : SameHost s t) (hrun : s.running c true = true) (hover : (s.chan c).txOverrun = false)
    (horder : s.OutputOrder c) : t.OrderOrRace c := by
  have hstep := exec_microStep h
  have hstream := txirq_stream hstep hs hrun hover
  by_cases hheld : s.hostPc = .p3 ∧ s.pumpsOn c = true
  · rcases txirq_transmitter hstep with ⟨htxlog, -⟩ | ⟨-, hwrote⟩
    · refine .inl (outputOrder_sameHost (exec_cfg h) hhost ?_ horder)
      rw [htxlog, List.append_assoc, List.append_assoc] at hstream
      rw [htxlog, State.outStream, inPump_eq]
      simp only [List.append_assoc, List.append_cancel_left hstream]
    · exact .inr (racing_sameHost hhost (writeTxData_txe hwrote) hheld)
  · have hnone : s.hostPumped c = [] := by
      refine if_neg fun hp => hheld ?_
      obtain ⟨hpc, harmed⟩ := Bool.and_eq_true_iff.mp hp
      obtain ⟨-, hon⟩ := (hostArmed_iff s c).mp harmed
      exact ⟨eq_of_beq hpc, hon⟩
    refine .inl (outputOrder_sameHost (exec_cfg h) hhost ?_ horder)
    rw [State.outStream, inPump_eq, hnone]
    exact hstream

theorem txirq_of_running {s : State} {c : ChNum} (h : s.running c true = true) : decodeRequest s.curIrq = .txirq c := by
  obtain ⟨-, hcur, htx⟩ := (running_iff s c).mp h
  rw [decodeRequest, if_pos htx, hcur]

theorem irqStep_orderOrRace {s t : State} {c : ChNum} (h : s.irqStep = .next t) (hs : s.irqSeqOk = true)
    (hover : (s.chan c).txOverrun = false) (horder : s.OutputOrder c) : t.OrderOrRace c := by
  have hhost := irqStep_sameHost h
  obtain ⟨hin, -, h⟩ := irqStep_cases h
  cases hrun : s.running c true with
  | true => exact txirq_orderOrRace (txirq_of_running hrun ▸ h) hs hhost hrun hover horder
  | false =>
    obtain ⟨hout, htxlog⟩ := handler_elsewhere h hin hrun
    refine .inl (outputOrder_sameOutput (exec_cfg h) hhost ?_ hout htxlog horder)
    rw [irqPumped_nil_of_not_running hrun,
      irqPumped_nil_of_not_running (handlerShape_not_running (exec_handlerShape h) hrun)]

/-! ### The arbiter and the UART keep the order -/

theorem grant_irqPumped {s : State} {r : IrqNum} (c : ChNum) (hidle : s.inHandler = false) :
    (s.enterHandler r).irqPumped c = s.irqPumped c := by
  have hfirst : (s.enterHandler r).irqPc ≠ .p3 := by rw [enterHandler_irqPc, firstIrqLabel]; split <;> simp
  rw [irqPumped_nil hfirst, irqPumped_nil_of_not_running (running_of_stopped hidle)]

theorem uart_irqPumped {s t : State} {e : Event} (c : ChNum) (h : s.eventStep e = .next t)
    (he : (∃ c, e = .txDone c) ∨ ∃ c b, e = .rxArrive c b) : t.irqPumped c = s.irqPumped c := by
  obtain ⟨hin, hcur, hpc, hB⟩ := eventStep_sameHandler h he
  rw [State.irqPumped, State.irqPumped, State.running, State.running, hin, hcur, hpc, hB]

theorem eventStep_irqPumped {s t : State} {e : Event} (c : ChNum) (h : s.eventStep e = .next t)
    (hhost : e ≠ .host) (hirq : e ≠ .irq) (hreset : e ≠ .reset) : t.irqPumped c = s.irqPumped c := by
  cases e with
  | host => exact absurd rfl hhost
  | irq => exact absurd rfl hirq
  | grant r =>
    obtain ⟨hg, rfl⟩ := grant_next h
    obtain ⟨-, hidle, -⟩ := canGrant_spec hg
    exact grant_irqPumped c hidle
  | txDone c' => exact uart_irqPumped c h (.inl ⟨c', rfl⟩)
  | rxArrive c' b => exact uart_irqPumped c h (.inr ⟨c', b, rfl⟩)
  | reset => exact absurd rfl hreset

/-- The steps that are no agent's of the output path keep its order. -/
theorem eventStep_outputOrder_of_no_agent {s t : State} {e : Event} {c : ChNum} (h : s.eventStep e = .next t)
    (hhost : e ≠ .host) (hirq : e ≠ .irq) (hreset : e ≠ .reset) (horder : s.OutputOrder c) : t.OutputOrder c := by
  obtain ⟨hout, htxlog⟩ := chanStep_keeps_output (eventStep_chanStep h c) hhost hirq hreset
  exact outputOrder_sameOutput (eventStep_cfg h) (eventStep_sameHost h hhost hreset)
    (eventStep_irqPumped c h hhost hirq hreset) hout htxlog horder

/-! ### A race goes on until HOST's write or the end of the newer byte -/

theorem chanStep_stays_busy {cap : Nat} {c : ChNum} {e : Event} {x y : Chan} (h : ChanStep cap c x e y)
    (hdone : e ≠ .txDone c) (hreset : e ≠ .reset) (hx : x.txe = false) : y.txe = false := by
  cases h with
  | moved _ _ hm => exact chanMove_txe_not_set hm hx
  | done => exact absurd rfl hdone
  | reset => exact absurd rfl hreset
  | _ => exact hx

theorem eventStep_racing {s t : State} {e : Event} {c : ChNum} (h : s.eventStep e = .next t) (hhost : e ≠ .host)
    (hdone : e ≠ .txDone c) (hreset : e ≠ .reset) (hr : s.racing c = true) : t.racing c = true := by
  obtain ⟨hpc, hon, hbusy⟩ := (racing_iff s c).mp hr
  exact racing_sameHost (eventStep_sameHost h hhost hreset)
    (chanStep_stays_busy (eventStep_chanStep h c) hdone hreset hbusy) ⟨hpc, hon⟩

theorem eventStep_orderOrRace {s t : State} {e : Event} {c : ChNum} (h : s.eventStep e = .next t) (hs : s.Inv)
    (hor : s.OrderOrRace c) (hdone : s.OutputOrder c ∨ e ≠ .txDone c) (hover' : (t.chan c).txOverrun = false) :
    t.OrderOrRace c := by
  by_cases hreset : e = .reset
  · subst hreset
    obtain rfl := Host.Outcome.next.inj h
    exact .inl (reset_outputOrder s c)
  · obtain ⟨hsticky, -⟩ := chanStep_flags_sticky (eventStep_chanStep h c) hreset
    have hover : (s.chan c).txOverrun = false :=
      Bool.eq_false_of_not_eq_true fun hx => Bool.false_ne_true (hover'.symm.trans (hsticky hx))
    by_cases hhost : e = .host
    · subst hhost
      exact .inl (hostStep_orderOrRace h hs hor hover hover')
    · by_cases horder : s.OutputOrder c
      · by_cases hirq : e = .irq
        · subst hirq
          obtain ⟨-, -, -, hirq, -⟩ := (inv_iff s).mp hs
          exact irqStep_orderOrRace h hirq hover horder
        · exact .inl (eventStep_outputOrder_of_no_agent h hhost hirq hreset horder)
      · exact .inr (eventStep_racing h hhost (hdone.resolve_left horder) hreset (hor.resolve_left horder))

end Sys2Proof.Machine
end

/-! ## Without a grant into HOST's pump no transmitter is overrun (R66, R177, R246) -/

section
namespace Sys2Proof.Machine

/-! ### HOST's step before its pump's P2, or off the pump -/

/-- A step of HOST that leaves the transmitter of `c` un-overrun, and at P2 or P3 of its pump on `c` finds it ready. -/
def ArmsReady (s t : State) (c : ChNum) : Prop :=
  (t.chan c).txOverrun = (s.chan c).txOverrun ∧ (t.hostArmed c = true → (t.chan c).txe = true)

theorem armsReady_of_unarmed {s t : State} {c : ChNum} (hover : (t.chan c).txOverrun = (s.chan c).txOverrun)
    (h : t.hostArmed c = false) : ArmsReady s t c :=
  ⟨hover, fun harmed => absurd (h.symm.trans harmed) Bool.false_ne_true⟩

theorem armsReady_of_pc {s t : State} {c : ChNum} (hchans : t.chans = s.chans) (h2 : t.hostPc ≠ .p2)
    (h3 : t.hostPc ≠ .p3) : ArmsReady s t c :=
  armsReady_of_unarmed (by rw [chan_congr hchans]) (unarmed_of_pc c h2 h3)

theorem checkChannel_armsReady {s t : State} {i : Instr} {c c' : ChNum} {pc : HostPc}
    (h : s.checkChannel i c' pc = .next t) (h2 : pc ≠ .p2) (h3 : pc ≠ .p3) : ArmsReady s t c := by
  rcases checkChannel_cases s i c' pc with ⟨-, hn⟩ | ⟨-, hn⟩ <;> obtain rfl := Host.Outcome.next.inj (hn.symm.trans h)
  · exact armsReady_of_pc rfl h2 h3
  · exact armsReady_of_pc rfl (by simp) (by simp)

theorem fillStep_armsReady {s t : State} {c : ChNum} {p : List Byte} (h : s.fillStep c p = .next t) :
    ArmsReady s t c := by
  obtain ⟨v, -, ⟨-, rfl⟩ | ⟨-, -, ht⟩⟩ := fillStep_next h
  · exact armsReady_of_pc rfl (by simp) (by simp)
  · have hchan : t.chan c = (s.chan c).setRing .out (Ring.pushed s.cfg.cap (s.ring c .out) v) := by
      rw [ht]; exact chan_setChan_same s c _
    refine armsReady_of_unarmed (by rw [hchan]; rfl) (unarmed_of_pc c ?_ ?_) <;>
      rw [ht] <;> dsimp only <;> split <;> simp

/-- HOST gets between P1 and P3 of a pump by a P1 that reads the flag as 1. -/
theorem hostPump_armsReady {s t : State} {i : Instr} {c : ChNum} {ret : ErrVal → ErrVal} {pc : PumpPc}
    (h : s.hostPump i c ret pc = .next t) (hpc : s.hostPc = pc.hostLabel) (hon : s.pumpsOn c = true)
    (hunarmed : s.hostArmed c = false) : ArmsReady s t c := by
  have h2 : s.hostPc ≠ .p2 := fun hp => by simp [(hostArmed_iff s c).mpr ⟨.inl hp, hon⟩] at hunarmed
  have h3 : s.hostPc ≠ .p3 := fun hp => by simp [(hostArmed_iff s c).mpr ⟨.inr hp, hon⟩] at hunarmed
  rcases hostPump_next h with ⟨-, hready, rfl⟩ | ⟨-, -, rfl⟩ | ⟨rfl, -⟩ | ⟨rfl, -⟩ | ⟨rfl, -⟩
  · exact ⟨rfl, fun _ => hready⟩
  · exact armsReady_of_pc rfl (by simp) (by simp)
  · exact absurd hpc h2
  · exact absurd hpc h2
  · exact absurd hpc h3

theorem command_path_armsReady {s t : State} {i : Instr} {c : ChNum} (h : MicroStep s t i) (hcmd : s.hostCmd = some i)
    (hon : s.pumpsOn c = true) (hunarmed : s.hostArmed c = false) : ArmsReady s t c := by
  rcases (pumpsOn_iff hcmd).mp hon with ⟨p, rfl⟩ | rfl
  · cases h with
    | check _ _ _ h => exact checkChannel_armsReady h (by simp [afterCheck]) (by simp [afterCheck])
    | preCheck _ _ h =>
      rcases preCheck_next h with ⟨-, rfl⟩ | ⟨-, rfl⟩
      · exact armsReady_of_pc rfl (by simp) (by simp)
      · exact armsReady_of_pc rfl (by cases p <;> simp) (by cases p <;> simp)
    | fill _ _ h => exact fillStep_armsReady h
    | armCheck _ _ h =>
      rcases armCheck_next h with ⟨-, rfl⟩ | ⟨-, rfl⟩ <;> exact armsReady_of_pc rfl (by simp) (by simp)
    | enqOutPump pc hpc _ h => exact hostPump_armsReady h hpc hon hunarmed
  · cases h with
    | check _ _ _ h => exact checkChannel_armsReady h (by simp [afterCheck]) (by simp [afterCheck])
    | pump pc hpc _ h => exact hostPump_armsReady h hpc hon hunarmed

theorem transmits_command {i : Instr} {c : ChNum} (h : transmits i = true) (hi : i.isCommand = true)
    (hc : i.chan? = some c) : (∃ p, i = .enqOut c p) ∨ i = .pump c := by
  cases i with
  | enqOut ch p => cases hc; exact .inl ⟨p, rfl⟩
  | pump ch => cases hc; exact .inr rfl
  | txirq ch => cases hi
  | _ => cases h

theorem chanMove_keeps_txOverrun {cap : Nat} {i : Instr} {x y : Chan} (h : ChanMove cap i x y)
    (htx : transmits i = false) : y.txOverrun = x.txOverrun := by
  cases h with
  | overrun _ _ h => simp [htx] at h
  | _ => simp

theorem command_elsewhere_armsReady {s t : State} {i : Instr} {c : ChNum} (h : exec i s = .next t)
    (hi : i.isCommand = true) (hcmd : s.hostCmd = some i) (hoff : s.pumpsOn c = false) : ArmsReady s t c := by
  refine armsReady_of_unarmed ?flag ?unarmed
  case flag =>
    rcases exec_movesChans h c with heq | ⟨hc, hm⟩
    · rw [heq]
    · refine chanMove_keeps_txOverrun hm (Bool.eq_false_of_not_eq_true fun htx => ?_)
      rw [(pumpsOn_iff hcmd).mpr (transmits_command htx hi hc)] at hoff
      cases hoff
  case unarmed =>
    cases exec_commandShape h hi with
    | answers => exact unarmed_of_pc c (by simp) (by simp)
    | goesOn => exact hostArmed_of_not_pumpsOn hoff

theorem command_armsReady {s t : State} {i : Instr} {c : ChNum} (h : exec i s = .next t) (hi : i.isCommand = true)
    (hcmd : s.hostCmd = some i) (hunarmed : s.hostArmed c = false) : ArmsReady s t c := by
  cases hon : s.pumpsOn c with
  | true => exact command_path_armsReady (exec_microStep h) hcmd hon hunarmed
  | false => exact command_elsewhere_armsReady h hi hcmd hon

theorem hostStep_armsReady {s t : State} {c : ChNum} (h : s.hostStep = .next t) (hs : s.Inv)
    (hunarmed : s.hostArmed c = false) : ArmsReady s t c := by
  obtain ⟨-, -, hhost, -⟩ := (inv_iff s).mp hs
  obtain ⟨-, ⟨-, why, rest, -, rfl⟩ | ⟨-, i, rest, hdec, h⟩ | ⟨-, i, hcmd, h⟩⟩ := hostStep_cases h
  · exact armsReady_of_unarmed rfl hunarmed
  · obtain ⟨hi, -⟩ := decodeCommand_sound hdec
    have hunarmed' : (s.accept i rest).hostArmed c = false := by
      refine unarmed_of_pc c ?_ ?_ <;> cases i <;> simp [firstLabel]
    exact command_armsReady (s := s.accept i rest) h hi rfl hunarmed'
  · obtain ⟨hl, -⟩ := (hostSeqOk_some hcmd).mp hhost
    exact command_armsReady h (hasHostLabel_isCommand hl) hcmd hunarmed

/-! ### HOST's step at P2 or P3 of its pump -/

theorem armedStep_armsReady {s t : State} {c : ChNum} (h : ArmedStep s t c) (hready : (s.chan c).txe = true)
    (hover : (s.chan c).txOverrun = false) : ArmsReady s t c := by
  cases h with
  | empty _ _ i e ht => subst ht; exact armsReady_of_pc rfl (by simp) (by simp)
  | popped _ _ _ ht =>
    have hchan : t.chan c = (s.chan c).setRing .out (Ring.popped s.cfg.cap (s.ring c .out)) := by
      rw [ht]; exact chan_setChan_same s c _
    exact ⟨by rw [hchan]; rfl, fun _ => by rw [hchan]; exact hready⟩
  | wrote _ i e ht =>
    rw [writeTxData_ready _ hready hover] at ht
    have hchan := (chan_congr (show t.chans = _ by rw [ht]; rfl) c).trans (chan_setChan_same s c _)
    exact armsReady_of_unarmed (by rw [hchan]) (unarmed_of_pc c (by simp [ht]) (by simp [ht]))

theorem hostStep_stopped {s t : State} (h : s.hostStep = .next t) (hs : s.Inv) : t.inHandler = false := by
  obtain ⟨-, -, hhost, -⟩ := (inv_iff s).mp hs
  obtain ⟨hen, ⟨-, why, rest, -, rfl⟩ | ⟨-, i, rest, hdec, h⟩ | ⟨-, i, hcmd, h⟩⟩ := hostStep_cases h
  · exact hostEnabled_idle (s := s) hen
  · obtain ⟨hi, -⟩ := decodeCommand_sound hdec
    obtain ⟨hrun, -⟩ := commandShape_irq (exec_commandShape h hi)
    exact hrun.trans (hostEnabled_idle (s := s) hen)
  · obtain ⟨hl, -⟩ := (hostSeqOk_some hcmd).mp hhost
    obtain ⟨hrun, -⟩ := commandShape_irq (exec_commandShape h (hasHostLabel_isCommand hl))
    exact hrun.trans (hostEnabled_idle hen)

theorem hostStep_pumpSafe {s t : State} {c : ChNum} (h : s.hostStep = .next t) (hs : s.Inv) (hsafe : s.PumpSafe c) :
    t.PumpSafe c := by
  obtain ⟨hover, hpump⟩ := hsafe
  have harms : ArmsReady s t c := by
    cases harmed : s.hostArmed c with
    | false => exact hostStep_armsReady h hs harmed
    | true => exact armedStep_armsReady (hostStep_armed h harmed) (hpump harmed).1 hover
  obtain ⟨hover', hready⟩ := harms
  exact ⟨hover'.trans hover, fun harmed => ⟨hready harmed, running_of_stopped (hostStep_stopped h hs)⟩⟩

/-! ### The handlers -/

theorem handler_elsewhere_transmitter {s t : State} {c : ChNum} (h : exec (decodeRequest s.curIrq) s = .next t)
    (hin : s.inHandler = true) (hother : s.running c true = false) :
    (t.chan c).txe = (s.chan c).txe ∧ (t.chan c).txOverrun = (s.chan c).txOverrun := by
  unfold decodeRequest at h
  split at h
  · next htx =>
      have hne : irqCh s.curIrq ≠ c := fun hc => by simp [(running_iff s c).mpr ⟨hin, hc, htx⟩] at hother
      rw [exec_other_chan h (fun hc => hne (Option.some.inj hc))]
      exact ⟨rfl, rfl⟩
  · obtain ⟨-, -, htxe, hover, -⟩ := exec_keeps_out h rfl rfl rfl c
    exact ⟨htxe, hover⟩

/-- `TXIRQ(c)` writes at its P3 to a transmitter that is ready. -/
theorem txirq_keeps_txOverrun {s t : State} {c : ChNum} (h : exec (.txirq c) s = .next t) (hs : s.irqSeqOk = true)
    (hrun : s.running c true = true) (hover : (s.chan c).txOverrun = false) : (t.chan c).txOverrun = false := by
  obtain ⟨hin, hcur, -⟩ := (running_iff s c).mp hrun
  rcases txirq_transmitter (exec_microStep h) with ⟨-, -, heq⟩ | ⟨hpc, hwrote⟩
  · exact heq.trans hover
  · obtain ⟨-, -, -, hready⟩ := (irqSeqOk_running hin).mp hs
    rw [writeTxData_ready _ (hcur ▸ hready (.inr hpc)) hover] at hwrote
    rw [chan_congr hwrote, chan_setChan_same]
    exact hover

theorem irqStep_pumpSafe {s t : State} {c : ChNum} (h : s.irqStep = .next t) (hs : s.irqSeqOk = true)
    (hsafe : s.PumpSafe c) : t.PumpSafe c := by
  obtain ⟨hover, hpump⟩ := hsafe
  have harmed := hostArmed_sameHost (irqStep_sameHost h) c
  obtain ⟨hin, -, h⟩ := irqStep_cases h
  cases hrun : s.running c true with
  | true =>
    refine ⟨txirq_keeps_txOverrun (txirq_of_running hrun ▸ h) hs hrun hover, fun ht => ?_⟩
    obtain ⟨-, hstopped⟩ := hpump (harmed.symm.trans ht)
    exact absurd (hstopped.symm.trans hrun) Bool.false_ne_true
  | false =>
    obtain ⟨htxe, hover'⟩ := handler_elsewhere_transmitter h hin hrun
    refine ⟨hover'.trans hover, fun ht => ?_⟩
    obtain ⟨hready, -⟩ := hpump (harmed.symm.trans ht)
    exact ⟨htxe.trans hready, handlerShape_not_running (exec_handlerShape h) hrun⟩

/-! ### The arbiter and the UART -/

theorem chanStep_keeps_ready {cap : Nat} {c : ChNum} {e : Event} {x y : Chan} (h : ChanStep cap c x e y)
    (hhost : e ≠ .host) (hirq : e ≠ .irq) (hreset : e ≠ .reset) :
    y.txOverrun = x.txOverrun ∧ (x.txe = true → y.txe = true) := by
  cases h with
  | moved hagent => exact absurd hagent (not_or.mpr ⟨hhost, hirq⟩)
  | reset => exact absurd rfl hreset
  | _ => simp

/-- A step of the arbiter or of the UART starts `TXIRQ(c)` only as its grant. -/
theorem eventStep_starts_txirq {s t : State} {e : Event} {c : ChNum} (h : s.eventStep e = .next t) (hhost : e ≠ .host)
    (hirq : e ≠ .irq) (hreset : e ≠ .reset) (hs : s.running c true = false) (ht : t.running c true = true) :
    e = .grant (requestNumber c true) := by
  have huart : ((∃ c, e = .txDone c) ∨ ∃ c b, e = .rxArrive c b) → e = .grant (requestNumber c true) := fun he => by
    obtain ⟨hin, hcur, -⟩ := eventStep_sameHandler h he
    rw [State.running, hin, hcur] at ht
    exact absurd (hs.symm.trans ht) Bool.false_ne_true
  cases e with
  | host => exact absurd rfl hhost
  | irq => exact absurd rfl hirq
  | grant r =>
    obtain ⟨-, rfl⟩ := grant_next h
    obtain ⟨-, hch, htx⟩ := (running_iff _ c).mp ht
    rw [enterHandler_curIrq] at hch htx
    rw [← hch, ← htx, requestNumber_fields]
  | txDone c' => exact huart (.inl ⟨c', rfl⟩)
  | rxArrive c' b => exact huart (.inr ⟨c', b, rfl⟩)
  | reset => exact absurd rfl hreset

theorem pumpSafe_of_no_agent {s t : State} {e : Event} {c : ChNum} (h : s.eventStep e = .next t) (hhost : e ≠ .host)
    (hirq : e ≠ .irq) (hreset : e ≠ .reset) (hsafe : s.PumpSafe c)
    (hgrant : s.hostArmed c = true → e ≠ .grant (requestNumber c true)) : t.PumpSafe c := by
  obtain ⟨hover, hpump⟩ := hsafe
  obtain ⟨hover', hkeeps⟩ := chanStep_keeps_ready (eventStep_chanStep h c) hhost hirq hreset
  have harmed := hostArmed_sameHost (eventStep_sameHost h hhost hreset) c
  refine ⟨hover'.trans hover, fun ht => ?_⟩
  have hs := harmed.symm.trans ht
  obtain ⟨hready, hstopped⟩ := hpump hs
  exact ⟨hkeeps hready, Bool.eq_false_of_not_eq_true fun hrun =>
    hgrant hs (eventStep_starts_txirq h hhost hirq hreset hstopped hrun)⟩

theorem reset_pumpSafe (s : State) (c : ChNum) : s.resetEvent.PumpSafe c :=
  ⟨by simp [Chan.fresh], fun harmed => by cases harmed⟩

theorem eventStep_pumpSafe {s t : State} {e : Event} {c : ChNum} (h : s.eventStep e = .next t) (hs : s.Inv)
    (hsafe : s.PumpSafe c) (hgrant : s.hostArmed c = true → e ≠ .grant (requestNumber c true)) : t.PumpSafe c := by
  by_cases hhost : e = .host
  · subst hhost; exact hostStep_pumpSafe h hs hsafe
  · by_cases hirq : e = .irq
    · subst hirq
      obtain ⟨-, -, -, hseq, -⟩ := (inv_iff s).mp hs
      exact irqStep_pumpSafe h hseq hsafe
    · by_cases hreset : e = .reset
      · subst hreset
        obtain rfl := Host.Outcome.next.inj h
        exact reset_pumpSafe s c
      · exact pumpSafe_of_no_agent h hhost hirq hreset hsafe hgrant

/-! ### Every step -/

theorem not_racing_of_pumpSafe {s : State} {c : ChNum} (h : s.PumpSafe c) : s.racing c ≠ true := fun hr => by
  obtain ⟨-, -, hbusy⟩ := (racing_iff s c).mp hr
  obtain ⟨-, hpump⟩ := h
  obtain ⟨hready, -⟩ := hpump (hostArmed_of_racing hr)
  simp [hready] at hbusy

theorem not_granted_of_not_grantsIntoPump {s : State} {c : ChNum} {e : Event} (h : s.grantsIntoPump c = false)
    (hnext : s.nextEvent = some e) (harmed : s.hostArmed c = true) : e ≠ .grant (requestNumber c true) := by
  rintro rfl
  simp [State.grantsIntoPump, harmed, hnext] at h

/-- Settles O59: the order is lost only where `TXIRQ(c)` writes past a byte HOST holds, which leaves the transmitter
busy: a race, until HOST's write overruns the transmitter. With no grant between P1 and P3 no `TXIRQ(c)` runs there. -/
theorem anyPolicyKeepsOutputOrder : Obligations.AnyPolicyKeepsOutputOrder := by
  refine ⟨fun s t c hs hor hdone h hover => ?race, fun s t c hs hsafe horder hgrant h => ?safe⟩
  case race =>
    rcases step_nextEvent h with ⟨e, es, hnext, he⟩ | rfl
    · refine eventStep_orderOrRace (s := { s with sched := es }) he hs hor (hdone.imp_right fun hne => ?_) hover
      rintro rfl
      exact hne hnext
    · exact hor
  case safe =>
    rcases step_nextEvent h with ⟨e, es, hnext, he⟩ | rfl
    · have hsafe' : t.PumpSafe c := eventStep_pumpSafe (s := { s with sched := es }) he hs hsafe
        (not_granted_of_not_grantsIntoPump (s := s) hgrant hnext)
      obtain ⟨hover, -⟩ := id hsafe'
      have hor : t.OrderOrRace c :=
        eventStep_orderOrRace (s := { s with sched := es }) he hs (.inl horder) (.inl horder) hover
      exact ⟨hsafe', hor.resolve_right (not_racing_of_pumpSafe hsafe')⟩
    · exact ⟨hsafe, horder⟩

end Sys2Proof.Machine
end

/-! ## Headers: the rows of R93, and what is read from each (R91 to R95, R99) -/

section
namespace Sys2Proof

/-! ### A header's fields -/

theorem exists_header (w : Half) : ∃ op dir ch arg, w = header op dir ch arg := ⟨_, _, _, _, (header_fields w).symm⟩

theorem toNat_fieldOp (w : Half) : (fieldOp w).toNat = w.toNat / 4096 := by
  have := w.isLt
  simp only [fieldOp, BitVec.extractLsb'_toNat, Nat.shiftRight_eq_div_pow]
  omega

theorem toNat_fieldDir (w : Half) : (fieldDir w).toNat = w.toNat / 2048 % 2 := by
  simp [fieldDir, Nat.shiftRight_eq_div_pow]

theorem toNat_fieldCh (w : Half) : (fieldCh w).toNat = w.toNat / 256 % 8 := by
  simp [fieldCh, Nat.shiftRight_eq_div_pow]

theorem toNat_fieldArg (w : Half) : (fieldArg w).toNat = w.toNat % 256 := by
  simp [fieldArg]

/-- Bits 11:0 of a header are its `DIR`, `CH` and `ARG` (R91). -/
theorem low_bits_zero_iff (w : Half) :
    w.extractLsb' 0 12 = 0 ↔ fieldDir w = 0 ∧ fieldCh w = 0 ∧ fieldArg w = 0 := by
  simp only [← BitVec.toNat_inj, toNat_fieldDir, toNat_fieldCh, toNat_fieldArg, BitVec.extractLsb'_toNat,
    Nat.shiftRight_zero, BitVec.ofNat_eq_ofNat, BitVec.toNat_ofNat]
  omega

theorem low_bits_header (op : BitVec 4) (d : BitVec 1) (c : ChNum) (a : Byte) :
    (header op d c a).extractLsb' 0 12 = 0 ↔ d = 0 ∧ c = 0 ∧ a = 0 := by
  rw [low_bits_zero_iff, fieldDir_header, fieldCh_header, fieldArg_header]

/-! ### The rows of R93 -/

/-- The headers that R92 and R93 write out from their fields, each with what it says. `decodeHeader_eq_ok_iff` ties
them to the decoder. -/
inductive HeaderRow : Half → Head → Prop
  | push (d : Dir) (ch : ChNum) (v : Byte) : HeaderRow (header 1 (dirBit d) ch v) (.single (.push d ch v))
  | pop (d : Dir) (ch : ChNum) : HeaderRow (header 2 (dirBit d) ch 0) (.single (.pop d ch))
  | enqOut (ch : ChNum) (k : Byte) : HeaderRow (header 3 0 ch k) (.batch ch k.toNat)
  | enqIn (ch : ChNum) (v : Byte) : HeaderRow (header 4 0 ch v) (.single (.enqIn ch v))
  | deqIn (ch : ChNum) : HeaderRow (header 5 0 ch 0) (.single (.deqIn ch))
  | pump (ch : ChNum) : HeaderRow (header 6 0 ch 0) (.single (.pump ch))
  | ieSet : HeaderRow (header 7 0 0 0) (.single .ieSet)
  | ieClr : HeaderRow (header 8 0 0 0) (.single .ieClr)

theorem decodeHeader_of_row {w : Half} {h : Head} (hrow : HeaderRow w h) : decodeHeader w = .ok h := by
  cases hrow with
  | ieSet => rfl
  | ieClr => rfl
  | _ => simp [decodeHeader]

theorem row_of_decodeHeader {w : Half} {h : Head} (hd : decodeHeader w = .ok h) : HeaderRow w h := by
  obtain ⟨op, dir, ch, arg, rfl⟩ := exists_header w
  simp only [decodeHeader, fieldOp_header, fieldDir_header, fieldCh_header, fieldArg_header, low_bits_header] at hd
  split at hd
  case h_1 hop =>
    obtain rfl : op = 1 := BitVec.eq_of_toNat_eq hop
    cases hd
    simpa using HeaderRow.push (dirOf dir) ch arg
  case h_2 hop =>
    obtain rfl : op = 2 := BitVec.eq_of_toNat_eq hop
    split at hd <;> cases hd
    next harg => subst harg; simpa using HeaderRow.pop (dirOf dir) ch
  case h_3 hop =>
    obtain rfl : op = 3 := BitVec.eq_of_toNat_eq hop
    split at hd <;> cases hd
    next hdir => subst hdir; exact .enqOut ch arg
  case h_4 hop =>
    obtain rfl : op = 4 := BitVec.eq_of_toNat_eq hop
    split at hd <;> cases hd
    next hdir => subst hdir; exact .enqIn ch arg
  case h_5 hop =>
    obtain rfl : op = 5 := BitVec.eq_of_toNat_eq hop
    split at hd
    · split at hd <;> cases hd
      next hdir harg => subst hdir harg; exact .deqIn ch
    · cases hd
  case h_6 hop =>
    obtain rfl : op = 6 := BitVec.eq_of_toNat_eq hop
    split at hd
    · split at hd <;> cases hd
      next hdir harg => subst hdir harg; exact .pump ch
    · cases hd
  case h_7 hop =>
    obtain rfl : op = 7 := BitVec.eq_of_toNat_eq hop
    split at hd <;> cases hd
    next hzero => obtain ⟨rfl, rfl, rfl⟩ := hzero; exact .ieSet
  case h_8 hop =>
    obtain rfl : op = 8 := BitVec.eq_of_toNat_eq hop
    split at hd <;> cases hd
    next hzero => obtain ⟨rfl, rfl, rfl⟩ := hzero; exact .ieClr
  case h_9 => cases hd

theorem decodeHeader_eq_ok_iff {w : Half} {h : Head} : decodeHeader w = .ok h ↔ HeaderRow w h :=
  ⟨row_of_decodeHeader, decodeHeader_of_row⟩

theorem row_op {w : Half} {h : Head} (hrow : HeaderRow w h) : h.op = (fieldOp w).toNat := by
  cases hrow <;> simp [Head.op]

/-! ### Payload words (R95) -/

theorem payloadLegal_iff (w : Half) : payloadLegal w = true ↔ w.toNat < 256 := by
  have := w.isLt
  simp only [payloadLegal, beq_iff_eq, ← BitVec.toNat_inj, BitVec.extractLsb'_toNat, Nat.shiftRight_eq_div_pow,
    BitVec.ofNat_eq_ofNat, BitVec.toNat_ofNat]
  omega

/-- A legal payload word is its byte under eight zero bits (R95). -/
theorem payloadWord_payloadByte {w : Half} (h : payloadLegal w = true) : payloadWord (payloadByte w) = w := by
  have hw : w.toNat < 256 := (payloadLegal_iff w).mp h
  apply BitVec.eq_of_toNat_eq
  rw [payloadWord, BitVec.toNat_append]
  simp [payloadByte, Nat.mod_eq_of_lt hw]

@[simp] theorem map_payloadByte_payloadWord (p : List Byte) : (p.map payloadWord).map payloadByte = p := by
  rw [List.map_map]
  exact (List.map_congr_left fun b _ => payloadByte_payloadWord b).trans (List.map_id p)

theorem map_payloadWord_payloadByte {ws : List Half} (h : ws.all payloadLegal = true) :
    (ws.map payloadByte).map payloadWord = ws := by
  rw [List.map_map]
  exact (List.map_congr_left fun w hw => payloadWord_payloadByte (List.all_eq_true.mp h w hw)).trans (List.map_id ws)

/-! ### Commands (R96) -/

theorem decodeCommand_single {w : Half} {i : Instr} (h : HeaderRow w (.single i)) (ws : List Half) :
    decodeCommand (w :: ws) = .instr i ws := by
  simp only [decodeCommand, decodeHeader_of_row h]

theorem decodeCommand_enqOut (ch : ChNum) (k : Byte) (ws : List Half) :
    decodeCommand (header 3 0 ch k :: ws) =
      if ws.length < k.toNat then .incomplete
      else if (ws.take k.toNat).all payloadLegal then
        .instr (.enqOut ch ((ws.take k.toNat).map payloadByte)) (ws.drop k.toNat)
      else .illegal .payload (ws.drop k.toNat) := by
  simp only [decodeCommand, decodeHeader_of_row (.enqOut ch k)]

/-- Everything a command that is read can be: one word of a row of R93, or an `ENQ_OUT` with its legal payload. -/
theorem decodeCommand_instr {ws rest : List Half} {i : Instr} (h : decodeCommand ws = .instr i rest) :
    (∃ w, HeaderRow w (.single i) ∧ ws = w :: rest) ∨
    (∃ ch k payload, i = .enqOut ch (payload.map payloadByte) ∧ payload.length = BitVec.toNat k ∧
      payload.all payloadLegal = true ∧ ws = header 3 0 ch k :: (payload ++ rest)) := by
  cases ws with
  | nil => cases h
  | cons w ws =>
    cases hd : decodeHeader w with
    | error why => simp [decodeCommand, hd] at h
    | ok head =>
      have hrow := row_of_decodeHeader hd
      cases head with
      | single j =>
        rw [decodeCommand_single hrow] at h
        cases h
        exact .inl ⟨w, hrow, rfl⟩
      | batch ch k =>
        cases hrow with | enqOut _ k =>
        rw [decodeCommand_enqOut] at h
        split at h
        · cases h
        · next hlen =>
            split at h <;> cases h
            next hlegal =>
              refine .inr ⟨ch, k, _, rfl, ?_, hlegal, by rw [List.take_append_drop]⟩
              rw [List.length_take, Nat.min_eq_left (Nat.le_of_not_lt hlen)]

end Sys2Proof
end

/-! ## Encoding and decoding are inverse to each other (R91 to R96, R101, R102) -/

section
namespace Sys2Proof

theorem decodeCommand_encodeWords {i : Instr} (rest : List Half) (hi : i.isCommand = true) (hwf : i.wf 8 = true) :
    decodeCommand (encodeWords i ++ rest) = .instr i rest := by
  cases i with
  | push d ch v => exact decodeCommand_single (.push d ch v) rest
  | pop d ch => exact decodeCommand_single (.pop d ch) rest
  | enqOut ch p =>
    have hlen : p.length ≤ 255 := of_decide_eq_true hwf
    have hk : (BitVec.ofNat 8 p.length).toNat = (p.map payloadWord).length := by
      rw [BitVec.toNat_ofNat, List.length_map, Nat.mod_eq_of_lt (by omega)]
    have hlegal : (p.map payloadWord).all payloadLegal = true := by simp
    have hroom : ¬ (p.map payloadWord ++ rest).length < (p.map payloadWord).length := by simp
    calc decodeCommand (encodeWords (.enqOut ch p) ++ rest)
        = decodeCommand (header 3 0 ch (BitVec.ofNat 8 p.length) :: (p.map payloadWord ++ rest)) := rfl
      _ = .instr (.enqOut ch p) rest := by
          rw [decodeCommand_enqOut, hk, if_neg hroom, List.take_left, List.drop_left, if_pos hlegal,
            map_payloadByte_payloadWord]
  | enqIn ch v => exact decodeCommand_single (.enqIn ch v) rest
  | deqIn ch => exact decodeCommand_single (.deqIn ch) rest
  | pump ch => exact decodeCommand_single (.pump ch) rest
  | ieSet => exact decodeCommand_single .ieSet rest
  | ieClr => exact decodeCommand_single .ieClr rest
  | rxirq c => cases hi
  | txirq c => cases hi

theorem decode_encode_handler {i : Instr} (hi : i.isCommand = false) : decode (encode i) = .instr i [] := by
  cases i with
  | rxirq c => exact congrArg (Decoded.instr · []) (Machine.decodeRequest_rx c)
  | txirq c => exact congrArg (Decoded.instr · []) (Machine.decodeRequest_tx c)
  | _ => cases hi

/-- Settles O1: a one-word command's header is a row of R93, an `ENQ_OUT`'s header counts its payload words and each of
these holds its byte, and a request number holds its channel and kind. -/
theorem decodeReadsBackEveryEncoding : Obligations.DecodeReadsBackEveryEncoding :=
  ⟨fun _ rest hi hwf => decodeCommand_encodeWords rest hi hwf, fun _ hi => decode_encode_handler hi⟩

/-- The words of a one-word command are the header of its row. -/
theorem encodeWords_of_row {w : Half} {i : Instr} (h : HeaderRow w (.single i)) : encodeWords i = [w] := by
  cases h <;> rfl

theorem encodeWords_enqOut {k : Byte} {payload : List Half} (ch : ChNum) (hlen : payload.length = k.toNat)
    (hlegal : payload.all payloadLegal = true) :
    encodeWords (.enqOut ch (payload.map payloadByte)) = header 3 0 ch k :: payload := by
  simp only [encodeWords, encode, List.length_map, hlen, BitVec.ofNat_toNat, BitVec.setWidth_eq,
    map_payloadWord_payloadByte hlegal]

/-- Settles O2: what is read is one header of a row of R93, or an `ENQ_OUT` header with as many legal payload words as
it counts, and either is what the encoder writes. -/
theorem everyDecodedCommandIsItsEncoding : Obligations.EveryDecodedCommandIsItsEncoding := by
  intro ws rest i h
  obtain ⟨hi, hwf⟩ := Machine.decodeCommand_sound h
  refine ⟨hi, hwf, ?_⟩
  rcases decodeCommand_instr h with ⟨w, hrow, rfl⟩ | ⟨ch, k, payload, rfl, hlen, hlegal, rfl⟩
  · rw [encodeWords_of_row hrow, List.singleton_append]
  · rw [encodeWords_enqOut ch hlen hlegal, List.cons_append]

theorem decodeCommand_encodeWords_nil (i : Instr) (hi : i.isCommand = true) (hwf : i.wf 8 = true) :
    decodeCommand (encodeWords i) = .instr i [] := by
  simpa using decodeCommand_encodeWords [] hi hwf

/-- Settles O5: each word of the table is the one the encoder writes for its command. -/
theorem specWordsDecode : Obligations.SpecWordsDecode :=
  ⟨decodeCommand_encodeWords_nil (.push .out 0 0x11) rfl rfl, decodeCommand_encodeWords_nil (.push .inp 2 0xAB) rfl rfl,
    decodeCommand_encodeWords_nil (.pop .out 0) rfl rfl, decodeCommand_encodeWords_nil (.pop .inp 2) rfl rfl,
    decodeCommand_encodeWords_nil (.enqOut 1 [0x41, 0x42, 0x43]) rfl rfl,
    decodeCommand_encodeWords_nil (.enqIn 4 0x7F) rfl rfl, decodeCommand_encodeWords_nil (.deqIn 2) rfl rfl,
    decodeCommand_encodeWords_nil (.pump 1) rfl rfl, decodeCommand_encodeWords_nil .ieSet rfl rfl,
    decodeCommand_encodeWords_nil .ieClr rfl rfl, Machine.decodeRequest_rx 2, Machine.decodeRequest_tx 4⟩

/-- A request number counts the requests channel by channel, "byte received" first (R101). -/
theorem toNat_requestNumber (c : ChNum) (t : Bool) : (requestNumber c t).toNat = 2 * c.toNat + t.toNat := by
  revert c t; decide

/-- Settles O6: with two requests to a channel, channels below `n` have the numbers below `2 * n`. -/
theorem requestNumbersNameHandlers : Obligations.RequestNumbersNameHandlers := by
  intro c n
  have hrx : (requestNumber c false).toNat = 2 * c.toNat := toNat_requestNumber c false
  have htx : (requestNumber c true).toNat = 2 * c.toNat + 1 := toNat_requestNumber c true
  refine ⟨hrx, htx, Machine.decodeRequest_rx c, Machine.decodeRequest_tx c, ?_, ?_⟩ <;>
    simp only [Instr.wf, decide_eq_true_eq, hrx, htx] <;> omega

end Sys2Proof
end

/-! ## The opcode map: match and mask, and the headers that no row matches (R93, R99) -/

section
namespace Sys2Proof

theorem header_and (op op' : BitVec 4) (d d' : BitVec 1) (c c' : ChNum) (a a' : Byte) :
    header op d c a &&& header op' d' c' a' = header (op &&& op') (d &&& d') (c &&& c') (a &&& a') :=
  BitVec.and_append.trans (congrArg (· ++ _) (BitVec.and_append.trans (congrArg (· ++ _) BitVec.and_append)))

theorem header_inj {op op' : BitVec 4} {d d' : BitVec 1} {c c' : ChNum} {a a' : Byte} :
    header op d c a = header op' d' c' a' ↔ op = op' ∧ d = d' ∧ c = c' ∧ a = a' := by
  constructor
  · intro h
    exact ⟨by simpa using congrArg fieldOp h, by simpa using congrArg fieldDir h, by simpa using congrArg fieldCh h,
      by simpa using congrArg fieldArg h⟩
  · rintro ⟨rfl, rfl, rfl, rfl⟩
    rfl

/-- R93's table with its patterns and masks written as fields: a mask covers a field or leaves it free. -/
theorem opTable_eq : opTable =
    [ ⟨1, header 1 0 0 0, header (.allOnes 4) 0 0 0⟩, ⟨2, header 2 0 0 0, header (.allOnes 4) 0 0 (.allOnes 8)⟩,
      ⟨3, header 3 0 0 0, header (.allOnes 4) (.allOnes 1) 0 0⟩, ⟨4, header 4 0 0 0, header (.allOnes 4) (.allOnes 1) 0 0⟩,
      ⟨5, header 5 0 0 0, header (.allOnes 4) (.allOnes 1) 0 (.allOnes 8)⟩,
      ⟨6, header 6 0 0 0, header (.allOnes 4) (.allOnes 1) 0 (.allOnes 8)⟩,
      ⟨7, header 7 0 0 0, header (.allOnes 4) (.allOnes 1) (.allOnes 3) (.allOnes 8)⟩,
      ⟨8, header 8 0 0 0, header (.allOnes 4) (.allOnes 1) (.allOnes 3) (.allOnes 8)⟩ ] := by
  decide

theorem selects_iff_masked (n : Nat) (op : BitVec 4) (d : BitVec 1) (c : ChNum) (a : Byte) (w : Half) :
    OpRow.selects ⟨n, header op 0 0 0, header (.allOnes 4) d c a⟩ w = true ↔
      fieldOp w = op ∧ fieldDir w &&& d = 0 ∧ fieldCh w &&& c = 0 ∧ fieldArg w &&& a = 0 := by
  obtain ⟨op', dir, ch, arg, rfl⟩ := exists_header w
  simp only [OpRow.selects, beq_iff_eq, header_and, header_inj, BitVec.and_allOnes, fieldOp_header, fieldDir_header,
    fieldCh_header, fieldArg_header]

/-- A row's mask covers `OP`, and the fields its operation does not use, which are then 0 (R92, R93). -/
theorem selects_iff_fields {r : OpRow} (hr : r ∈ opTable) (w : Half) :
    r.selects w = true ↔
      (fieldOp w).toNat = r.op ∧ (3 ≤ r.op → fieldDir w = 0) ∧ (7 ≤ r.op → fieldCh w = 0) ∧
        (r.op = 2 ∨ 5 ≤ r.op → fieldArg w = 0) := by
  simp only [opTable_eq, List.mem_cons, List.not_mem_nil, or_false] at hr
  rcases hr with rfl | rfl | rfl | rfl | rfl | rfl | rfl | rfl <;>
    simp only [selects_iff_masked, BitVec.and_allOnes] <;> simp [← BitVec.toNat_inj (x := fieldOp w)]

theorem opTable_op_inj : ∀ r ∈ opTable, ∀ r' ∈ opTable, r.op = r'.op → r = r' := by decide

theorem opTable_op_range : ∀ r ∈ opTable, 1 ≤ r.op ∧ r.op ≤ 8 := by decide

theorem exists_row_of_op : ∀ n ≤ 8, 1 ≤ n → ∃ r ∈ opTable, r.op = n := by decide

theorem row_of_selects {r : OpRow} {w : Half} (hr : r ∈ opTable) (h : r.selects w = true) : ∃ hd, HeaderRow w hd := by
  obtain ⟨hop, hdir, hch, harg⟩ := (selects_iff_fields hr w).mp h
  simp only [← decodeHeader_eq_ok_iff, decodeHeader, hop, low_bits_zero_iff]
  simp only [opTable, List.mem_cons, List.not_mem_nil, or_false] at hr
  rcases hr with rfl | rfl | rfl | rfl | rfl | rfl | rfl | rfl <;> simp_all

theorem selects_of_row {r : OpRow} {w : Half} {hd : Head} (hr : r ∈ opTable) (hrow : HeaderRow w hd)
    (hop : hd.op = r.op) : r.selects w = true := by
  rw [selects_iff_fields hr, ← hop]
  cases hrow <;> simp [Head.op]

/-- Settles O3: every mask covers `OP`, in which the rows differ, and the fields that must be 0 for the decoder. -/
theorem headerSelectsByMatchAndMask : Obligations.HeaderSelectsByMatchAndMask := by
  have hselects : ∀ (w : Half) (r : OpRow), r ∈ opTable → r.selects w = true → (fieldOp w).toNat = r.op :=
    fun w _ hr h => ((selects_iff_fields hr w).mp h).1
  refine ⟨fun w r hr => ⟨fun h => ?chosen, fun ⟨_, hok, hop⟩ => selects_of_row hr (row_of_decodeHeader hok) hop⟩,
    fun w r r' hr hr' h h' => ?disjoint⟩
  case chosen =>
    obtain ⟨hd, hrow⟩ := row_of_selects hr h
    exact ⟨hd, decodeHeader_of_row hrow, (row_op hrow).trans (hselects w r hr h)⟩
  case disjoint => exact opTable_op_inj r hr r' hr' ((hselects w r hr h).symm.trans (hselects w r' hr' h'))

/-- A header is legal when a row selects it: when its `OP` is a row's and the fields that row does not use are 0. -/
theorem exists_selects_iff (w : Half) :
    (∃ r ∈ opTable, r.selects w = true) ↔
      (1 ≤ (fieldOp w).toNat ∧ (fieldOp w).toNat ≤ 8) ∧ (3 ≤ (fieldOp w).toNat → fieldDir w = 0) ∧
        (7 ≤ (fieldOp w).toNat → fieldCh w = 0) ∧
        ((fieldOp w).toNat = 2 ∨ 5 ≤ (fieldOp w).toNat → fieldArg w = 0) := by
  constructor
  · rintro ⟨r, hr, h⟩
    obtain ⟨hop, hfields⟩ := (selects_iff_fields hr w).mp h
    rw [hop]
    exact ⟨opTable_op_range r hr, hfields⟩
  · rintro ⟨⟨hlow, hhigh⟩, hfields⟩
    obtain ⟨r, hr, hop⟩ := exists_row_of_op _ hhigh hlow
    exact ⟨r, hr, (selects_iff_fields hr w).mpr ⟨hop.symm, hop ▸ hfields⟩⟩

theorem selects_of_decodeHeader {w : Half} {hd : Head} (h : decodeHeader w = .ok hd) :
    ∃ r ∈ opTable, r.selects w = true := by
  have hrow := row_of_decodeHeader h
  have hrange : hd.op ≤ 8 ∧ 1 ≤ hd.op := by cases hrow <;> simp [Head.op]
  obtain ⟨hhigh, hlow⟩ := hrange
  obtain ⟨r, hr, hop⟩ := exists_row_of_op hd.op hhigh hlow
  exact ⟨r, hr, selects_of_row hr hrow hop.symm⟩

/-- "A header word that matches no row of rule R93 is illegal" (R99). -/
theorem illegal_iff_no_row (w : Half) :
    (∃ why, decodeHeader w = .error why) ↔ ¬ ∃ r ∈ opTable, r.selects w = true := by
  constructor
  · rintro ⟨why, hw⟩ ⟨r, hr, h⟩
    obtain ⟨hd, hrow⟩ := row_of_selects hr h
    simp [decodeHeader_of_row hrow] at hw
  · intro hnone
    cases hd : decodeHeader w with
    | error why => exact ⟨why, rfl⟩
    | ok head => exact absurd (selects_of_decodeHeader hd) hnone

/-- Settles O4: the header clause is the negation of `exists_selects_iff`, read in numbers; past its header an `ENQ_OUT`
whose words are there is judged by its payload alone. -/
theorem illegalHeadersAreThoseListed : Obligations.IllegalHeadersAreThoseListed := by
  refine ⟨fun w => ?header, fun w ws why hw => ⟨ws, by simp only [decodeCommand, hw]⟩, fun ch k ws hk => ?payload⟩
  case header =>
    rw [illegal_iff_no_row, exists_selects_iff]
    simp only [← BitVec.toNat_inj, toNat_fieldOp, toNat_fieldDir, toNat_fieldCh, toNat_fieldArg,
      BitVec.ofNat_eq_ofNat, BitVec.toNat_ofNat]
    omega
  case payload =>
    rw [decodeCommand_enqOut, if_neg (Nat.not_lt.mpr hk)]
    have hall : (ws.take k.toNat).all payloadLegal = true ↔ ¬ ∃ w ∈ ws.take k.toNat, 256 ≤ w.toNat := by
      simp [List.all_eq_true, payloadLegal_iff]
    by_cases h : (ws.take k.toNat).all payloadLegal = true
    · simp [h, hall.mp h]
    · rw [if_neg h]
      exact ⟨fun _ => not_not.mp (mt hall.mpr h), fun _ => ⟨_, _, rfl⟩⟩

end Sys2Proof
end

/-! ## The response word (R97, R98, R100) -/

section
namespace Sys2Proof.Machine

theorem toNat_responseWord (e : ErrVal) (b : Byte) : (responseWord e b).toNat = 256 * e.code.toNat + b.toNat := by
  have hcode : ((0 : BitVec 5) ++ e.code).toNat = e.code.toNat := by rw [BitVec.toNat_append]; simp
  calc (responseWord e b).toNat
      = ((0 : BitVec 5) ++ e.code).toNat <<< 8 ||| b.toNat := BitVec.toNat_append _ _
    _ = e.code.toNat <<< 8 + b.toNat := by rw [hcode, Nat.shiftLeft_add_eq_or_of_lt b.isLt]
    _ = 256 * e.code.toNat + b.toNat := by rw [Nat.shiftLeft_eq, Nat.mul_comm]

/-- Settles O7: the word is its two fields under five zero bits. -/
theorem responseWordIsErrorAndByte : Obligations.ResponseWordIsErrorAndByte :=
  ⟨fun e b => ⟨toNat_responseWord e b, responseErr_responseWord e b, responseData_responseWord e b⟩, rfl⟩

/-- The words of R98's table but the two unexpected errors': the number in `ERR` is one of a returned error's, and bits
15:11 are 0. -/
theorem legalResponse_fields {r : Half} (h : legalResponse r = true) :
    responseErr r ≠ 4 ∧ responseErr r ≠ 5 ∧ responseErr r ≠ 7 ∧ r.toNat < 2048 := by
  simp only [legalResponse, Bool.or_eq_true, decide_eq_true_eq, beq_iff_eq] at h
  rcases h with (((hbyte | rfl) | rfl) | rfl) | rfl
  · have herr : responseErr r = 0 := by
      apply BitVec.eq_of_toNat_eq
      simp [responseErr, Nat.shiftRight_eq_div_pow, Nat.div_eq_of_lt hbyte]
    rw [herr]
    exact ⟨by decide, by decide, by decide, by omega⟩
  all_goals decide

/-- Settles O43: every response in the log is legal under the invariant, which the step keeps. -/
theorem noResponseIsUnexpected : Obligations.NoResponseIsUnexpected := by
  intro s t hs h x hx
  obtain ⟨-, -, -, -, hlog⟩ := everyStepKeepsTheInvariant s t hs h
  exact legalResponse_fields (List.all_eq_true.mp hlog x hx)

end Sys2Proof.Machine
end

/-! ## Commands that HOST does not run: illegal and incomplete ones (R96, R99) -/

section
namespace Sys2Proof.Machine

theorem hostEnabled_of_incomplete {s : State} (hpc : s.hostPc = .idle) (hd : decodeCommand s.words = .incomplete) :
    s.hostEnabled = false := by
  simp [State.hostEnabled, State.commandReady, hpc, hd]

/-- Settles O28: an idle HOST is enabled by a whole command alone, and an `ENQ_OUT` is whole with `1 + k` words. -/
theorem incompleteCommandHasNotStarted : Obligations.IncompleteCommandHasNotStarted :=
  ⟨fun _ hpc hd => hostStep_disabled (hostEnabled_of_incomplete hpc hd),
    fun ch k ws hlen => by rw [decodeCommand_enqOut, if_pos hlen]⟩

theorem hostEnabled_of_cmdFault {s : State} (h : s.cmdFault = true) : s.hostEnabled = false := by
  simp [State.hostEnabled, h]

theorem hostStep_of_illegal {s : State} {why : Illegal} {rest : List Half} (hen : s.hostEnabled = true)
    (hpc : s.hostPc = .idle) (hd : decodeCommand s.words = .illegal why rest) :
    s.hostStep = .next (s.illegalCommand rest) := by
  simp [State.hostStep, hen, hpc, hd]

/-! ### `cmd_fault` stands in no step but HOST's -/

/-- The state with `cmd_fault` set. -/
def State.faulted (s : State) : State := { s with cmdFault := true }

@[simp] theorem faulted_cfg (s : State) : s.faulted.cfg = s.cfg := rfl

@[simp] theorem faulted_ring (s : State) (c : ChNum) (d : Dir) : s.faulted.ring c d = s.ring c d := rfl

@[simp] theorem faulted_irqB (s : State) : s.faulted.irqB = s.irqB := rfl

@[simp] theorem faulted_readTxe (s : State) (c : ChNum) : s.faulted.readTxe c = s.readTxe c := rfl

@[simp] theorem faulted_validCh (s : State) (c : ChNum) : s.faulted.validCh c = s.validCh c := rfl

@[simp] theorem faulted_canGrant (s : State) (r : IrqNum) : s.faulted.canGrant r = s.canGrant r := rfl

/-- The same answer, its next state with `cmd_fault` set. -/
def faultedAnswer : Host.Outcome State Fault Refusal → Host.Outcome State Fault Refusal
  | .next t => .next t.faulted
  | .fault f => .fault f
  | .refused r => .refused r

theorem pushRing_faulted (s : State) (c : ChNum) (d : Dir) (v : Byte) :
    s.faulted.pushRing c d v = (s.pushRing c d v).map (Prod.map id State.faulted) := by
  rw [pushRing_eq, pushRing_eq, faulted_cfg, faulted_ring]
  cases (s.ring c d).push s.cfg.cap v <;> rfl

theorem popRing_faulted (s : State) (c : ChNum) (d : Dir) :
    s.faulted.popRing c d = (s.popRing c d).map (Prod.map id State.faulted) := by
  rw [popRing_eq, popRing_eq, faulted_cfg, faulted_ring]
  cases (s.ring c d).pop s.cfg.cap <;> rfl

theorem writeTxData_faulted (s : State) (c : ChNum) (v : Byte) :
    s.faulted.writeTxData c v = (s.writeTxData c v).faulted := by
  rcases writeTxData_cases s c v with ⟨hready, hover, hw⟩ | ⟨hbad, hw⟩
  · rw [hw]; exact writeTxData_ready v hready hover
  · rw [hw]; exact writeTxData_overrun v hbad

theorem storeArrival_faulted (s : State) (c : ChNum) : s.faulted.storeArrival c = faultedAnswer (s.storeArrival c) := by
  rw [State.storeArrival, State.storeArrival, faulted_irqB, pushRing_faulted]
  cases s.pushRing c .inp s.irqB <;> rfl

theorem irqPump_faulted (s : State) (c : ChNum) (pc : PumpPc) :
    s.faulted.irqPump c pc = faultedAnswer (s.irqPump c pc) := by
  cases pc with
  | p1 =>
    cases htxe : s.readTxe c <;> simp only [State.irqPump, State.pumpStep, faulted_readTxe, htxe] <;> rfl
  | p2 =>
    simp only [State.irqPump, State.pumpStep, popRing_faulted]
    rcases s.popRing c .out with f | ⟨_ | b, t⟩ <;> rfl
  | p3 =>
    simp only [State.irqPump, State.pumpStep, faulted_irqB, writeTxData_faulted]
    rfl

theorem onChannel_faulted {s : State} {act act' : Host.Outcome State Fault Refusal} (c : ChNum)
    (h : act' = faultedAnswer act) : s.faulted.onChannel c act' = faultedAnswer (s.onChannel c act) := by
  rw [State.onChannel, State.onChannel, faulted_validCh, h]
  cases s.validCh c <;> rfl

theorem execRxirq_faulted (s : State) (c : ChNum) : execRxirq c s.faulted = faultedAnswer (execRxirq c s) := by
  have hpc : s.faulted.irqPc = s.irqPc := rfl
  rw [execRxirq, execRxirq, hpc]
  cases s.irqPc with
  | g1 => exact onChannel_faulted c rfl
  | g2 => exact onChannel_faulted c (storeArrival_faulted s c)
  | g3 => exact onChannel_faulted c rfl
  | _ => rfl

theorem execTxirq_faulted (s : State) (c : ChNum) : execTxirq c s.faulted = faultedAnswer (execTxirq c s) := by
  have hpc : s.faulted.irqPc = s.irqPc := rfl
  rw [execTxirq, execTxirq, hpc]
  cases s.irqPc with
  | p1 => exact onChannel_faulted c (irqPump_faulted s c .p1)
  | p2 => exact onChannel_faulted c (irqPump_faulted s c .p2)
  | p3 => exact onChannel_faulted c (irqPump_faulted s c .p3)
  | t4 => exact onChannel_faulted c rfl
  | _ => rfl

theorem exec_handler_faulted (s : State) (r : IrqNum) :
    exec (decodeRequest r) s.faulted = faultedAnswer (exec (decodeRequest r) s) := by
  unfold decodeRequest
  split
  · exact execTxirq_faulted s (irqCh r)
  · exact execRxirq_faulted s (irqCh r)

theorem irqStep_faulted (s : State) : s.faulted.irqStep = faultedAnswer s.irqStep := by
  have hrun : s.faulted.inHandler = s.inHandler := rfl
  have hcur : s.faulted.curIrq = s.curIrq := rfl
  rw [State.irqStep, State.irqStep, hrun, hcur, faulted_cfg, exec_handler_faulted]
  split
  · split <;> rfl
  · rfl

theorem enterHandler_faulted (s : State) (r : IrqNum) : s.faulted.enterHandler r = (s.enterHandler r).faulted := by
  unfold State.enterHandler
  cases irqIsTx r <;> rfl

theorem arrive_faulted (s : State) (c : ChNum) (b : Byte) : s.faulted.arrive c b = (s.arrive c b).faulted := by
  have hchan : s.faulted.chan c = s.chan c := rfl
  rw [State.arrive, State.arrive, hchan]
  cases (s.chan c).rxPending <;> rfl

/-- No step but HOST's reads `cmd_fault`, and no step but HOST's and reset writes it (R99). -/
theorem eventStep_faulted (s : State) {e : Event} (hhost : e ≠ .host) (hreset : e ≠ .reset) :
    s.faulted.eventStep e = faultedAnswer (s.eventStep e) := by
  cases e with
  | host => exact absurd rfl hhost
  | irq => exact irqStep_faulted s
  | grant r =>
    simp only [State.eventStep, State.grant, faulted_canGrant, enterHandler_faulted]
    split <;> rfl
  | txDone c =>
    have htxe : (s.faulted.chan c).txe = (s.chan c).txe := rfl
    simp only [State.eventStep, State.txDone, faulted_validCh, htxe]
    split <;> rfl
  | rxArrive c b =>
    simp only [State.eventStep, State.rxArrive, faulted_validCh, arrive_faulted]
    split <;> rfl
  | reset => exact absurd rfl hreset

/-- Settles O27: an idle HOST takes the illegal command for its effect on the flag alone; the flag is in HOST's guard
and in no other agent's step. -/
theorem illegalCommandStopsTheHost : Obligations.IllegalCommandStopsTheHost := by
  refine ⟨fun s es why rest hs hpc hidle hfault hgrant hd => ?_,
    fun s h => hostStep_disabled (hostEnabled_of_cmdFault h), fun s e hhost hreset => ?_⟩
  · rw [step_of_sched hs]
    have hready : s.commandReady = true := by simp [State.commandReady, hd]
    exact hostStep_of_illegal (hostEnabled_of hidle hfault hgrant (.inr hready)) hpc hd
  · have heq : ({ s with cmdFault := true } : State).eventStep e = faultedAnswer (s.eventStep e) :=
      eventStep_faulted s hhost hreset
    exact ⟨fun t h => by rw [heq, h]; rfl, fun f h => by rw [heq, h]; rfl, fun r h => by rw [heq, h]; rfl⟩

end Sys2Proof.Machine
end

/-! ## `n` pushes, then `n` pops: the bytes in order, the pointers without drift (R127, R128) -/

section
namespace Sys2Proof.Machine

theorem pushAll_cons_room {cap : Nat} {F : Ring} (v : Byte) (vs : List Byte) (ho : F.occ ≠ cap) (hh : F.head < cap) :
    Ring.pushAll cap F (v :: vs) = Ring.pushAll cap (Ring.pushed cap F v) vs := by
  rw [Ring.pushAll, ring_push_room v ho hh]

theorem popAll_succ_held {cap n : Nat} {F H : Ring} {bs : List Byte} (ho : F.occ ≠ 0) (ht : F.tail < cap)
    (h : Ring.popAll cap (Ring.popped cap F) n = some (bs, H)) :
    Ring.popAll cap F (n + 1) = some (F.slot F.tail :: bs, H) := by
  simp only [Ring.popAll, ring_pop_held ho ht, h]

/-- As many pushes as there is room for all succeed and add their bytes to the held sequence in order. -/
theorem pushAll_room {cap : Nat} {F : Ring} {vs : List Byte} (h : Ring.Inv cap F) (hroom : F.occ + vs.length ≤ cap) :
    ∃ G, Ring.pushAll cap F vs = some G ∧ Ring.Inv cap G ∧ Ring.held cap G = Ring.held cap F ++ vs ∧
      G.tail = F.tail := by
  induction vs generalizing F with
  | nil => exact ⟨F, rfl, h, (List.append_nil _).symm, rfl⟩
  | cons v vs ih =>
    rw [List.length_cons] at hroom
    have ho : F.occ ≠ cap := by omega
    obtain ⟨-, hhead, -⟩ := id h
    obtain ⟨G, hpush, hG, hheld, htail⟩ := ih (inv_pushed v h ho) (show F.occ + 1 + vs.length ≤ cap by omega)
    refine ⟨G, (pushAll_cons_room v vs ho hhead).trans hpush, hG, ?_, htail⟩
    rw [hheld, held_pushed v h ho, List.append_assoc, List.singleton_append]

/-- As many pops as there are bytes in a front part of the held sequence return that part and leave the rest. -/
theorem popAll_held {cap : Nat} {F : Ring} {bs rest : List Byte} (h : Ring.Inv cap F)
    (hheld : Ring.held cap F = bs ++ rest) :
    ∃ H, Ring.popAll cap F bs.length = some (bs, H) ∧ Ring.Inv cap H ∧ Ring.held cap H = rest ∧ H.head = F.head := by
  induction bs generalizing F with
  | nil => exact ⟨F, rfl, h, hheld, rfl⟩
  | cons b bs ih =>
    have ho : F.occ ≠ 0 := by simp [← held_length cap F, hheld]
    obtain ⟨-, -, htail, -⟩ := id h
    obtain ⟨rfl, hpopped⟩ := List.cons_eq_cons.mp ((held_popped ho htail).symm.trans hheld)
    obtain ⟨H, hpop, hH, hrest, hhead⟩ := ih (inv_popped h ho) hpopped
    exact ⟨H, popAll_succ_held ho htail hpop, hH, hrest, hhead⟩

theorem tail_eq_head_of_empty {cap : Nat} {F : Ring} (h : Ring.Inv cap F) (ho : F.occ = 0) : F.tail = F.head := by
  obtain ⟨-, -, htail, hgap, -⟩ := h
  rwa [ho, Nat.add_zero, Nat.mod_eq_of_lt htail] at hgap

/-- Settles O11: under the buffer invariant `occ` is the length of the held sequence and `head` is `tail + occ` modulo
`C`, so the pointers follow from what the pushes append and the pops take. -/
theorem pushesThenPopsReturnTheBytesInOrder : Obligations.PushesThenPopsReturnTheBytesInOrder := by
  intro cap F vs hF hempty hlen
  obtain ⟨G, hpush, hG, hheldG, htailG⟩ := pushAll_room hF (show F.occ + vs.length ≤ cap by omega)
  rw [(held_eq_nil_iff cap F).mpr hempty, List.nil_append] at hheldG
  obtain ⟨H, hpop, hH, hheldH, hheadH⟩ := popAll_held hG (hheldG.trans (List.append_nil vs).symm)
  have hoccG : G.occ = vs.length := by rw [← held_length cap G, hheldG]
  have hoccH : H.occ = 0 := (held_eq_nil_iff cap H).mp hheldH
  have hheadG : G.head = (F.head + vs.length) % cap := by
    obtain ⟨-, -, -, hgap, -⟩ := hG
    rw [← hgap, htailG, hoccG, tail_eq_head_of_empty hF hempty]
  refine ⟨G, H, hpush, hheadG, htailG, hoccG, hpop, hheadH, (tail_eq_head_of_empty hH hoccH).trans hheadH, hoccH,
    fun hall => ?_⟩
  obtain ⟨-, hheadF, -⟩ := hF
  rw [hheadG, hall, Nat.add_mod_right, Nat.mod_eq_of_lt hheadF]

end Sys2Proof.Machine
end

/-! ## `push` and `pop` as micro-steps, and the commands that return their answer (R120, R121, R123, R124, R155, R156) -/

section
namespace Sys2Proof.Machine

/-- Settles O8: a failed micro-step answers the state it found, and the others replace the buffer by `Ring.pushed` and
`Ring.popped`. -/
theorem pushAndPopAreOneMicroStep : Obligations.PushAndPopAreOneMicroStep := by
  refine ⟨fun s c d v hhead => ⟨fun hfull => pushRing_full v hfull, fun hroom => ?push⟩,
    fun s c d htail => ⟨fun hempty => popRing_empty hempty, fun hheld => ?pop⟩⟩
  case push => exact ⟨_, pushRing_room v hroom hhead, rfl, rfl, rfl, fun i => slot_pushed _ _ v i⟩
  case pop => exact ⟨_, popRing_held hheld htail, rfl, rfl, rfl, fun i => slot_popped _ _ i⟩

/-! ### "return push" and "return pop", each branch as an equation -/

theorem pushAndRespond_full {s : State} {c : ChNum} {d : Dir} (i : Instr) (v : Byte)
    (h : (s.ring c d).occ = s.cfg.cap) : s.pushAndRespond i c d v = .next (s.answered i 0x0100) := by
  rw [State.pushAndRespond, pushRing_full v h]
  rfl

theorem pushAndRespond_room {s : State} {c : ChNum} {d : Dir} (i : Instr) (v : Byte)
    (ho : (s.ring c d).occ ≠ s.cfg.cap) (hh : (s.ring c d).head < s.cfg.cap) :
    s.pushAndRespond i c d v =
      .next ((s.setRing c d (Ring.pushed s.cfg.cap (s.ring c d) v)).answered i 0x0000) := by
  rw [State.pushAndRespond, pushRing_room v ho hh]
  rfl

theorem popAndRespond_empty {s : State} {c : ChNum} {d : Dir} (i : Instr) (h : (s.ring c d).occ = 0) :
    s.popAndRespond i c d = .next (s.answered i 0x0200) := by
  rw [State.popAndRespond, popRing_empty h]
  rfl

/-- The response word of a success is its byte, zero-extended (R97). -/
theorem responseWord_none (b : Byte) : responseWord .none b = b.setWidth 16 := by
  apply BitVec.eq_of_toNat_eq
  have hb : b.toNat < 65536 := by omega
  rw [toNat_responseWord, BitVec.toNat_setWidth, Nat.mod_eq_of_lt hb]
  simp [ErrVal.code]

theorem popAndRespond_held {s : State} {c : ChNum} {d : Dir} (i : Instr) (ho : (s.ring c d).occ ≠ 0)
    (ht : (s.ring c d).tail < s.cfg.cap) :
    s.popAndRespond i c d =
      .next ((s.setRing c d (Ring.popped s.cfg.cap (s.ring c d))).answered i
        (((s.ring c d).slot (s.ring c d).tail).setWidth 16)) := by
  rw [State.popAndRespond, popRing_held ho ht]
  simp only [respond_eq_answered, responseWord_none]

/-! ### The commands at S1 -/

theorem execPush_s1 {s : State} {c : ChNum} (d : Dir) (v : Byte) (hc : s.validCh c = true) (hpc : s.hostPc = .s1) :
    exec (.push d c v) s = s.pushAndRespond (.push d c v) c d v := by
  simp only [exec, execPush, hpc, onChannel_valid _ hc]

theorem execEnqIn_s1 {s : State} {c : ChNum} (v : Byte) (hc : s.validCh c = true) (hpc : s.hostPc = .s1) :
    exec (.enqIn c v) s = s.pushAndRespond (.enqIn c v) c .inp v := by
  simp only [exec, execEnqIn, hpc, onChannel_valid _ hc]

theorem execPop_s1 {s : State} {c : ChNum} (d : Dir) (hc : s.validCh c = true) (hpc : s.hostPc = .s1) :
    exec (.pop d c) s = s.popAndRespond (.pop d c) c d := by
  simp only [exec, execPop, hpc, onChannel_valid _ hc]

theorem execDeqIn_s1 {s : State} {c : ChNum} (hc : s.validCh c = true) (hpc : s.hostPc = .s1) :
    exec (.deqIn c) s = s.popAndRespond (.deqIn c) c .inp := by
  simp only [exec, execDeqIn, hpc, onChannel_valid _ hc]

theorem ring_setRing_other_buffer (s : State) {c c' : ChNum} {d d' : Dir} (F : Ring) (h : c' ≠ c ∨ d' ≠ d) :
    (s.setRing c d F).ring c' d' = s.ring c' d' := by
  rw [ring_setRing, if_neg]
  rintro ⟨rfl, rfl⟩
  exact h.elim (· rfl) (· rfl)

/-- A buffer's replacement by one with the same slots leaves every slot of every buffer. -/
theorem slot_setRing_of_slot_eq (s : State) {c : ChNum} {d : Dir} {F : Ring}
    (h : ∀ i, F.slot i = (s.ring c d).slot i) (c' : ChNum) (d' : Dir) (i : Nat) :
    ((s.setRing c d F).ring c' d').slot i = (s.ring c' d').slot i := by
  rw [ring_setRing]
  split
  · next heq => obtain ⟨rfl, rfl⟩ := heq; exact h i
  · rfl

/-- Settles O15: S1 of both commands returns the answer of one `push`, which `occ = C` alone makes fail. -/
theorem pushAndEnqInStoreOrReject : Obligations.PushAndEnqInStoreOrReject := by
  intro s d ch v hpc hch
  have hc : s.validCh ch = true := (validCh_iff s ch).mpr hch
  rw [execPush_s1 d v hc hpc, execEnqIn_s1 v hc hpc]
  refine ⟨fun hroom hhead => ⟨pushAndRespond_room _ v hroom.ne hhead, ?enqIn, fun i => slot_pushed _ _ v i,
    fun c' d' hother => ring_setRing_other_buffer s _ hother⟩, fun hfull => ⟨pushAndRespond_full _ v hfull, ?enqInFull⟩⟩
  case enqIn => rintro rfl; exact pushAndRespond_room _ v hroom.ne hhead
  case enqInFull => rintro rfl; exact pushAndRespond_full _ v hfull

/-- Settles O16: S1 of both commands returns the answer of one `pop`, which `occ = 0` alone makes fail and which
changes no slot. -/
theorem popAndDeqInReturnOrReject : Obligations.PopAndDeqInReturnOrReject := by
  intro s d ch hpc hch
  have hc : s.validCh ch = true := (validCh_iff s ch).mpr hch
  rw [execPop_s1 d hc hpc, execDeqIn_s1 hc hpc]
  refine ⟨?held, fun hempty => ⟨popAndRespond_empty _ hempty, ?deqInEmpty⟩⟩
  case held =>
    rintro b hheld htail rfl
    refine ⟨popAndRespond_held _ hheld.ne' htail, ?_, slot_setRing_of_slot_eq s fun i => slot_popped _ _ i⟩
    rintro rfl
    exact popAndRespond_held _ hheld.ne' htail
  case deqInEmpty => rintro rfl; exact popAndRespond_empty _ hempty

end Sys2Proof.Machine
end

/-! ## `ENQ_OUT`'s pre-check, fill and read of the flag as equations (R142, R143, R144) -/

section
namespace Sys2Proof.Machine

theorem execEnqOut_s0 {s : State} {c : ChNum} (p : List Byte) (hc : s.validCh c = true) (hpc : s.hostPc = .s0) :
    exec (.enqOut c p) s = .next { s with hostPc := .s1 } := by
  simp only [exec, execEnqOut, hpc, State.checkChannel, hc, if_true]

theorem execEnqOut_s1 {s : State} {c : ChNum} (p : List Byte) (hc : s.validCh c = true) (hpc : s.hostPc = .s1) :
    exec (.enqOut c p) s = s.preCheck c p := by
  simp only [exec, execEnqOut, hpc, onChannel_valid _ hc]

theorem execEnqOut_s2 {s : State} {c : ChNum} (p : List Byte) (hc : s.validCh c = true) (hpc : s.hostPc = .s2) :
    exec (.enqOut c p) s = s.fillStep c p := by
  simp only [exec, execEnqOut, hpc, onChannel_valid _ hc]

theorem execEnqOut_s3 {s : State} {c : ChNum} (p : List Byte) (hc : s.validCh c = true) (hpc : s.hostPc = .s3) :
    exec (.enqOut c p) s = s.armCheck c p := by
  simp only [exec, execEnqOut, hpc, onChannel_valid _ hc]

theorem preCheck_full {s : State} {c : ChNum} {p : List Byte} (h : s.cfg.cap - (s.ring c .out).occ < p.length) :
    s.preCheck c p = .next (s.answered (.enqOut c p) 0x0100) :=
  if_pos h

theorem preCheck_room {s : State} {c : ChNum} {p : List Byte} (h : p.length ≤ s.cfg.cap - (s.ring c .out).occ) :
    s.preCheck c p = .next { s with
      hostOcc := (s.ring c .out).occ, hostI := 0, hostPc := if p = [] then .s3 else .s2 } := by
  have hfits : ¬ (s.ring c .out).room s.cfg.cap < p.length := Nat.not_lt.mpr h
  simp only [State.preCheck, hfits, if_false, List.isEmpty_iff]

/-- A successful push of the fill: the batch's end decides whether S3 is next (R143). -/
theorem fillStep_room {s : State} {c : ChNum} {p : List Byte} {v : Byte} (hv : p[s.hostI]? = some v)
    (ho : (s.ring c .out).occ ≠ s.cfg.cap) (hh : (s.ring c .out).head < s.cfg.cap) :
    s.fillStep c p = .next { s.setRing c .out (Ring.pushed s.cfg.cap (s.ring c .out) v) with
      hostI := s.hostI + 1, hostPc := if s.hostI + 1 = p.length then .s3 else .s2 } := by
  obtain ⟨hlt, -⟩ := List.getElem?_eq_some_iff.mp hv
  have hnext : (if s.hostI + 1 < p.length then HostPc.s2 else .s3) = if s.hostI + 1 = p.length then .s3 else .s2 := by
    by_cases hlast : s.hostI + 1 = p.length
    · rw [if_neg hlast.not_lt, if_pos hlast]
    · rw [if_pos (by omega), if_neg hlast]
  simp only [State.fillStep, hv, pushRing_room v ho hh, hnext]

theorem fillStep_full {s : State} {c : ChNum} {p : List Byte} (hlt : s.hostI < p.length)
    (h : (s.ring c .out).occ = s.cfg.cap) : s.fillStep c p = .next (s.answered (.enqOut c p) 0x0400) := by
  simp only [State.fillStep, List.getElem?_eq_getElem hlt, pushRing_full _ h]
  rfl

theorem armCheck_busy {s : State} {c : ChNum} (p : List Byte) (h : (s.chan c).txe = false) :
    s.armCheck c p = .next (s.answered (.enqOut c p) 0x0000) := by
  rw [State.armCheck, State.readTxe, h]
  rfl

theorem armCheck_idle {s : State} {c : ChNum} (p : List Byte) (h : (s.chan c).txe = true) :
    s.armCheck c p = .next { s with hostT := true, hostPc := .p1 } :=
  if_pos h

/-- Settles O17: S1 compares the room with the batch's length and writes no buffer on either side. -/
theorem enqOutPreChecksTheWholeBatch : Obligations.EnqOutPreChecksTheWholeBatch := by
  intro s ch p hpc hch
  rw [execEnqOut_s1 p ((validCh_iff s ch).mpr hch) hpc]
  exact ⟨preCheck_full, preCheck_room⟩

/-- Settles O18: S2.i is one `push`, which `occ = C` alone makes fail. -/
theorem enqOutFillsByteByByte : Obligations.EnqOutFillsByteByByte := by
  intro s ch p hpc hch
  rw [execEnqOut_s2 p ((validCh_iff s ch).mpr hch) hpc]
  exact ⟨fun v hv hroom hhead => ⟨fillStep_room hv hroom.ne hhead, fun i => slot_pushed _ _ v i⟩, fillStep_full⟩

/-- Settles O19: S3 is one read of `txe`. -/
theorem enqOutReadsTheFlag : Obligations.EnqOutReadsTheFlag := by
  intro s ch p hpc hch
  rw [execEnqOut_s3 p ((validCh_iff s ch).mpr hch) hpc]
  exact ⟨armCheck_busy p, armCheck_idle p⟩

end Sys2Proof.Machine
end

/-! ## Runs along a schedule (R8, R9, R42) -/

section
namespace Sys2Proof.Machine

/-- `es` runs `s` to `t`, whatever entries of the schedule come after `es`: the schedules that stand in `s` and `t` are
not read. -/
def State.Runs (s : State) (es : List Event) (t : State) : Prop :=
  ∀ rest, Host.Core.run Sys2Proof.core es.length { s with sched := es ++ rest } = .next { t with sched := rest }

theorem run_succ {s t : State} (n : Nat) (h : step s = .next t) :
    Host.Core.run Sys2Proof.core (n + 1) s = Host.Core.run Sys2Proof.core n t := by
  have hstep : Sys2Proof.core.step s = .next t := h
  simp only [Host.Core.run, hstep]

/-- A run of `n + 1` steps has a first one. -/
theorem exists_step_of_run_succ {s t : State} {n : Nat} (h : Host.Core.run Sys2Proof.core (n + 1) s = .next t) :
    ∃ u, step s = .next u ∧ Host.Core.run Sys2Proof.core n u = .next t := by
  simp only [Host.Core.run] at h
  split at h
  · next u hstep => exact ⟨u, hstep, h⟩
  · cases h
  · cases h

theorem run_add {s t : State} {m : Nat} (n : Nat) (h : Host.Core.run Sys2Proof.core m s = .next t) :
    Host.Core.run Sys2Proof.core (m + n) s = Host.Core.run Sys2Proof.core n t := by
  induction m generalizing s with
  | zero =>
    obtain rfl : s = t := Host.Outcome.next.inj h
    rw [Nat.zero_add]
  | succ m ih =>
    obtain ⟨u, hstep, hrun⟩ := exists_step_of_run_succ h
    rw [Nat.succ_add, run_succ _ hstep, ih hrun]

/-- What a run gives for a state whose schedule begins with its entries. -/
theorem run_of_runs {s t : State} {es rest : List Event} (h : s.Runs es t) (hs : s.sched = es ++ rest) :
    Host.Core.run Sys2Proof.core es.length s = .next { t with sched := rest } := by
  rw [← h rest, ← hs]

theorem host_run_of_runs {s t : State} {n : Nat} {rest : List Event} (h : s.Runs (List.replicate n .host) t)
    (hs : s.sched = List.replicate n .host ++ rest) :
    Host.Core.run Sys2Proof.core n s = .next { t with sched := rest } := by
  simpa only [List.length_replicate] using run_of_runs h hs

theorem runs_append {s t u : State} {es fs : List Event} (h : s.Runs es t) (h' : t.Runs fs u) :
    s.Runs (es ++ fs) u := by
  intro rest
  rw [List.length_append, List.append_assoc, run_add _ (h (fs ++ rest)), h' rest]

theorem runs_nil (s : State) : s.Runs [] s := fun _ => rfl

theorem runs_cons {s t u : State} {e : Event} {es : List Event} (h : s.Runs [e] t) (h' : t.Runs es u) :
    s.Runs (e :: es) u := runs_append h h'

/-- A single entry runs to where its step leads. -/
theorem runs_singleton {s t : State} {e : Event}
    (h : ∀ rest, State.eventStep { s with sched := rest } e = .next { t with sched := rest }) : s.Runs [e] t := by
  intro rest
  have hstep : step { s with sched := e :: rest } = .next { t with sched := rest } := (step_of_sched rfl).trans (h rest)
  exact run_succ 0 hstep

/-! ### HOST's entries -/

/-- No handler, no command fault and no `eager` grant holds HOST back (R9, R99, R213). -/
def State.HostFree (s : State) : Prop :=
  s.inHandler = false ∧ s.cmdFault = false ∧ (s.cfg.grantPolicy = .any ∨ s.ie = false)

theorem hostEnabled_of_free {s : State} (hfree : s.HostFree) (hready : s.hostPc ≠ .idle ∨ s.commandReady = true) :
    s.hostEnabled = true := by
  obtain ⟨hidle, hfault, hpolicy⟩ := hfree
  exact hostEnabled_of hidle hfault (hpolicy.imp_right fun hie => by simp [State.grantWaiting, hie]) hready

/-- HOST's entry at `IDLE` takes the next command and runs its first micro-step (R37, R96). -/
theorem host_runs_first {s t : State} {i : Instr} {ws : List Half} (hfree : s.HostFree) (hpc : s.hostPc = .idle)
    (hd : decodeCommand s.words = .instr i ws)
    (h : ∀ es, exec i (State.accept { s with sched := es } i ws) = .next { t with sched := es }) : s.Runs [.host] t :=
  runs_singleton fun es =>
    have hen := hostEnabled_of_free hfree (.inr (commandReady_of hd))
    (hostStep_of_idle (s := { s with sched := es }) hen hpc hd).trans (h es)

/-- HOST's entry at a label runs the next micro-step of the command in progress (R37). -/
theorem host_runs_next {s t : State} {i : Instr} (hfree : s.HostFree) (hpc : s.hostPc ≠ .idle)
    (hcmd : s.hostCmd = some i) (h : ∀ es, exec i { s with sched := es } = .next { t with sched := es }) :
    s.Runs [.host] t :=
  runs_singleton fun es =>
    (hostStep_of_busy (s := { s with sched := es }) (hostEnabled_of_free hfree (.inl hpc)) hpc hcmd).trans (h es)

/-! ### `TX_DONE` -/

theorem txDone_runs {s : State} {c : ChNum} (hc : s.validCh c = true) (hbusy : (s.chan c).txe = false) :
    s.Runs [.txDone c] (s.setChan c { s.chan c with txe := true, txPending := true }) :=
  runs_singleton fun es => txDone_busy (s := { s with sched := es }) hc hbusy

end Sys2Proof.Machine
end

/-! ## `ENQ_OUT` from its taking to its response (R140 to R145, R148 (b), R178) -/

section
namespace Sys2Proof.Machine

/-! ### A buffer replaced twice, or with its channel -/

theorem setRing_setRing (s : State) (c : ChNum) (d : Dir) (F G : Ring) :
    (s.setRing c d F).setRing c d G = s.setRing c d G := by
  cases d <;> simp [State.setRing, Chan.setRing]

theorem chan_setRing_out (s : State) (c : ChNum) (F : Ring) :
    (s.setRing c .out F).chan c = { s.chan c with out := F } :=
  chan_setChan_same s c _

theorem setChan_setRing (s : State) (c : ChNum) (d : Dir) (F : Ring) (x : Chan) :
    (s.setRing c d F).setChan c x = s.setChan c x :=
  setChan_setChan s c _ x

/-! ### HOST's entries at the labels of `ENQ_OUT` -/

section
variable {s : State} {c : ChNum} {p : List Byte} (hfree : s.HostFree) (hc : s.validCh c = true)

include hfree hc

/-- S0: the command is taken and its channel checked (R141). -/
theorem enqOut_runs_s0 {ws : List Half} (hpc : s.hostPc = .idle)
    (hd : decodeCommand s.words = .instr (.enqOut c p) ws) :
    s.Runs [.host] { s with words := ws, hostCmd := some (.enqOut c p), hostPc := .s1 } :=
  host_runs_first hfree hpc hd fun es => execEnqOut_s0 (s := State.accept { s with sched := es } _ ws) p hc rfl

variable (hcmd : s.hostCmd = some (.enqOut c p))

include hcmd

theorem enqOut_runs_s1 (hpc : s.hostPc = .s1) (hroom : p.length ≤ s.cfg.cap - (s.ring c .out).occ) :
    s.Runs [.host] { s with hostOcc := (s.ring c .out).occ, hostI := 0, hostPc := if p = [] then .s3 else .s2 } :=
  host_runs_next hfree (by simp [hpc]) hcmd fun es =>
    (execEnqOut_s1 (s := { s with sched := es }) p hc hpc).trans (preCheck_room hroom)

theorem enqOut_runs_s2 {v : Byte} (hpc : s.hostPc = .s2) (hv : p[s.hostI]? = some v)
    (ho : (s.ring c .out).occ ≠ s.cfg.cap) (hh : (s.ring c .out).head < s.cfg.cap) :
    s.Runs [.host] { s.setRing c .out (Ring.pushed s.cfg.cap (s.ring c .out) v) with
      hostI := s.hostI + 1, hostPc := if s.hostI + 1 = p.length then .s3 else .s2 } :=
  host_runs_next hfree (by simp [hpc]) hcmd fun es =>
    (execEnqOut_s2 (s := { s with sched := es }) p hc hpc).trans (fillStep_room hv ho hh)

theorem enqOut_runs_s3_busy (hpc : s.hostPc = .s3) (hbusy : (s.chan c).txe = false) :
    s.Runs [.host] (s.answered (.enqOut c p) 0x0000) :=
  host_runs_next hfree (by simp [hpc]) hcmd fun es =>
    (execEnqOut_s3 (s := { s with sched := es }) p hc hpc).trans (armCheck_busy p hbusy)

theorem enqOut_runs_s3_idle (hpc : s.hostPc = .s3) (hready : (s.chan c).txe = true) :
    s.Runs [.host] { s with hostT := true, hostPc := .p1 } :=
  host_runs_next hfree (by simp [hpc]) hcmd fun es =>
    (execEnqOut_s3 (s := { s with sched := es }) p hc hpc).trans (armCheck_idle p hready)

theorem enqOut_runs_p1 (hpc : s.hostPc = .p1) (hready : (s.chan c).txe = true) :
    s.Runs [.host] { s with hostT := true, hostPc := .p2 } :=
  host_runs_next hfree (by simp [hpc]) hcmd fun es =>
    (execEnqOut_at (s := { s with sched := es }) p .p1 hc hpc).trans (hostPump_ready _ _ hready)

theorem enqOut_runs_p2 (hpc : s.hostPc = .p2) (ho : (s.ring c .out).occ ≠ 0) (ht : (s.ring c .out).tail < s.cfg.cap) :
    s.Runs [.host] { s.setRing c .out (Ring.popped s.cfg.cap (s.ring c .out)) with
      hostPc := .p3, hostB := (s.ring c .out).slot (s.ring c .out).tail } :=
  host_runs_next hfree (by simp [hpc]) hcmd fun es =>
    (execEnqOut_at (s := { s with sched := es }) p .p2 hc hpc).trans (hostPump_pops _ _ ho ht)

theorem enqOut_runs_p3 {x : Chan} (hpc : s.hostPc = .p3) (hx : s.chan c = x) (hready : x.txe = true)
    (hover : x.txOverrun = false) :
    s.Runs [.host] ((s.setChan c { x with
      txData := s.hostB, txe := false, txlog := x.txlog ++ [s.hostB] }).answered (.enqOut c p) 0x0000) := by
  subst hx
  refine host_runs_next hfree (by simp [hpc]) hcmd fun es => ?_
  rw [execEnqOut_at (s := { s with sched := es }) p .p3 hc hpc, hostPump_writes,
    writeTxData_ready (s := { s with sched := es }) s.hostB hready hover]
  rfl

end

/-! ### The fill -/

theorem pushAll_cons {cap : Nat} {F G : Ring} {v : Byte} {vs : List Byte}
    (h : Ring.pushAll cap F (v :: vs) = some G) :
    F.occ ≠ cap ∧ F.head < cap ∧ Ring.pushAll cap (Ring.pushed cap F v) vs = some G := by
  rw [Ring.pushAll] at h
  split at h
  · next H hpush =>
      rcases ring_push_cases hpush with ⟨hfull, -⟩ | ⟨-, ho, hh, rfl⟩
      · cases hfull
      · exact ⟨ho, hh, h⟩
  · cases h

/-- `s` inside the fill of `ENQ_OUT c p` (R143): `n` bytes of `p` are pushed, the output buffer is `F`, and S2.n is
next, or S3 after the last byte. -/
def State.filling (s : State) (c : ChNum) (p : List Byte) (F : Ring) (n : Nat) : State :=
  { s.setRing c .out F with
    hostCmd := some (.enqOut c p), hostI := n, hostPc := if n = p.length then .s3 else .s2 }

/-- The state the pre-check leaves (R142) is the fill's first. -/
theorem filling_zero (s : State) (c : ChNum) (p : List Byte) :
    s.filling c p (s.ring c .out) 0 =
      { s with hostCmd := some (.enqOut c p), hostI := 0, hostPc := if p = [] then .s3 else .s2 } := by
  have hlabel : (if 0 = p.length then HostPc.s3 else .s2) = if p = [] then .s3 else .s2 := by cases p <;> simp
  simp only [State.filling, setRing_ring, hlabel]

theorem ring_filling (s : State) (c : ChNum) (p : List Byte) (F : Ring) (n : Nat) :
    (s.filling c p F n).ring c .out = F :=
  ring_setRing_same s c .out F

theorem chan_filling (s : State) (c : ChNum) (p : List Byte) (F : Ring) (n : Nat) :
    (s.filling c p F n).chan c = { s.chan c with out := F } :=
  chan_setRing_out s c F

theorem setRing_filling (s : State) (c : ChNum) (p : List Byte) (F G : Ring) (n : Nat) :
    { (s.filling c p F n).setRing c .out G with hostI := n + 1, hostPc := if n + 1 = p.length then .s3 else .s2 } =
      s.filling c p G (n + 1) :=
  congrArg (fun u : State => { u with
    hostCmd := some (.enqOut c p), hostI := n + 1, hostPc := if n + 1 = p.length then .s3 else .s2 })
    (setRing_setRing s c .out F G)

theorem filling_runs_push {s : State} {c : ChNum} {p : List Byte} {v : Byte} {F : Ring} {n : Nat} (hfree : s.HostFree)
    (hc : s.validCh c = true) (hv : p[n]? = some v) (ho : F.occ ≠ s.cfg.cap) (hh : F.head < s.cfg.cap) :
    (s.filling c p F n).Runs [.host] (s.filling c p (Ring.pushed s.cfg.cap F v) (n + 1)) := by
  obtain ⟨hlt, -⟩ := List.getElem?_eq_some_iff.mp hv
  have hF := ring_filling s c p F n
  have hpush := enqOut_runs_s2 (s := s.filling c p F n) hfree hc rfl (if_neg hlt.ne) hv (by rwa [hF]) (by rwa [hF])
  rw [hF] at hpush
  exact setRing_filling s c p F _ n ▸ hpush

/-- The fill is `Ring.pushAll` of the bytes that are left, one for each entry of HOST (R143). -/
theorem filling_runs_pushAll {s : State} {c : ChNum} {p vs : List Byte} {F G : Ring} {n : Nat} (hfree : s.HostFree)
    (hc : s.validCh c = true) (hn : n + vs.length = p.length) (hvs : p.drop n = vs)
    (hpush : Ring.pushAll s.cfg.cap F vs = some G) :
    (s.filling c p F n).Runs (List.replicate vs.length .host) (s.filling c p G p.length) := by
  induction vs generalizing F n with
  | nil =>
    obtain rfl : F = G := Option.some.inj hpush
    obtain rfl : n = p.length := hn
    exact runs_nil _
  | cons v vs ih =>
    obtain ⟨ho, hh, hrest⟩ := pushAll_cons hpush
    have hv : p[n]? = some v := by rw [← List.head?_drop, hvs, List.head?_cons]
    have hdrop : p.drop (n + 1) = vs := by rw [← List.tail_drop, hvs, List.tail_cons]
    exact runs_cons (filling_runs_push hfree hc hv ho hh) (ih (by rw [← hn, List.length_cons]; omega) hdrop hrest)

/-! ### The whole operation -/

/-- The taking, the pre-check and the fill of a batch that fits: S3 is next, and the batch is behind the bytes held
before (R142, R143). -/
theorem enqOut_runs_to_s3 {s : State} {c : ChNum} {p : List Byte} {ws : List Half} (hfree : s.HostFree)
    (hc : s.validCh c = true) (hpc : s.hostPc = .idle) (hwords : s.words = encodeWords (.enqOut c p) ++ ws)
    (hlen : p.length ≤ 255) (hF : Ring.Inv s.cfg.cap (s.ring c .out))
    (hroom : (s.ring c .out).occ + p.length ≤ s.cfg.cap) :
    ∃ G, Ring.Inv s.cfg.cap G ∧ Ring.held s.cfg.cap G = Ring.held s.cfg.cap (s.ring c .out) ++ p ∧
      s.Runs (List.replicate (p.length + 2) .host)
        (State.filling { s with words := ws, hostOcc := (s.ring c .out).occ } c p G p.length) := by
  have hd : decodeCommand s.words = .instr (.enqOut c p) ws :=
    hwords ▸ decodeCommand_encodeWords ws rfl (decide_eq_true hlen)
  obtain ⟨G, hpush, hG, hheld, -⟩ := pushAll_room hF hroom
  refine ⟨G, hG, hheld, ?_⟩
  have hcheck := enqOut_runs_s1 (s := { s with words := ws, hostCmd := some (.enqOut c p), hostPc := .s1 }) hfree hc rfl
    rfl (show p.length ≤ s.cfg.cap - (s.ring c .out).occ by omega)
  have hstart := filling_zero { s with words := ws, hostOcc := (s.ring c .out).occ } c p
  have hfill := filling_runs_pushAll (s := { s with words := ws, hostOcc := (s.ring c .out).occ }) (n := 0) hfree hc
    (Nat.zero_add _) rfl hpush
  exact runs_cons (enqOut_runs_s0 hfree hc hpc hd) (runs_cons (hstart ▸ hcheck) hfill)

/-- S3 on a busy transmitter ends the command: no pump (R144). -/
theorem filled_runs_busy {s : State} {c : ChNum} {p : List Byte} {G : Ring} (hfree : s.HostFree)
    (hc : s.validCh c = true) (hbusy : (s.chan c).txe = false) :
    (s.filling c p G p.length).Runs [.host] ((s.setChan c { s.chan c with out := G }).answered (.enqOut c p) 0x0000) :=
  enqOut_runs_s3_busy (s := s.filling c p G p.length) hfree hc rfl (if_pos rfl) (by rwa [chan_filling])

/-- The channel after a pump has taken the oldest byte of its output buffer `F` and given it to the transmitter (R66,
R121, R170). -/
def Chan.pumped (cap : Nat) (x : Chan) (F : Ring) : Chan :=
  { x with
    out := Ring.popped cap F, txData := F.slot F.tail, txe := false, txlog := x.txlog ++ [F.slot F.tail] }

/-- S3 on an idle transmitter, and the pump it arms: one byte, the oldest, is sent (R144, R145, R170). -/
theorem enqOut_runs_arm {s : State} {c : ChNum} {p : List Byte} (hfree : s.HostFree)
    (hc : s.validCh c = true) (hcmd : s.hostCmd = some (.enqOut c p)) (hpc : s.hostPc = .s3)
    (ho : (s.ring c .out).occ ≠ 0) (ht : (s.ring c .out).tail < s.cfg.cap)
    (hready : (s.chan c).txe = true) (hover : (s.chan c).txOverrun = false) :
    s.Runs (List.replicate 4 .host)
      ((s.setChan c ((s.chan c).pumped s.cfg.cap (s.ring c .out))).answered (.enqOut c p) 0x0000) := by
  have hp1 := enqOut_runs_p1 (s := { s with hostT := true, hostPc := .p1 }) hfree hc hcmd rfl hready
  have hp2 := enqOut_runs_p2 (s := { s with hostT := true, hostPc := .p2 }) hfree hc hcmd rfl ho ht
  have hp3 := enqOut_runs_p3
    (s := { s.setRing c .out (Ring.popped s.cfg.cap (s.ring c .out)) with
      hostT := true, hostPc := .p3, hostB := (s.ring c .out).slot (s.ring c .out).tail })
    hfree hc hcmd rfl (chan_setRing_out s c _) hready hover
  rw [← setChan_setRing s c .out (Ring.popped s.cfg.cap (s.ring c .out))]
  exact runs_cons (enqOut_runs_s3_idle hfree hc hcmd hpc hready) (runs_cons hp1 (runs_cons hp2 hp3))

/-- S3 after the fill on an idle transmitter. -/
theorem filled_runs_idle {s : State} {c : ChNum} {p : List Byte} {G : Ring} (hfree : s.HostFree)
    (hc : s.validCh c = true) (ho : G.occ ≠ 0) (ht : G.tail < s.cfg.cap)
    (hready : (s.chan c).txe = true) (hover : (s.chan c).txOverrun = false) :
    (s.filling c p G p.length).Runs (List.replicate 4 .host)
      ((s.setChan c ((s.chan c).pumped s.cfg.cap G)).answered (.enqOut c p) 0x0000) := by
  have hF := ring_filling s c p G p.length
  have hx := chan_filling s c p G p.length
  have h := enqOut_runs_arm (s := s.filling c p G p.length) hfree hc rfl (if_pos rfl) (by rwa [hF]) (by rwa [hF])
    (by rwa [hx]) (by rwa [hx])
  rw [hF, hx] at h
  exact setChan_setRing s c .out G _ ▸ h

/-- `ENQ_OUT c p` has been taken from HOST's words, which are `ws` from there on, and has returned `None`; channel `c`
is `x`. -/
def State.enqueued (s : State) (c : ChNum) (p : List Byte) (ws : List Half) (x : Chan) : State :=
  ({ s with words := ws }.setChan c x).answered (.enqOut c p) 0x0000

theorem chan_enqueued_same (s : State) (c : ChNum) (p : List Byte) (ws : List Half) (x : Chan) :
    (s.enqueued c p ws x).chan c = x :=
  chan_setChan_same s c x

theorem chan_enqueued_other (s : State) {c c' : ChNum} (p : List Byte) (ws : List Half) (x : Chan) (h : c' ≠ c) :
    (s.enqueued c p ws x).chan c' = s.chan c' :=
  chan_setChan_other s x h.symm

/-- Settles O50: after the fill, S3 reads a busy transmitter and the command returns. -/
theorem enqOutToABusyChannelOnlyFills : Obligations.EnqOutToABusyChannelOnlyFills := by
  intro s ch p ws es hs hpc hidle hie hfault hch hlen hroom hbusy hwords hsched
  have hfree : s.HostFree := ⟨hidle, hfault, .inr hie⟩
  have hc : s.validCh ch = true := (validCh_iff s ch).mpr hch
  obtain ⟨-, hrings, -⟩ := hs
  obtain ⟨G, -, hheld, hfill⟩ := enqOut_runs_to_s3 hfree hc hpc hwords hlen (hrings ch).1 hroom
  have hruns : s.Runs (List.replicate (p.length + 2 + 1) .host) (s.enqueued ch p ws { s.chan ch with out := G }) := by
    rw [← List.replicate_append_replicate]
    exact runs_append hfill (filled_runs_busy hfree hc hbusy)
  have hx := chan_enqueued_same s ch p ws { s.chan ch with out := G }
  refine ⟨_, host_run_of_runs hruns hsched, ?held, ?chan, rfl, rfl, rfl, rfl, rfl, hie, hfault, hidle, rfl,
    fun c hne => ?others⟩
  case held => rw [ring_sched, State.ring, hx]; exact hheld
  case chan => rw [ring_sched, State.ring, chan_sched, hx]; rfl
  case others => exact chan_enqueued_other s p ws _ hne

/-- Settles O49: after the fill, S3 reads an idle transmitter, and the pump it arms takes the first of the bytes held
before and the batch. -/
theorem enqOutToAnIdleChannelSendsOneByte : Obligations.EnqOutToAnIdleChannelSendsOneByte := by
  intro s ch p ws es hs hpc hidle hie hfault hch hp hlen hroom hready hover hwords hsched
  have hfree : s.HostFree := ⟨hidle, hfault, .inr hie⟩
  have hc : s.validCh ch = true := (validCh_iff s ch).mpr hch
  obtain ⟨-, hrings, -⟩ := hs
  obtain ⟨G, hG, hheld, hfill⟩ := enqOut_runs_to_s3 hfree hc hpc hwords hlen (hrings ch).1 hroom
  have ho : G.occ ≠ 0 := by
    rw [Ne, ← held_eq_nil_iff s.cfg.cap, hheld, List.append_eq_nil_iff]
    exact fun h => hp h.2
  obtain ⟨-, -, ht, -⟩ := hG
  have hruns : s.Runs (List.replicate (p.length + 2 + 4) .host)
      (s.enqueued ch p ws ((s.chan ch).pumped s.cfg.cap G)) := by
    rw [← List.replicate_append_replicate]
    exact runs_append hfill (filled_runs_idle hfree hc ho ht hready hover)
  have hx := chan_enqueued_same s ch p ws ((s.chan ch).pumped s.cfg.cap G)
  refine ⟨_, G.slot G.tail, Ring.held s.cfg.cap (Ring.popped s.cfg.cap G), host_run_of_runs hruns hsched,
    hheld.symm.trans (held_popped ho ht), ?held, ?txData, ?txe, ?txlog, rfl, rfl, rfl, rfl, ?chan, rfl, hie, hfault,
    hidle, rfl, fun c hne => ?others⟩
  case others => exact chan_enqueued_other s p ws _ hne
  all_goals simp only [State.ring, chan_sched, hx]; rfl

end Sys2Proof.Machine
end

/-! ## The arming race that sends an older byte after a newer one (R66, R147, R225; assumption log 24) -/

section
namespace Sys2Proof.Machine

/-- A `TX_DONE` between a handler's write and HOST's P3 readies the transmitter, so P3 sends the byte HOST has held
since its P2 and sets no flag. -/
theorem racing_runs_txDone_p3 {s : State} {c : ChNum} {p : List Byte} (hfree : s.HostFree) (hc : s.validCh c = true)
    (hcmd : s.hostCmd = some (.enqOut c p)) (hpc : s.hostPc = .p3) (hbusy : (s.chan c).txe = false)
    (hover : (s.chan c).txOverrun = false) :
    s.Runs [.txDone c, .host] (s.enqueued c p s.words { s.chan c with
      txe := false, txPending := true, txData := s.hostB, txlog := (s.chan c).txlog ++ [s.hostB] }) := by
  have hwrite := enqOut_runs_p3 (s := s.setChan c { s.chan c with txe := true, txPending := true }) hfree hc hcmd hpc
    (chan_setChan_same s c _) rfl hover
  rw [setChan_setChan] at hwrite
  exact runs_cons (txDone_runs hc hbusy) hwrite

/-- `IE_SET`, a batch of three bytes and a batch of one on channel 0: the first byte is done before the second batch,
the grant of `TXIRQ(0)` falls between P2 and P3 of the second one's pump, and a `TX_DONE` before that P3. -/
def reorderingRace : State :=
  { State.reset with
    words := [0x7000, 0x3003, 0x0061, 0x0062, 0x0063, 0x3001, 0x0064],
    sched := List.replicate 10 .host ++ [.txDone 0] ++ List.replicate 6 .host ++ [.grant 1] ++
      List.replicate 4 .irq ++ [.txDone 0, .host] }

/-- After 22 steps `TXIRQ(0)` has sent 63 and returned, and HOST still holds 62 at its P3. -/
theorem reorderingRace_reaches_p3 :
    ∃ t : State, Host.Core.run Sys2Proof.core 22 reorderingRace = .next t ∧ t.HostFree ∧ t.validCh 0 = true ∧
      t.hostCmd = some (.enqOut 0 [0x64]) ∧ t.hostPc = .p3 ∧ t.hostB = 0x62 ∧ (t.chan 0).txe = false ∧
      (t.chan 0).txOverrun = false ∧ (t.chan 0).rxOverrun = false ∧ (t.chan 0).txlog = [0x61, 0x63] ∧
      t.hostlog = [(.ieSet, 0x0000), (.enqOut 0 [0x61, 0x62, 0x63], 0x0000)] ∧ t.sched = [.txDone 0, .host] :=
  ⟨_, rfl, ⟨rfl, rfl, .inl rfl⟩, by decide, by decide, by decide, by decide, by decide, by decide, by decide, by decide,
    by decide, by decide⟩

/-- Settles O57: from HOST's P3 with 62 still held, after 63 was sent, the `TX_DONE` lets 62 out with no flag set. -/
theorem armingRaceReordersWithoutAFault : Obligations.ArmingRaceReordersWithoutAFault := by
  obtain ⟨s, hrun, hfree, hc, hcmd, hpc, hheld, hbusy, htx, hrx, hlog, hhost, hsched⟩ := reorderingRace_reaches_p3
  have hend := run_of_runs (rest := []) (racing_runs_txDone_p3 hfree hc hcmd hpc hbusy htx) hsched
  obtain ⟨-, hfault, -⟩ := hfree
  refine ⟨_, (run_add 2 hrun).trans hend, ?tx, ?rx, hfault, ?txlog, congrArg (· ++ _) hhost⟩
  all_goals simp only [chan_sched, chan_enqueued_same]
  case tx => exact htx
  case rx => exact hrx
  case txlog => rw [hlog, hheld]; rfl

end Sys2Proof.Machine
end

/-! ## An arrived byte from the wire to the input buffer (R157, R158, R213, R217, R218, R226) -/

section
namespace Sys2Proof.Machine

/-! ### What G2 leaves in the input buffer -/

/-- The buffer after a `push` of `v` whose answer nobody reads: a full one drops the byte (R120, R157, R158). -/
def Ring.offered (cap : Nat) (F : Ring) (v : Byte) : Ring := if F.occ < cap then Ring.pushed cap F v else F

theorem held_offered {cap : Nat} {F : Ring} (v : Byte) (h : Ring.Inv cap F) :
    Ring.held cap (F.offered cap v) = Ring.held cap F ++ if F.occ < cap then [v] else [] := by
  unfold Ring.offered
  split
  · next hroom => exact held_pushed v h hroom.ne
  · exact (List.append_nil _).symm

/-- G2 of `RXIRQ(c)`, with room and without. -/
theorem execRxirq_offers {s : State} {c : ChNum} (hc : s.validCh c = true) (hpc : s.irqPc = .g2)
    (hF : Ring.Inv s.cfg.cap (s.ring c .inp)) :
    exec (.rxirq c) s =
      .next { s.setRing c .inp ((s.ring c .inp).offered s.cfg.cap s.irqB) with irqPc := .g3 } := by
  obtain ⟨hocc, hhead, -⟩ := hF
  obtain ⟨-, hfull, hroom, -⟩ := rxirqMovesTheArrivedByte s c ((validCh_iff s c).mp hc)
  unfold Ring.offered
  split
  · next h => exact hroom hpc h hhead
  · next h => rw [hfull hpc (by omega), setRing_ring]

/-! ### The entries of the environment, the arbiter and the handler -/

/-- The channel after `RX_ARRIVE` with the previous byte read (R226). -/
def Chan.arrived (x : Chan) (b : Byte) : Chan := { x with rxlog := x.rxlog ++ [b], rxData := b, rxPending := true }

theorem rxArrive_runs {s : State} {c : ChNum} (b : Byte) (hc : s.validCh c = true)
    (hread : (s.chan c).rxPending = false) : s.Runs [.rxArrive c b] (s.setChan c ((s.chan c).arrived b)) :=
  runs_singleton fun es => by
    have harrive := rxArrive_valid (s := { s with sched := es }) b hc
    simp only [State.arrive, chan_sched, hread] at harrive
    exact harrive

/-- Under `ARB_ORDER = any` a pending request needs only `ie` and no running handler (R213, R214). -/
theorem canGrant_of_pending {s : State} {r : IrqNum} (horder : s.cfg.arbOrder = .any) (hie : s.ie = true)
    (hidle : s.inHandler = false) (hpending : s.pending r = true) : s.canGrant r = true := by
  simp [State.canGrant, horder, hie, hidle, hpending]

theorem grant_runs {s : State} {r : IrqNum} (h : s.canGrant r = true) : s.Runs [.grant r] (s.enterHandler r) :=
  runs_singleton fun es => by
    have hgrant : State.grant { s with sched := es } r = .next (State.enterHandler { s with sched := es } r) := if_pos h
    refine hgrant.trans (congrArg _ ?_)
    unfold State.enterHandler
    split <;> rfl

/-- The grant of an unread byte's request starts `RXIRQ(c)` at G1 and touches no channel (R213, R217). -/
theorem rxGrant_runs {s : State} {c : ChNum} (horder : s.cfg.arbOrder = .any) (hie : s.ie = true)
    (hidle : s.inHandler = false) (hc : s.validCh c = true) (hunread : (s.chan c).rxPending = true) :
    s.Runs [.grant (requestNumber c false)]
      { s with inHandler := true, curIrq := requestNumber c false, irqPc := .g1 } := by
  have hpending : s.pending (requestNumber c false) = true := by simp [State.pending, hc, hunread]
  have hgrant := grant_runs (canGrant_of_pending horder hie hidle hpending)
  simpa [State.enterHandler, firstIrqLabel] using hgrant

/-- IRQ's entry runs the next micro-step of the handler that `cur_irq` names (R217). -/
theorem irq_runs {s t : State} {i : Instr} (hrun : s.inHandler = true) (hi : decodeRequest s.curIrq = i)
    (hwf : i.wf s.cfg.nCh = true) (h : ∀ es, exec i { s with sched := es } = .next { t with sched := es }) :
    s.Runs [.irq] t :=
  runs_singleton fun es => (irqStep_of (s := { s with sched := es }) hrun hi hwf).trans (h es)

/-! ### `RXIRQ` from its grant to its return -/

section
variable {s : State} {c : ChNum} (hrun : s.running c false = true) (hc : s.validCh c = true)

include hrun hc

theorem rxirq_runs {t : State} (h : ∀ es, exec (.rxirq c) { s with sched := es } = .next { t with sched := es }) :
    s.Runs [.irq] t := by
  obtain ⟨hin, hcur, hrx⟩ := (rxRunning_iff s c).mp hrun
  exact irq_runs (i := .rxirq c) hin (by rw [decodeRequest, hrx, hcur]; rfl) hc h

theorem rxirq_runs_g1 {x : Chan} (hpc : s.irqPc = .g1) (hx : s.chan c = x) :
    s.Runs [.irq] { s.setChan c { x with rxPending := false } with irqB := x.rxData, irqPc := .g2 } := by
  subst hx
  refine rxirq_runs hrun hc fun es => ?_
  obtain ⟨hg1, -⟩ := rxirqMovesTheArrivedByte { s with sched := es } c ((validCh_iff s c).mp hc)
  exact hg1 hpc

theorem rxirq_runs_g2 {x : Chan} (hpc : s.irqPc = .g2) (hx : s.chan c = x) (hF : Ring.Inv s.cfg.cap x.inp) :
    s.Runs [.irq] { s.setChan c { x with inp := x.inp.offered s.cfg.cap s.irqB } with irqPc := .g3 } := by
  subst hx
  exact rxirq_runs hrun hc fun es => execRxirq_offers (s := { s with sched := es }) hc hpc hF

theorem rxirq_runs_g3 (hpc : s.irqPc = .g3) : s.Runs [.irq] s.leaveHandler :=
  rxirq_runs hrun hc fun es => by simp only [exec, execRxirq, hpc]; exact onChannel_valid _ hc

/-- The whole handler: the unread byte is taken, offered to the input buffer, and the handler returns. -/
theorem rxirq_runs_through {x : Chan} (hpc : s.irqPc = .g1) (hx : s.chan c = x) (hF : Ring.Inv s.cfg.cap x.inp) :
    s.Runs [.irq, .irq, .irq]
      (s.setChan c { x with inp := x.inp.offered s.cfg.cap x.rxData, rxPending := false }).leaveHandler := by
  have hg2 := rxirq_runs_g2
    (s := { s.setChan c { x with rxPending := false } with irqB := x.rxData, irqPc := .g2 })
    hrun hc rfl (chan_setChan_same s c _) hF
  have hg3 := rxirq_runs_g3
    (s := { (s.setChan c { x with rxPending := false }).setChan c
      { x with inp := x.inp.offered s.cfg.cap x.rxData, rxPending := false } with irqB := x.rxData, irqPc := .g3 })
    hrun hc rfl
  rw [← setChan_setChan s c { x with rxPending := false }]
  exact runs_cons (rxirq_runs_g1 hrun hc hpc hx) (runs_cons hg2 hg3)

end

/-! ### The whole way -/

/-- The channel after byte `b` has arrived and `RXIRQ` has offered it to the input buffer. -/
def Chan.received (cap : Nat) (x : Chan) (b : Byte) : Chan :=
  { x with inp := x.inp.offered cap b, rxData := b, rxPending := false, rxlog := x.rxlog ++ [b] }

/-- Arrival, grant and handler: channel `c` has received the byte, and the handler has returned. -/
theorem arrival_runs {s : State} {c : ChNum} (b : Byte) (horder : s.cfg.arbOrder = .any) (hie : s.ie = true)
    (hidle : s.inHandler = false) (hc : s.validCh c = true) (hread : (s.chan c).rxPending = false)
    (hF : Ring.Inv s.cfg.cap (s.ring c .inp)) :
    s.Runs [.rxArrive c b, .grant (requestNumber c false), .irq, .irq, .irq]
      (s.setChan c ((s.chan c).received s.cfg.cap b)).leaveHandler := by
  have hx : (s.setChan c ((s.chan c).arrived b)).chan c = (s.chan c).arrived b := chan_setChan_same s c _
  have hgrant := rxGrant_runs (s := s.setChan c ((s.chan c).arrived b)) horder hie hidle hc (by rw [hx]; rfl)
  have hhandler := rxirq_runs_through
    (s := { s.setChan c ((s.chan c).arrived b) with
      inHandler := true, curIrq := requestNumber c false, irqPc := .g1 })
    (by simp [State.running]) hc rfl hx hF
  rw [← setChan_setChan s c ((s.chan c).arrived b)]
  exact runs_cons (rxArrive_runs b hc hread) (runs_cons hgrant hhandler)

/-- Settles O53: the run ends with the handler's return, on the channel that has received the byte. -/
theorem arrivedByteReachesTheInputBuffer : Obligations.ArrivedByteReachesTheInputBuffer := by
  intro s c b es hs horder hidle hie hch hread hsched
  have hc : s.validCh c = true := (validCh_iff s c).mpr hch
  obtain ⟨-, hrings, -⟩ := hs
  obtain ⟨-, hF⟩ := hrings c
  have hx : (s.setChan c ((s.chan c).received s.cfg.cap b)).leaveHandler.chan c = (s.chan c).received s.cfg.cap b :=
    chan_setChan_same s c _
  refine ⟨_, run_of_runs (arrival_runs b horder hie hidle hc hread hF) hsched, ?held, ?pending, ?rxOverrun,
    ?txOverrun, rfl, ?rxlog, ?out, rfl, hie, rfl, rfl, rfl, fun c' hne => ?others⟩
  case held => rw [ring_sched, State.ring, hx]; exact held_offered b hF
  case others => exact chan_setChan_other s _ hne.symm
  all_goals rw [chan_sched, hx]; rfl

end Sys2Proof.Machine
end

/-! ## A channel that holds output bytes is not forgotten (R174, R175, R250) -/

section
namespace Sys2Proof.Machine

/-! ### What keeps a drain alive -/

/-- `TXIRQ(c)` is running its pump: T4 is not yet next. -/
def State.irqPumps (s : State) (c : ChNum) : Prop :=
  s.running c true = true ∧ (s.irqPc = .p1 ∨ s.irqPc = .p2 ∨ s.irqPc = .p3)

theorem drainAlive_iff (s : State) (c : ChNum) :
    s.DrainAlive c ↔ (s.noPushOut c = true → 0 < (s.ring c .out).occ →
      (s.chan c).txe = false ∨ (s.chan c).txPending = true ∨ s.irqPumps c ∨ s.enqueuing c = true) := Iff.rfl

theorem drainAlive_of_busy {s : State} {c : ChNum} (h : (s.chan c).txe = false) : s.DrainAlive c :=
  fun _ _ => .inl h

theorem drainAlive_of_pumping {s : State} {c : ChNum} (h : s.irqPumps c) : s.DrainAlive c :=
  fun _ _ => .inr (.inr (.inl h))

theorem drainAlive_of_enqueuing {s : State} {c : ChNum} (h : s.enqueuing c = true) : s.DrainAlive c :=
  fun _ _ => .inr (.inr (.inr h))

theorem drainAlive_of_empty {s : State} {c : ChNum} (h : (s.ring c .out).occ = 0) : s.DrainAlive c :=
  fun _ hocc => absurd hocc (by omega)

theorem irqPumps_of_stopped {s : State} {c : ChNum} (h : s.inHandler = false) : ¬ s.irqPumps c :=
  fun ⟨hrun, _⟩ => Bool.false_ne_true ((running_of_stopped h).symm.trans hrun)

/-- An `ENQ_OUT c` is past its pre-check from its S2 on. -/
theorem enqueuing_enqOut {s : State} {c : ChNum} {p : List Byte} (hcmd : s.hostCmd = some (.enqOut c p)) :
    s.enqueuing c = true ↔ s.hostPc ≠ .idle ∧ s.hostPc ≠ .s0 ∧ s.hostPc ≠ .s1 := by
  rw [State.enqueuing, hcmd]
  cases s.hostPc <;> simp

theorem enqueuing_other {s : State} {c : ChNum} {i : Instr} (hcmd : s.hostCmd = some i) (h : ∀ p, i ≠ .enqOut c p) :
    s.enqueuing c = false := by
  rw [State.enqueuing, hcmd]
  cases i with
  | enqOut ch p =>
    have hne : ch ≠ c := by rintro rfl; exact h p rfl
    simp [hne]
  | _ => rfl

theorem enqueuing_none {s : State} {c : ChNum} (hcmd : s.hostCmd = none) : s.enqueuing c = false := by
  rw [State.enqueuing, hcmd]

theorem enqueuing_sameHost {s t : State} (h : SameHost s t) (c : ChNum) : t.enqueuing c = s.enqueuing c := by
  obtain ⟨hpc, hcmd, -⟩ := h
  rw [State.enqueuing, State.enqueuing, hcmd, hpc]

theorem noPushOut_of_issued {s t : State} {c : ChNum} (h : ∀ q, s.issued q = true → t.issued q = true)
    (ht : t.noPushOut c = true) : s.noPushOut c = true := by
  unfold State.noPushOut at ht ⊢
  rw [Bool.not_eq_true'] at ht ⊢
  exact Bool.eq_false_of_not_eq_true fun hs => Bool.false_ne_true (ht.symm.trans (h _ hs))

theorem noPushOut_command {s : State} {c : ChNum} {i : Instr} (h : s.noPushOut c = true) (hcmd : s.hostCmd = some i)
    (v : Byte) : i ≠ .push .out c v := by
  rintro rfl
  simp [State.noPushOut, State.issued, hcmd] at h

/-- Channel `y` holds no more output bytes than `x`, and is busy or requested if `x` is. -/
def KeepsDrain (x y : Chan) : Prop :=
  y.out.occ ≤ x.out.occ ∧ (x.txe = false ∨ x.txPending = true → y.txe = false ∨ y.txPending = true)

theorem keepsDrain_of_eq {x y : Chan} (hout : y.out = x.out) (htxe : y.txe = x.txe)
    (hpend : y.txPending = x.txPending) : KeepsDrain x y := by
  simp [KeepsDrain, hout, htxe, hpend]

/-- A step that keeps the channel's side of the drain, and loses neither agent's. -/
theorem drainAlive_frame {s t : State} {c : ChNum} (hpush : t.noPushOut c = true → s.noPushOut c = true)
    (hchan : t.noPushOut c = true → KeepsDrain (s.chan c) (t.chan c))
    (hagents : s.irqPumps c ∨ s.enqueuing c = true → t.irqPumps c ∨ t.enqueuing c = true) (hs : s.DrainAlive c) :
    t.DrainAlive c := by
  rw [drainAlive_iff] at hs ⊢
  intro ht hocc
  obtain ⟨hle, hflags⟩ := hchan ht
  rcases hs (hpush ht) (hocc.trans_le hle) with hbusy | hpend | hagent
  · exact (hflags (.inl hbusy)).imp_right .inl
  · exact (hflags (.inr hpend)).imp_right .inl
  · exact .inr (.inr (hagents hagent))

/-! ### HOST's step -/

theorem chanMove_keepsDrain {cap : Nat} {i : Instr} {x y : Chan} (h : ChanMove cap i x y)
    (hpush : pushesInto i .out = false) : KeepsDrain x y := by
  obtain ⟨hpend, -⟩ := chanMove_keeps_environment h
  refine ⟨chanMove_out_occ_le h hpush, ?_⟩
  rintro (hbusy | hx)
  · exact .inl (chanMove_txe_not_set h hbusy)
  · exact .inr (hpend.trans hx)

theorem pushesInto_out_command {i : Instr} {c : ChNum} (hi : i.isCommand = true) (hc : i.chan? = some c)
    (hpush : ∀ v, i ≠ .push .out c v) (henq : ∀ p, i ≠ .enqOut c p) : pushesInto i .out = false := by
  cases i with
  | push d ch v =>
    cases hc
    cases d with
    | out => exact absurd rfl (hpush v)
    | inp => rfl
  | enqOut ch p => cases hc; exact absurd rfl (henq p)
  | rxirq ch => cases hi
  | _ => rfl

/-- A command that is no `ENQ_OUT c` brings `c` no output byte, unless it is a `PUSH OUT c`. -/
theorem command_elsewhere_drainAlive {s t : State} {i : Instr} {c : ChNum} (h : exec i s = .next t)
    (hi : i.isCommand = true) (hcmd : s.hostCmd = some i) (hidle : s.inHandler = false)
    (henq : ∀ p, i ≠ .enqOut c p) (hs : s.DrainAlive c) : t.DrainAlive c := by
  have hissued := issued_command (exec_commandShape h hi) hcmd
  have hpush : t.noPushOut c = true → s.noPushOut c = true := noPushOut_of_issued fun q hq => (hissued q).trans hq
  refine drainAlive_frame hpush (fun ht => ?chan) (fun hagents => ?agents) hs
  case chan =>
    rcases exec_movesChans h c with heq | ⟨hc, hm⟩
    · exact keepsDrain_of_eq (by rw [heq]) (by rw [heq]) (by rw [heq])
    · exact chanMove_keepsDrain hm (pushesInto_out_command hi hc (noPushOut_command (hpush ht) hcmd) henq)
  case agents =>
    rcases hagents with hp | henqueuing
    · exact absurd hp (irqPumps_of_stopped hidle)
    · exact absurd ((enqueuing_other hcmd henq).symm.trans henqueuing) Bool.false_ne_true

/-- Before its S2 an `ENQ_OUT` leaves the channels alone. -/
theorem enqOut_early_drainAlive {s t : State} {c : ChNum} {p : List Byte} (h : exec (.enqOut c p) s = .next t)
    (hcmd : s.hostCmd = some (.enqOut c p)) (hidle : s.inHandler = false) (hpc : s.hostPc = .s0 ∨ s.hostPc = .s1)
    (hchans : t.chans = s.chans) (hs : s.DrainAlive c) : t.DrainAlive c := by
  have hissued := issued_command (exec_commandShape h rfl) hcmd
  have hchan := chan_congr hchans c
  refine drainAlive_frame (noPushOut_of_issued fun q hq => (hissued q).trans hq)
    (fun _ => keepsDrain_of_eq (by rw [hchan]) (by rw [hchan]) (by rw [hchan])) (fun hagents => ?_) hs
  rcases hagents with hp | henqueuing
  · exact absurd hp (irqPumps_of_stopped hidle)
  · obtain ⟨-, h0, h1⟩ := (enqueuing_enqOut hcmd).mp henqueuing
    exact absurd hpc (not_or.mpr ⟨h0, h1⟩)

/-- From its S2 on an `ENQ_OUT c` goes on until it finds the transmitter busy, makes it busy, or empties the buffer. -/
theorem enqOut_drainAlive {s t : State} {c : ChNum} {p : List Byte} (h : exec (.enqOut c p) s = .next t)
    (hcmd : s.hostCmd = some (.enqOut c p)) (hidle : s.inHandler = false) (hseq : s.hostSeqOk = true)
    (hs : s.DrainAlive c) : t.DrainAlive c := by
  have hgoesOn : ∀ u : State, u.hostCmd = s.hostCmd → u.hostPc ≠ .idle ∧ u.hostPc ≠ .s0 ∧ u.hostPc ≠ .s1 →
      u.DrainAlive c :=
    fun u hu hpc => drainAlive_of_enqueuing ((enqueuing_enqOut (hu.trans hcmd)).mpr hpc)
  cases exec_microStep h with
  | check _ _ hpc hcheck => exact enqOut_early_drainAlive h hcmd hidle (.inl hpc) (checkChannel_chans hcheck) hs
  | preCheck hpc _ hpre => exact enqOut_early_drainAlive h hcmd hidle (.inr hpc) (preCheck_chans hpre) hs
  | fill hpc _ hfill =>
    obtain ⟨-, -, -, hfit⟩ := (hostSeqOk_some hcmd).mp hseq
    obtain ⟨hlt, hroom⟩ := hfit hpc c p rfl
    obtain ⟨v, -, ⟨hfull, -⟩ | ⟨-, -, rfl⟩⟩ := fillStep_next hfill
    · omega
    · refine hgoesOn _ rfl ?_
      dsimp only
      split <;> simp
  | armCheck _ _ harm =>
    rcases armCheck_next harm with ⟨-, rfl⟩ | ⟨hbusy, rfl⟩
    · exact hgoesOn _ rfl (by simp)
    · exact drainAlive_of_busy hbusy
  | enqOutPump pc _ _ hpump =>
    rcases hostPump_next hpump with ⟨-, -, rfl⟩ | ⟨-, hbusy, rfl⟩ | ⟨-, hempty, rfl⟩ | ⟨-, -, -, rfl⟩ | ⟨-, rfl⟩
    · exact hgoesOn _ rfl (by simp)
    · exact drainAlive_of_busy hbusy
    · exact drainAlive_of_empty hempty
    · exact hgoesOn _ rfl (by simp)
    · exact drainAlive_of_busy (writeTxData_txe (s := s) (v := s.hostB) rfl)

theorem command_drainAlive {s t : State} {i : Instr} {c : ChNum} (h : exec i s = .next t) (hi : i.isCommand = true)
    (hcmd : s.hostCmd = some i) (hidle : s.inHandler = false) (hseq : s.hostSeqOk = true) (hs : s.DrainAlive c) :
    t.DrainAlive c := by
  by_cases henq : ∃ p, i = .enqOut c p
  · obtain ⟨p, rfl⟩ := henq
    exact enqOut_drainAlive h hcmd hidle hseq hs
  · exact command_elsewhere_drainAlive h hi hcmd hidle (not_exists.mp henq) hs

theorem accept_drainAlive {s : State} {i : Instr} {rest : List Half} {c : ChNum} (hcmd : s.hostCmd = none)
    (hs : s.DrainAlive c) : (s.accept i rest).DrainAlive c :=
  drainAlive_frame (noPushOut_of_issued fun q => issued_accept hcmd q) (fun _ => keepsDrain_of_eq rfl rfl rfl)
    (fun hagents => hagents.imp id fun he => absurd ((enqueuing_none hcmd).symm.trans he) Bool.false_ne_true) hs

theorem hostStep_drainAlive {s t : State} {c : ChNum} (h : s.hostStep = .next t) (hinv : s.Inv)
    (hs : s.DrainAlive c) : t.DrainAlive c := by
  obtain ⟨-, -, hseqs⟩ := (inv_iff s).mp hinv
  obtain ⟨hhost, -⟩ := id hseqs
  obtain ⟨hen, ⟨-, why, rest, -, rfl⟩ | ⟨hpc, i, rest, hd, h⟩ | ⟨-, i, hc, h⟩⟩ := hostStep_cases h
  · exact hs
  · obtain ⟨hi, hwf⟩ := decodeCommand_sound hd
    obtain ⟨hhost', -⟩ := accept_seqsInv (rest := rest) hseqs hi hwf
    exact command_drainAlive h hi rfl (hostEnabled_idle (s := s) hen) hhost'
      (accept_drainAlive (hostCmd_of_idle hhost hpc) hs)
  · obtain ⟨hl, -⟩ := (hostSeqOk_some hc).mp hhost
    exact command_drainAlive h (hasHostLabel_isCommand hl) hc (hostEnabled_idle hen) hhost hs

/-! ### The handlers -/

/-- At its T4 `TXIRQ(c)` no longer stands for the drain, and its return changes nothing that does. -/
theorem leaveHandler_drainAlive {s : State} {c : ChNum} (hpc : s.irqPc = .t4) (hs : s.DrainAlive c) :
    s.leaveHandler.DrainAlive c :=
  drainAlive_frame (s := s) (noPushOut_of_issued fun _ hq => hq) (fun _ => keepsDrain_of_eq rfl rfl rfl)
    (fun hagents => hagents.imp (fun hp => by simp [State.irqPumps, hpc] at hp) id) hs

/-- `TXIRQ(c)` pumps on until it finds the transmitter busy, makes it busy, or finds the buffer empty. -/
theorem txirq_drainAlive {s t : State} {c : ChNum} (h : MicroStep s t (.txirq c)) (hrun : s.running c true = true)
    (hs : s.DrainAlive c) : t.DrainAlive c := by
  cases h with
  | check _ hi => cases hi
  | txPump pc _ _ h =>
    rcases irqPump_next h with ⟨-, -, rfl⟩ | ⟨-, hbusy, rfl⟩ | ⟨-, hempty, rfl⟩ | ⟨-, -, -, rfl⟩ | ⟨-, rfl⟩
    · exact drainAlive_of_pumping ⟨hrun, .inr (.inl rfl)⟩
    · exact drainAlive_of_busy hbusy
    · exact drainAlive_of_empty hempty
    · exact drainAlive_of_pumping ⟨hrun, .inr (.inr rfl)⟩
    · exact drainAlive_of_busy (writeTxData_txe (s := s) (v := s.irqB) rfl)
  | leaveTx hpc _ h => subst h; exact leaveHandler_drainAlive hpc hs

theorem irqStep_drainAlive {s t : State} {c : ChNum} (h : s.irqStep = .next t) (hs : s.DrainAlive c) :
    t.DrainAlive c := by
  have hhost := irqStep_sameHost h
  obtain ⟨-, hcmd, -, -, hlog⟩ := id hhost
  obtain ⟨hin, -, h⟩ := irqStep_cases h
  cases hrun : s.running c true with
  | true => exact txirq_drainAlive (exec_microStep (txirq_of_running hrun ▸ h)) hrun hs
  | false =>
    obtain ⟨hout, -⟩ := handler_elsewhere h hin hrun
    obtain ⟨htxe, -⟩ := handler_elsewhere_transmitter h hin hrun
    obtain ⟨hpend, -⟩ := exec_keeps_environment h c
    refine drainAlive_frame (noPushOut_of_issued fun q hq => (issued_congr hlog hcmd q).trans hq)
      (fun _ => keepsDrain_of_eq hout htxe hpend) (fun hagents => ?_) hs
    rcases hagents with ⟨hr, -⟩ | henq
    · exact absurd (hrun.symm.trans hr) Bool.false_ne_true
    · exact .inr ((enqueuing_sameHost hhost c).trans henq)

/-! ### The arbiter, the UART and reset -/

/-- A grant of `TXIRQ(c)` trades the request for the handler; any other leaves `c`'s output side alone. -/
theorem grant_drainAlive {s : State} {r : IrqNum} {c : ChNum} (hidle : s.inHandler = false) (hs : s.DrainAlive c) :
    (s.enterHandler r).DrainAlive c := by
  by_cases hr : irqIsTx r = true ∧ irqCh r = c
  · obtain ⟨htx, hch⟩ := hr
    refine drainAlive_of_pumping ⟨(running_iff _ c).mpr ⟨enterHandler_inHandler s r, ?_, ?_⟩, .inl ?_⟩
    · rw [enterHandler_curIrq, hch]
    · rw [enterHandler_curIrq, htx]
    · rw [enterHandler_irqPc, firstIrqLabel, if_pos htx]
  · have hchan : (s.enterHandler r).chan c = s.chan c := by rw [chan_enterHandler, if_neg hr]
    have hhost : SameHost s (s.enterHandler r) := by simp [SameHost]
    obtain ⟨-, hcmd, -, -, hlog⟩ := id hhost
    refine drainAlive_frame (noPushOut_of_issued fun q hq => (issued_congr hlog hcmd q).trans hq)
      (fun _ => keepsDrain_of_eq (by rw [hchan]) (by rw [hchan]) (by rw [hchan])) (fun hagents => ?_) hs
    rcases hagents with hp | henq
    · exact absurd hp (irqPumps_of_stopped hidle)
    · exact .inr ((enqueuing_sameHost hhost c).trans henq)

/-- `TX_DONE` trades the busy transmitter for the request. -/
theorem chanStep_uart_keepsDrain {cap : Nat} {c : ChNum} {e : Event} {x y : Chan} (h : ChanStep cap c x e y)
    (he : (∃ c', e = .txDone c') ∨ ∃ c' b, e = .rxArrive c' b) : KeepsDrain x y := by
  cases h with
  | moved hagent => rcases he with ⟨c', rfl⟩ | ⟨c', b, rfl⟩ <;> simp at hagent
  | granted => simp at he
  | reset => simp at he
  | _ => simp [KeepsDrain]

theorem uart_drainAlive {s t : State} {e : Event} {c : ChNum} (h : s.eventStep e = .next t)
    (he : (∃ c', e = .txDone c') ∨ ∃ c' b, e = .rxArrive c' b) (hs : s.DrainAlive c) : t.DrainAlive c := by
  have hhost : SameHost s t := by
    rcases he with ⟨c', rfl⟩ | ⟨c', b, rfl⟩ <;> exact eventStep_sameHost h (by simp) (by simp)
  obtain ⟨-, hcmd, -, -, hlog⟩ := id hhost
  obtain ⟨hin, hcur, hpc, -⟩ := eventStep_sameHandler h he
  refine drainAlive_frame (noPushOut_of_issued fun q hq => (issued_congr hlog hcmd q).trans hq)
    (fun _ => chanStep_uart_keepsDrain (eventStep_chanStep h c) he) (fun hagents => ?_) hs
  rwa [State.irqPumps, State.running, hin, hcur, hpc, enqueuing_sameHost hhost]

theorem reset_drainAlive (s : State) (c : ChNum) : s.resetEvent.DrainAlive c := by
  obtain ⟨n, hF⟩ := ring_resetEvent s c .out
  exact drainAlive_of_empty (by rw [hF]; rfl)

theorem eventStep_drainAlive {s t : State} {e : Event} {c : ChNum} (h : s.eventStep e = .next t) (hinv : s.Inv)
    (hs : s.DrainAlive c) : t.DrainAlive c := by
  cases e with
  | host => exact hostStep_drainAlive h hinv hs
  | irq => exact irqStep_drainAlive h hs
  | grant r =>
    obtain ⟨hg, rfl⟩ := grant_next h
    obtain ⟨-, hidle, -⟩ := canGrant_spec hg
    exact grant_drainAlive hidle hs
  | txDone c' => exact uart_drainAlive h (.inl ⟨c', rfl⟩) hs
  | rxArrive c' b => exact uart_drainAlive h (.inr ⟨c', b, rfl⟩) hs
  | reset => obtain rfl := Host.Outcome.next.inj h; exact reset_drainAlive s c

/-- Settles O47: the four states that keep a drain alive hand it on to each other, an `ENQ_OUT` or a `TXIRQ` to the busy
transmitter, that to the request and the request to `TXIRQ`; a pump lets go only of an empty buffer. -/
theorem everyStepKeepsTheDrainAlive : Obligations.EveryStepKeepsTheDrainAlive := by
  intro s t c hinv hs h
  rcases step_nextEvent h with ⟨e, es, -, he⟩ | rfl
  · exact eventStep_drainAlive (s := { s with sched := es }) he hinv hs
  · exact hs

end Sys2Proof.Machine
end

/-! ## `TXIRQ`'s micro-steps as equations, and its run from its grant to its return (R170, R171, R217, R218) -/

section
namespace Sys2Proof.Machine

/-! ### The pump of a handler, each branch as an equation -/

theorem irqPump_ready {s : State} {c : ChNum} (h : (s.chan c).txe = true) :
    s.irqPump c .p1 = .next { s with irqT := true, irqPc := .p2 } := by
  simp [State.irqPump, State.pumpStep, State.readTxe, h]

theorem irqPump_notReady {s : State} {c : ChNum} (h : (s.chan c).txe = false) :
    s.irqPump c .p1 = .next { s with irqT := false, irqPc := .t4 } := by
  simp [State.irqPump, State.pumpStep, State.readTxe, h]

theorem irqPump_empty {s : State} {c : ChNum} (h : (s.ring c .out).occ = 0) :
    s.irqPump c .p2 = .next { s with irqPc := .t4 } := by
  simp [State.irqPump, State.pumpStep, popRing_empty h]

theorem irqPump_pops {s : State} {c : ChNum} (ho : (s.ring c .out).occ ≠ 0) (ht : (s.ring c .out).tail < s.cfg.cap) :
    s.irqPump c .p2 = .next { s.setRing c .out (Ring.popped s.cfg.cap (s.ring c .out)) with
      irqPc := .p3, irqB := (s.ring c .out).slot (s.ring c .out).tail } := by
  simp only [State.irqPump, State.pumpStep, popRing_held ho ht]

theorem irqPump_writes {s : State} {c : ChNum} (hready : (s.chan c).txe = true)
    (hover : (s.chan c).txOverrun = false) :
    s.irqPump c .p3 = .next { s.setChan c { s.chan c with
      txData := s.irqB, txe := false, txlog := (s.chan c).txlog ++ [s.irqB] } with irqPc := .t4 } := by
  simp only [State.irqPump, State.pumpStep, writeTxData_ready _ hready hover]
  rfl

theorem execTxirq_t4 {s : State} {c : ChNum} (hc : s.validCh c = true) (hpc : s.irqPc = .t4) :
    exec (.txirq c) s = .next s.leaveHandler := by
  simp only [exec, execTxirq, hpc, onChannel_valid _ hc]

/-- Settles O24: P1 to P3 are the pump's branches, each of whose returns goes to T4, the handler's return. -/
theorem txirqPumpsOneByte : Obligations.TxirqPumpsOneByte := by
  intro s c hch
  have hc : s.validCh c = true := (validCh_iff s c).mpr hch
  refine ⟨fun hpc hready => ?ready, fun hpc hbusy => ?busy, fun hpc hempty => ?empty, fun b hpc hheld htail hb => ?pops,
    fun hpc hready hover => ?writes, fun hpc => ⟨_, execTxirq_t4 hc hpc, rfl⟩⟩
  case ready => exact (execTxirq_at .p1 hc hpc).trans (irqPump_ready hready)
  case busy => exact (execTxirq_at .p1 hc hpc).trans (irqPump_notReady hbusy)
  case empty => exact (execTxirq_at .p2 hc hpc).trans (irqPump_empty hempty)
  case pops =>
    subst hb
    exact (execTxirq_at .p2 hc hpc).trans (irqPump_pops hheld.ne' htail)
  case writes => exact (execTxirq_at .p3 hc hpc).trans (irqPump_writes hready hover)

/-! ### The handler's entries -/

/-- The grant of a transmit request starts `TXIRQ(c)` at P1 and clears the request (R213, R217). -/
theorem txGrant_runs {s : State} {c : ChNum} {x : Chan} (horder : s.cfg.arbOrder = .any) (hie : s.ie = true)
    (hidle : s.inHandler = false) (hc : s.validCh c = true) (hx : s.chan c = x) (hrequest : x.txPending = true) :
    s.Runs [.grant (requestNumber c true)]
      { s.setChan c { x with txPending := false } with
        inHandler := true, curIrq := requestNumber c true, irqPc := .p1 } := by
  subst hx
  have hpending : s.pending (requestNumber c true) = true := by simp [State.pending, hc, hrequest]
  have hgrant := grant_runs (canGrant_of_pending horder hie hidle hpending)
  simpa [State.enterHandler, firstIrqLabel] using hgrant

section
variable {s : State} {c : ChNum} (hrun : s.running c true = true) (hc : s.validCh c = true)

include hrun hc

theorem txirq_runs {t : State} (h : ∀ es, exec (.txirq c) { s with sched := es } = .next { t with sched := es }) :
    s.Runs [.irq] t := by
  obtain ⟨hin, -⟩ := (running_iff s c).mp hrun
  exact irq_runs hin (txirq_of_running hrun) hc h

theorem txirq_runs_p1 (hpc : s.irqPc = .p1) (hready : (s.chan c).txe = true) :
    s.Runs [.irq] { s with irqT := true, irqPc := .p2 } :=
  txirq_runs hrun hc fun es =>
    (execTxirq_at (s := { s with sched := es }) .p1 hc hpc).trans (irqPump_ready hready)

theorem txirq_runs_p1_busy (hpc : s.irqPc = .p1) (hbusy : (s.chan c).txe = false) :
    s.Runs [.irq] { s with irqT := false, irqPc := .t4 } :=
  txirq_runs hrun hc fun es =>
    (execTxirq_at (s := { s with sched := es }) .p1 hc hpc).trans (irqPump_notReady hbusy)

theorem txirq_runs_p2 (hpc : s.irqPc = .p2) (ho : (s.ring c .out).occ ≠ 0) (ht : (s.ring c .out).tail < s.cfg.cap) :
    s.Runs [.irq] { s.setRing c .out (Ring.popped s.cfg.cap (s.ring c .out)) with
      irqPc := .p3, irqB := (s.ring c .out).slot (s.ring c .out).tail } :=
  txirq_runs hrun hc fun es =>
    (execTxirq_at (s := { s with sched := es }) .p2 hc hpc).trans (irqPump_pops ho ht)

theorem txirq_runs_p3 {x : Chan} (hpc : s.irqPc = .p3) (hx : s.chan c = x) (hready : x.txe = true)
    (hover : x.txOverrun = false) :
    s.Runs [.irq] { s.setChan c { x with
      txData := s.irqB, txe := false, txlog := x.txlog ++ [s.irqB] } with irqPc := .t4 } := by
  subst hx
  exact txirq_runs hrun hc fun es =>
    (execTxirq_at (s := { s with sched := es }) .p3 hc hpc).trans (irqPump_writes hready hover)

theorem txirq_runs_t4 (hpc : s.irqPc = .t4) : s.Runs [.irq] s.leaveHandler :=
  txirq_runs hrun hc fun es => execTxirq_t4 (s := { s with sched := es }) hc hpc

/-- A `TXIRQ` that finds the transmitter busy returns at once and touches no channel (R176). -/
theorem txirq_runs_stale (hpc : s.irqPc = .p1) (hbusy : (s.chan c).txe = false) : s.Runs [.irq, .irq] s.leaveHandler :=
  runs_cons (txirq_runs_p1_busy hrun hc hpc hbusy)
    (txirq_runs_t4 (s := { s with irqT := false, irqPc := .t4 }) hrun hc rfl)

/-- A `TXIRQ` that finds the transmitter ready and a byte held sends the oldest one and returns (R171). -/
theorem txirq_runs_through {x : Chan} (hpc : s.irqPc = .p1) (hx : s.chan c = x) (hready : x.txe = true)
    (hover : x.txOverrun = false) (ho : x.out.occ ≠ 0) (ht : x.out.tail < s.cfg.cap) :
    s.Runs [.irq, .irq, .irq, .irq] (s.setChan c (x.pumped s.cfg.cap x.out)).leaveHandler := by
  subst hx
  have hp2 := txirq_runs_p2 (s := { s with irqT := true, irqPc := .p2 }) hrun hc rfl ho ht
  have hp3 := txirq_runs_p3
    (s := { s.setRing c .out (Ring.popped s.cfg.cap (s.ring c .out)) with
      irqT := true, irqPc := .p3, irqB := (s.ring c .out).slot (s.ring c .out).tail })
    hrun hc rfl (chan_setRing_out s c _) hready hover
  have ht4 := txirq_runs_t4
    (s := { (s.setRing c .out (Ring.popped s.cfg.cap (s.ring c .out))).setChan c
        ((s.chan c).pumped s.cfg.cap (s.ring c .out)) with
      irqT := true, irqPc := .t4, irqB := (s.ring c .out).slot (s.ring c .out).tail }) hrun hc rfl
  rw [← setChan_setRing s c .out (Ring.popped s.cfg.cap (s.ring c .out))]
  exact runs_cons (txirq_runs_p1 hrun hc hpc hready) (runs_cons hp2 (runs_cons hp3 ht4))

end

/-! ### A stale request -/

/-- The grant of a stale request, and its `TXIRQ`: the handler returns on the channel with its request cleared. -/
theorem stale_runs {s : State} {c : ChNum} (horder : s.cfg.arbOrder = .any) (hie : s.ie = true)
    (hidle : s.inHandler = false) (hc : s.validCh c = true) (hrequest : (s.chan c).txPending = true)
    (hbusy : (s.chan c).txe = false) :
    s.Runs [.grant (requestNumber c true), .irq, .irq]
      (s.setChan c { s.chan c with txPending := false }).leaveHandler :=
  runs_cons (txGrant_runs horder hie hidle hc rfl hrequest)
    (txirq_runs_stale
      (s := { s.setChan c { s.chan c with txPending := false } with
        inHandler := true, curIrq := requestNumber c true, irqPc := .p1 })
      (by simp [State.running]) hc rfl ((congrArg Chan.txe (chan_setChan_same s c _)).trans hbusy))

/-- Where no handler runs a return writes back what the sequencer's labels hold at rest. -/
theorem leaveHandler_at_rest {s : State} (hidle : s.inHandler = false) (hpc : s.irqPc = .idle) :
    s.leaveHandler =
      { s with irqT := false, irqB := 0, curIrq := s.leaveHandler.curIrq, freeCtr := s.leaveHandler.freeCtr } := by
  simp only [State.leaveHandler, hidle, hpc]

/-- Settles O54: the run is a grant and a handler's return, which write back the sequencer's values at rest. -/
theorem staleRequestChangesNothingElse : Obligations.StaleRequestChangesNothingElse := by
  intro s c es horder hidle hpc hie hch hrequest hbusy hsched
  have hc : s.validCh c = true := (validCh_iff s c).mpr hch
  have hrest := leaveHandler_at_rest (s := s.setChan c { s.chan c with txPending := false }) hidle hpc
  exact ⟨_, run_of_runs (stale_runs horder hie hidle hc hrequest hbusy) hsched,
    congrArg (fun u : State => { u with sched := es }) hrest⟩

/-! ### The drain by interrupts -/

/-- Channel `c` is drained by interrupts: its transmitter is busy, and nothing holds back its requests' grants. -/
structure State.DrainsByIrq (s : State) (c : ChNum) : Prop where
  order : s.cfg.arbOrder = .any
  stopped : s.inHandler = false
  enabled : s.ie = true
  valid : s.validCh c = true
  busy : (s.chan c).txe = false
  sound : (s.chan c).txOverrun = false
  ring : Ring.Inv s.cfg.cap (s.ring c .out)

/-- The channel after a `TX_DONE` and a `TXIRQ` that took its request and pumped the oldest byte of its buffer. -/
def Chan.interrupted (cap : Nat) (x : Chan) : Chan := { x with txPending := false }.pumped cap x.out

/-- One round: the state after `TX_DONE`, grant and `TXIRQ` on channel `c`. -/
def State.interruptedOn (s : State) (c : ChNum) : State :=
  (s.setChan c ((s.chan c).interrupted s.cfg.cap)).leaveHandler

theorem chan_interruptedOn (s : State) (c : ChNum) :
    (s.interruptedOn c).chan c = (s.chan c).interrupted s.cfg.cap :=
  chan_setChan_same s c _

theorem ring_interruptedOn (s : State) (c : ChNum) :
    (s.interruptedOn c).ring c .out = Ring.popped s.cfg.cap (s.ring c .out) := by
  rw [State.ring, chan_interruptedOn]
  rfl

theorem interruptedOn_drainsByIrq {s : State} {c : ChNum} (h : s.DrainsByIrq c) (ho : (s.ring c .out).occ ≠ 0) :
    (s.interruptedOn c).DrainsByIrq c where
  order := h.order
  stopped := rfl
  enabled := h.enabled
  valid := h.valid
  busy := by rw [chan_interruptedOn]; rfl
  sound := by rw [chan_interruptedOn]; exact h.sound
  ring := by rw [ring_interruptedOn]; exact inv_popped h.ring ho

/-- The entries of one round of the drain. -/
def drainRound (c : ChNum) : List Event := [.txDone c, .grant (requestNumber c true), .irq, .irq, .irq, .irq]

theorem drainRound_runs {s : State} {c : ChNum} (h : s.DrainsByIrq c) (ho : (s.ring c .out).occ ≠ 0) :
    s.Runs (drainRound c) (s.interruptedOn c) := by
  obtain ⟨-, -, ht, -⟩ := h.ring
  have hgrant := txGrant_runs (s := s.setChan c { s.chan c with txe := true, txPending := true })
    h.order h.enabled h.stopped h.valid (chan_setChan_same s c _) rfl
  have hhandler := txirq_runs_through
    (s := { s.setChan c { s.chan c with txe := true, txPending := false } with
      inHandler := true, curIrq := requestNumber c true, irqPc := .p1 })
    (by simp [State.running]) h.valid rfl (chan_setChan_same s c _) rfl h.sound ho ht
  rw [setChan_setChan] at hgrant
  have hround := runs_cons (txDone_runs h.valid h.busy) (runs_cons hgrant hhandler)
  rw [State.interruptedOn, ← setChan_setChan s c { s.chan c with txe := true, txPending := false }]
  exact hround

/-- As many rounds as bytes are held send them all, in order, and leave HOST where it was. -/
theorem drainRounds_run {s : State} {c : ChNum} (k : Nat) (h : s.DrainsByIrq c) (hk : (s.ring c .out).occ = k) :
    ∃ t, s.Runs (List.replicate k (drainRound c)).flatten t ∧ t.DrainsByIrq c ∧ (t.ring c .out).occ = 0 ∧
      (t.chan c).txlog = (s.chan c).txlog ++ Ring.held s.cfg.cap (s.ring c .out) ∧ SameHost s t := by
  induction k generalizing s with
  | zero =>
    refine ⟨s, runs_nil s, h, hk, ?_, rfl, rfl, rfl, rfl, rfl⟩
    rw [(held_eq_nil_iff _ _).mpr hk, List.append_nil]
  | succ k ih =>
    have ho : (s.ring c .out).occ ≠ 0 := by omega
    have hring := ring_interruptedOn s c
    obtain ⟨t, hruns, hdrains, hempty, hlog, hhost⟩ := ih (interruptedOn_drainsByIrq h ho)
      (by rw [hring]; show (s.ring c .out).occ - 1 = k; omega)
    refine ⟨t, ?runs, hdrains, hempty, ?log, hhost⟩
    case runs =>
      rw [List.replicate_succ, List.flatten_cons]
      exact runs_append (drainRound_runs h ho) hruns
    case log =>
      obtain ⟨-, -, ht, -⟩ := h.ring
      have hsent : ((s.interruptedOn c).chan c).txlog =
          (s.chan c).txlog ++ [(s.ring c .out).slot (s.ring c .out).tail] := by rw [chan_interruptedOn]; rfl
      rw [hlog, hsent, hring, held_popped ho ht, List.append_assoc]
      rfl

/-- Settles O52: each round is a `TX_DONE`, the grant of its request, and a `TXIRQ` that finds the transmitter ready. -/
theorem interruptsDrainTheHeldBytes : Obligations.InterruptsDrainTheHeldBytes := by
  intro s ch k es hs horder hidle hie hch hk hbusy hover hsched
  obtain ⟨-, hrings, -⟩ := hs
  have hdrains : s.DrainsByIrq ch := ⟨horder, hidle, hie, (validCh_iff s ch).mpr hch, hbusy, hover, (hrings ch).1⟩
  obtain ⟨t, hruns, ht, hempty, hlog, hpc, hcmd, hI, hB, -⟩ := drainRounds_run k hdrains hk
  have hlen : (List.replicate k (drainRound ch)).flatten.length = 6 * k := by
    simp [drainRound, Nat.mul_comm]
  have hrun := run_of_runs (rest := es) hruns hsched
  rw [hlen] at hrun
  exact ⟨_, hrun, hempty, hlog, ht.sound, ht.stopped, ht.enabled, hpc, hcmd, hI, hB, rfl⟩

end Sys2Proof.Machine
end

/-! ## `PUMP` commands drain the held bytes, and the next one answers `Empty` (R170, R175) -/

section
namespace Sys2Proof.Machine

theorem execPump_s0 {s : State} {c : ChNum} (hc : s.validCh c = true) (hpc : s.hostPc = .s0) :
    exec (.pump c) s = .next { s with hostPc := .p1 } := by
  simp only [exec, execPump, hpc, State.checkChannel, hc, if_true]

/-! ### HOST's entries at the labels of `PUMP` -/

section
variable {s : State} {c : ChNum} (hfree : s.HostFree) (hc : s.validCh c = true)

include hfree hc

/-- S0: the command is taken and its channel checked (R170). -/
theorem pump_runs_s0 {ws : List Half} (hpc : s.hostPc = .idle) (hwords : s.words = encodeWords (.pump c) ++ ws) :
    s.Runs [.host] { s with words := ws, hostCmd := some (.pump c), hostPc := .p1 } :=
  host_runs_first hfree hpc (hwords ▸ decodeCommand_encodeWords ws rfl rfl) fun es =>
    execPump_s0 (s := State.accept { s with sched := es } _ ws) hc rfl

variable (hcmd : s.hostCmd = some (.pump c))

include hcmd

/-- At a label of the pump HOST's entry leads where the pump's micro-step does. -/
theorem pump_runs_at {t : State} (pc : PumpPc) (hpc : s.hostPc = pc.hostLabel)
    (h : ∀ es, State.hostPump { s with sched := es } (.pump c) c id pc = .next { t with sched := es }) :
    s.Runs [.host] t :=
  host_runs_next hfree (by cases pc <;> simp [hpc, PumpPc.hostLabel]) hcmd fun es =>
    (execPump_at (s := { s with sched := es }) pc hc hpc).trans (h es)

theorem pump_runs_p1 (hpc : s.hostPc = .p1) (hready : (s.chan c).txe = true) :
    s.Runs [.host] { s with hostT := true, hostPc := .p2 } :=
  pump_runs_at hfree hc hcmd .p1 hpc fun _ => hostPump_ready _ _ hready

theorem pump_runs_p2 (hpc : s.hostPc = .p2) (ho : (s.ring c .out).occ ≠ 0) (ht : (s.ring c .out).tail < s.cfg.cap) :
    s.Runs [.host] { s.setRing c .out (Ring.popped s.cfg.cap (s.ring c .out)) with
      hostPc := .p3, hostB := (s.ring c .out).slot (s.ring c .out).tail } :=
  pump_runs_at hfree hc hcmd .p2 hpc fun _ => hostPump_pops _ _ ho ht

theorem pump_runs_p2_empty (hpc : s.hostPc = .p2) (hempty : (s.ring c .out).occ = 0) :
    s.Runs [.host] (s.answered (.pump c) 0x0200) :=
  pump_runs_at hfree hc hcmd .p2 hpc fun _ => hostPump_empty _ _ hempty

theorem pump_runs_p3 {x : Chan} (hpc : s.hostPc = .p3) (hx : s.chan c = x) (hready : x.txe = true)
    (hover : x.txOverrun = false) :
    s.Runs [.host] ((s.setChan c { x with
      txData := s.hostB, txe := false, txlog := x.txlog ++ [s.hostB] }).answered (.pump c) 0x0000) := by
  subst hx
  refine pump_runs_at hfree hc hcmd .p3 hpc fun es => ?_
  rw [hostPump_writes, writeTxData_ready (s := { s with sched := es }) s.hostB hready hover]
  rfl

end

/-! ### The whole command -/

/-- `PUMP c` has been taken from HOST's words, which are `ws` from there on, and has sent the oldest byte of `c`'s
output buffer. -/
def State.pumpedOn (s : State) (c : ChNum) (ws : List Half) : State :=
  (State.setChan { s with words := ws } c ((s.chan c).pumped s.cfg.cap (s.ring c .out))).answered (.pump c) 0x0000

theorem chan_pumpedOn (s : State) (c : ChNum) (ws : List Half) :
    (s.pumpedOn c ws).chan c = (s.chan c).pumped s.cfg.cap (s.ring c .out) :=
  chan_setChan_same s c _

section
variable {s : State} {c : ChNum} {ws : List Half} (hfree : s.HostFree) (hc : s.validCh c = true)
  (hpc : s.hostPc = .idle) (hwords : s.words = encodeWords (.pump c) ++ ws) (hready : (s.chan c).txe = true)

include hfree hc hpc hwords hready

/-- A `PUMP` that finds the transmitter ready and a byte held sends the oldest one and answers `None`. -/
theorem pump_runs_through (ho : (s.ring c .out).occ ≠ 0) (ht : (s.ring c .out).tail < s.cfg.cap)
    (hover : (s.chan c).txOverrun = false) :
    s.Runs [.host, .host, .host, .host] (s.pumpedOn c ws) := by
  have hp1 := pump_runs_p1 (s := { s with words := ws, hostCmd := some (.pump c), hostPc := .p1 })
    hfree hc rfl rfl hready
  have hp2 := pump_runs_p2 (s := { s with words := ws, hostCmd := some (.pump c), hostT := true, hostPc := .p2 })
    hfree hc rfl rfl ho ht
  have hp3 := pump_runs_p3
    (s := { s.setRing c .out (Ring.popped s.cfg.cap (s.ring c .out)) with
      words := ws, hostCmd := some (.pump c), hostT := true, hostPc := .p3,
      hostB := (s.ring c .out).slot (s.ring c .out).tail })
    hfree hc rfl rfl (chan_setRing_out s c _) hready hover
  have hchan := setChan_setRing { s with words := ws } c .out (Ring.popped s.cfg.cap (s.ring c .out))
    ((s.chan c).pumped s.cfg.cap (s.ring c .out))
  rw [State.pumpedOn, ← hchan]
  exact runs_cons (pump_runs_s0 hfree hc hpc hwords) (runs_cons hp1 (runs_cons hp2 hp3))

/-- A `PUMP` that finds the transmitter ready and no byte held answers `Empty`. -/
theorem pump_runs_empty (hempty : (s.ring c .out).occ = 0) :
    s.Runs [.host, .host, .host] (State.answered { s with words := ws } (.pump c) 0x0200) := by
  have hp1 := pump_runs_p1 (s := { s with words := ws, hostCmd := some (.pump c), hostPc := .p1 })
    hfree hc rfl rfl hready
  have hp2 := pump_runs_p2_empty (s := { s with words := ws, hostCmd := some (.pump c), hostT := true, hostPc := .p2 })
    hfree hc rfl rfl hempty
  exact runs_cons (pump_runs_s0 hfree hc hpc hwords) (runs_cons hp1 hp2)

end

/-! ### The drain by commands -/

/-- HOST is idle and free to move, and channel `c` is ready to be drained by its `PUMP` commands. -/
structure State.DrainsByPump (s : State) (c : ChNum) : Prop where
  free : s.HostFree
  idle : s.hostPc = .idle
  valid : s.validCh c = true
  ready : (s.chan c).txe = true
  sound : (s.chan c).txOverrun = false
  ring : Ring.Inv s.cfg.cap (s.ring c .out)

/-- The channel after a pump of the oldest byte of its buffer and the `TX_DONE` of that byte. -/
def Chan.flushed (cap : Nat) (x : Chan) : Chan := { x.pumped cap x.out with txe := true, txPending := true }

/-- One round: the state after a `PUMP` command on channel `c` and the `TX_DONE` of its byte, with `ws` HOST's words
from there on. -/
def State.flushedOn (s : State) (c : ChNum) (ws : List Half) : State :=
  (State.setChan { s with words := ws } c ((s.chan c).flushed s.cfg.cap)).answered (.pump c) 0x0000

theorem chan_flushedOn (s : State) (c : ChNum) (ws : List Half) :
    (s.flushedOn c ws).chan c = (s.chan c).flushed s.cfg.cap :=
  chan_setChan_same s c _

theorem ring_flushedOn (s : State) (c : ChNum) (ws : List Half) :
    (s.flushedOn c ws).ring c .out = Ring.popped s.cfg.cap (s.ring c .out) := by
  rw [State.ring, chan_flushedOn]
  rfl

theorem flushedOn_drainsByPump {s : State} {c : ChNum} (ws : List Half) (h : s.DrainsByPump c)
    (ho : (s.ring c .out).occ ≠ 0) : (s.flushedOn c ws).DrainsByPump c where
  free := h.free
  idle := rfl
  valid := h.valid
  ready := by rw [chan_flushedOn]; rfl
  sound := by rw [chan_flushedOn]; exact h.sound
  ring := by rw [ring_flushedOn]; exact inv_popped h.ring ho

/-- The entries of one round of the drain. -/
def pumpRound (c : ChNum) : List Event := [.host, .host, .host, .host, .txDone c]

theorem setChan_answered (s : State) (i : Instr) (r : Half) (c : ChNum) (x : Chan) :
    (s.answered i r).setChan c x = (s.setChan c x).answered i r := rfl

theorem pumpRound_runs {s : State} {c : ChNum} {ws : List Half} (h : s.DrainsByPump c) (ho : (s.ring c .out).occ ≠ 0)
    (hwords : s.words = encodeWords (.pump c) ++ ws) : s.Runs (pumpRound c) (s.flushedOn c ws) := by
  obtain ⟨-, -, ht, -⟩ := h.ring
  have hcommand := pump_runs_through h.free h.valid h.idle hwords h.ready ho ht h.sound
  have hdone := txDone_runs (s := s.pumpedOn c ws) h.valid (by rw [chan_pumpedOn]; rfl)
  rw [chan_pumpedOn, State.pumpedOn, setChan_answered, setChan_setChan] at hdone
  exact runs_append hcommand hdone

/-- As many rounds as bytes are held send them all, in order, and answer `None` each time. -/
theorem pumpRounds_run {s : State} {c : ChNum} {ws : List Half} (k : Nat) (h : s.DrainsByPump c)
    (hk : (s.ring c .out).occ = k)
    (hwords : s.words = (List.replicate k (encodeWords (.pump c))).flatten ++ ws) :
    ∃ t, s.Runs (List.replicate k (pumpRound c)).flatten t ∧ t.DrainsByPump c ∧ (t.ring c .out).occ = 0 ∧
      (t.chan c).txlog = (s.chan c).txlog ++ Ring.held s.cfg.cap (s.ring c .out) ∧
      t.hostlog = s.hostlog ++ List.replicate k (.pump c, 0x0000) ∧ t.words = ws := by
  induction k generalizing s with
  | zero =>
    refine ⟨s, runs_nil s, h, hk, ?_, (List.append_nil _).symm, hwords⟩
    rw [(held_eq_nil_iff _ _).mpr hk, List.append_nil]
  | succ k ih =>
    have ho : (s.ring c .out).occ ≠ 0 := by omega
    rw [List.replicate_succ, List.flatten_cons, List.append_assoc] at hwords
    have hround := pumpRound_runs h ho hwords
    have hring := ring_flushedOn s c ((List.replicate k (encodeWords (.pump c))).flatten ++ ws)
    obtain ⟨t, hruns, hdrains, hempty, hlog, hhost, hrest⟩ := ih (flushedOn_drainsByPump _ h ho)
      (by rw [hring]; show (s.ring c .out).occ - 1 = k; omega) rfl
    refine ⟨t, ?runs, hdrains, hempty, ?log, ?host, hrest⟩
    case runs =>
      rw [List.replicate_succ, List.flatten_cons]
      exact runs_append hround hruns
    case log =>
      obtain ⟨-, -, ht, -⟩ := h.ring
      rw [hlog, hring, chan_flushedOn, held_popped ho ht]
      exact List.append_assoc _ _ _
    case host =>
      rw [hhost, List.replicate_succ]
      exact List.append_assoc _ _ _

/-- Settles O51: each round is a `PUMP` on a ready transmitter and a held byte, and the last `PUMP` finds none. -/
theorem pumpDrainsExactlyTheHeldBytes : Obligations.PumpDrainsExactlyTheHeldBytes := by
  intro s ch k rest es hs hpc hidle hie hfault hch hk hready hover hwords hsched
  obtain ⟨-, hrings, -⟩ := hs
  have hdrains : s.DrainsByPump ch :=
    ⟨⟨hidle, hfault, .inr hie⟩, hpc, (validCh_iff s ch).mpr hch, hready, hover, (hrings ch).1⟩
  rw [List.replicate_succ', List.flatten_append, List.flatten_singleton, List.append_assoc] at hwords
  obtain ⟨t, hruns, ht, hempty, hlog, hhost, hrest⟩ := pumpRounds_run k hdrains hk hwords
  have hlast := pump_runs_empty ht.free ht.valid ht.idle hrest ht.ready hempty
  have hrun := run_of_runs (rest := es) (runs_append hruns hlast) hsched
  have hlen : ((List.replicate k (pumpRound ch)).flatten ++ [Event.host, .host, .host]).length = 5 * k + 3 := by
    simp [pumpRound, Nat.mul_comm]
  rw [hlen] at hrun
  exact ⟨_, hrun, hempty, ht.ready, hlog, congrArg (· ++ [(Instr.pump ch, (0x0200 : Half))]) hhost, rfl, rfl⟩

end Sys2Proof.Machine
end

/-! ## From P1 to P3 of HOST's pump no `TXIRQ` comes in (R177, R213, R246; assumption log 29) -/

section
namespace Sys2Proof.Machine

/-! ### HOST's step into P2 or P3 of its pump -/

/-- Which micro-step leads HOST to P2 or P3 of its pump on `c`, and from where: the flag is ready after P1 and no one
has touched `ie` or the request. -/
def ArmsAt (s t : State) (c : ChNum) : Prop :=
  s.pumpsOn c = true ∧ (s.hostPc = .p1 ∧ (s.chan c).txe = true ∨ s.hostPc = .p2) ∧
    (t.chan c).txe = (s.chan c).txe ∧ (t.chan c).txPending = (s.chan c).txPending ∧ t.ie = s.ie

/-- A pump of HOST goes on from P1 with the flag read as 1, and from P2 with a byte popped. -/
theorem hostPump_armsAt {s t : State} {i : Instr} {c : ChNum} {ret : ErrVal → ErrVal} {pc : PumpPc}
    (h : s.hostPump i c ret pc = .next t) (hpc : s.hostPc = pc.hostLabel) (hon : s.pumpsOn c = true)
    (hgoes : t.hostPc ≠ .idle) : ArmsAt s t c := by
  rcases hostPump_next h with ⟨rfl, hready, rfl⟩ | ⟨-, -, rfl⟩ | ⟨-, -, rfl⟩ | ⟨rfl, -, -, ht⟩ | ⟨-, rfl⟩
  · exact ⟨hon, .inl ⟨hpc, hready⟩, rfl, rfl, rfl⟩
  · exact absurd rfl hgoes
  · exact absurd rfl hgoes
  · have hchan : t.chan c = { s.chan c with out := Ring.popped s.cfg.cap (s.ring c .out) } := by
      rw [ht]; exact chan_setRing_out s c _
    exact ⟨hon, .inr hpc, by rw [hchan], by rw [hchan], by rw [ht]; rfl⟩
  · exact absurd rfl hgoes

/-- Only P1 and P2 of the pump lead a command to P2 or P3. -/
theorem microStep_armsAt {s t : State} {i : Instr} {c : ChNum} (h : MicroStep s t i) (hcmd : s.hostCmd = some i)
    (hon : s.pumpsOn c = true) (ht : t.hostPc = .p2 ∨ t.hostPc = .p3) : ArmsAt s t c := by
  have hgoes : t.hostPc ≠ .idle := by rcases ht with h | h <;> simp [h]
  have hcheck : ∀ i : Instr, s.checkChannel i c (afterCheck i) = .next t → ¬ (t.hostPc = .p2 ∨ t.hostPc = .p3) := by
    intro i h
    rcases checkChannel_cases s i c (afterCheck i) with ⟨-, hn⟩ | ⟨-, hn⟩ <;>
      obtain rfl := Host.Outcome.next.inj (hn.symm.trans h)
    · cases i <;> simp [afterCheck]
    · simp
  rcases (pumpsOn_iff hcmd).mp hon with ⟨p, rfl⟩ | rfl
  · cases h with
    | check hc _ _ h => cases hc; exact absurd ht (hcheck _ h)
    | preCheck _ _ h =>
      rcases preCheck_next h with ⟨-, rfl⟩ | ⟨-, rfl⟩
      · simp at ht
      · cases p <;> simp at ht
    | fill _ _ h =>
      obtain ⟨v, -, ⟨-, rfl⟩ | ⟨-, -, rfl⟩⟩ := fillStep_next h
      · simp at ht
      · dsimp only at ht
        split at ht <;> simp at ht
    | armCheck _ _ h => rcases armCheck_next h with ⟨-, rfl⟩ | ⟨-, rfl⟩ <;> simp at ht
    | enqOutPump pc hpc _ h => exact hostPump_armsAt h hpc hon hgoes
  · cases h with
    | check hc _ _ h => cases hc; exact absurd ht (hcheck _ h)
    | pump pc hpc _ h => exact hostPump_armsAt h hpc hon hgoes

theorem command_armsAt {s t : State} {i : Instr} {c : ChNum} (h : exec i s = .next t) (hi : i.isCommand = true)
    (hcmd : s.hostCmd = some i) (harmed : t.hostArmed c = true) : ArmsAt s t c := by
  obtain ⟨hpc, hon⟩ := (hostArmed_iff t c).mp harmed
  have hon' : s.pumpsOn c = true := by
    cases exec_commandShape h hi with
    | answers => simp at hpc
    | goesOn => exact hon
  exact microStep_armsAt (exec_microStep h) hcmd hon' hpc

theorem hostStep_armsAt {s t : State} {c : ChNum} (h : s.hostStep = .next t) (hs : s.Inv)
    (harmed : t.hostArmed c = true) : ArmsAt s t c := by
  obtain ⟨-, -, hhost, -⟩ := (inv_iff s).mp hs
  obtain ⟨-, ⟨hpc, why, rest, -, rfl⟩ | ⟨-, i, rest, hdec, h⟩ | ⟨-, i, hcmd, h⟩⟩ := hostStep_cases h
  · have hidle : (s.illegalCommand rest).hostArmed c = false := unarmed_of_pc c (by simp [hpc]) (by simp [hpc])
    exact absurd (hidle.symm.trans harmed) Bool.false_ne_true
  · obtain ⟨hi, -⟩ := decodeCommand_sound hdec
    obtain ⟨-, hpc, -⟩ := command_armsAt h hi rfl harmed
    rw [accept_hostPc] at hpc
    cases i <;> simp [firstLabel] at hpc
  · obtain ⟨hl, -⟩ := (hostSeqOk_some hcmd).mp hhost
    exact command_armsAt h (hasHostLabel_isCommand hl) hcmd harmed

/-! ### No enabled request at the pump's start -/

/-- At P1 of HOST's pump on `c`, `TXIRQ(c)` cannot be granted. -/
def State.StartsQuiet (s : State) (c : ChNum) : Prop :=
  s.hostPc = .p1 → s.pumpsOn c = true → s.ie = true → (s.chan c).txPending = false

theorem mem_requestNumbers (r : IrqNum) : r ∈ requestNumbers := by
  refine List.mem_map.mpr ⟨r.toNat, List.mem_range.mpr r.isLt, ?_⟩
  simp

theorem pending_of_not_grantWaiting {s : State} (h : s.grantWaiting = false) (hie : s.ie = true)
    (hidle : s.inHandler = false) (r : IrqNum) : s.pending r = false := by
  have hnone : s.lowestPending = none := by simpa [State.grantWaiting, hie, hidle] using h
  exact Bool.eq_false_of_not_eq_true (List.find?_eq_none.mp hnone r (mem_requestNumbers r))

/-- Under `eager` HOST has no step while a grant waits, that of P1 included (R213). -/
theorem startsQuiet_of_eager {s : State} {c : ChNum} (hpolicy : s.cfg.grantPolicy = .eager)
    (hen : s.hostEnabled = true) (hs : s.Inv) : s.StartsQuiet c := by
  intro hpc hon hie
  obtain ⟨-, -, hhost, -⟩ := (inv_iff s).mp hs
  have hwaiting : s.grantWaiting = false := by
    refine Bool.eq_false_of_not_eq_true fun hw => ?_
    simp [State.hostEnabled, hpolicy, hw] at hen
  have hpending := pending_of_not_grantWaiting hwaiting hie (hostEnabled_idle hen) (requestNumber c true)
  obtain ⟨i, hcmd⟩ := hostCmd_of_busy hhost (by simp [hpc])
  obtain ⟨-, hch, -⟩ := (hostSeqOk_some hcmd).mp hhost
  have hchan : i.chan? = some c := by rcases (pumpsOn_iff hcmd).mp hon with ⟨p, rfl⟩ | rfl <;> rfl
  simpa [State.pending, hch (by simp [hpc]) c hchan] using hpending

/-! ### Every event -/

theorem hostStep_quietPump {s t : State} {c : ChNum} (h : s.hostStep = .next t) (hs : s.Inv) (hquiet : s.QuietPump c)
    (hstart : s.StartsQuiet c) : t.QuietPump c := by
  intro harmed
  obtain ⟨hon, hpc, htxe, hpend, hie⟩ := hostStep_armsAt h hs harmed
  rw [htxe, hpend, hie]
  have hstopped := running_of_stopped (c := c) (tx := true) (hostStep_stopped h hs)
  rcases hpc with ⟨hpc, hready⟩ | hpc
  · exact ⟨hready, hstart hpc hon, hstopped⟩
  · obtain ⟨hready, hrequest, -⟩ := hquiet ((hostArmed_iff s c).mpr ⟨.inl hpc, hon⟩)
    exact ⟨hready, hrequest, hstopped⟩

theorem irqStep_quietPump {s t : State} {c : ChNum} (h : s.irqStep = .next t) (hquiet : s.QuietPump c) :
    t.QuietPump c := by
  intro harmed
  obtain ⟨hready, hrequest, hrun⟩ := hquiet ((hostArmed_sameHost (irqStep_sameHost h) c).symm.trans harmed)
  have hie := irqStep_ie h
  obtain ⟨hin, -, h⟩ := irqStep_cases h
  obtain ⟨htxe, -⟩ := handler_elsewhere_transmitter h hin hrun
  obtain ⟨hpend, -⟩ := exec_keeps_environment h c
  rw [htxe, hpend, hie]
  exact ⟨hready, hrequest, handlerShape_not_running (exec_handlerShape h) hrun⟩

/-- A ready transmitter has no byte whose end could raise its request. -/
theorem chanStep_ready_quiet {cap : Nat} {c : ChNum} {e : Event} {x y : Chan} (h : ChanStep cap c x e y)
    (hhost : e ≠ .host) (hirq : e ≠ .irq) (hreset : e ≠ .reset) (hready : x.txe = true) :
    y.txe = true ∧ (x.txPending = false → y.txPending = false) := by
  cases h with
  | moved hagent => exact absurd hagent (not_or.mpr ⟨hhost, hirq⟩)
  | done hbusy => simp [hbusy] at hready
  | reset => exact absurd rfl hreset
  | _ => simp [hready]

theorem quietPump_refuses_grant {s : State} {c : ChNum} (hquiet : s.QuietPump c) (harmed : s.hostArmed c = true) :
    s.eventStep (.grant (requestNumber c true)) = .refused .notEnabled := by
  obtain ⟨-, hrequest, -⟩ := hquiet harmed
  refine grant_disabled (Bool.eq_false_of_not_eq_true fun hgrant => ?_)
  obtain ⟨hie, -, hpending⟩ := canGrant_spec hgrant
  simp [State.pending, hrequest hie] at hpending

theorem quietPump_of_no_agent {s t : State} {e : Event} {c : ChNum} (h : s.eventStep e = .next t) (hhost : e ≠ .host)
    (hirq : e ≠ .irq) (hreset : e ≠ .reset) (hquiet : s.QuietPump c) : t.QuietPump c := by
  intro harmed
  have hs : s.hostArmed c = true := (hostArmed_sameHost (eventStep_sameHost h hhost hreset) c).symm.trans harmed
  obtain ⟨hready, hrequest, hrun⟩ := hquiet hs
  obtain ⟨htxe, hpend⟩ := chanStep_ready_quiet (eventStep_chanStep h c) hhost hirq hreset hready
  have hie : t.ie = s.ie := by
    by_contra hne
    rcases onlyInterruptControlChangesIe s t e h hne with he | ⟨he, -⟩
    · exact hreset he
    · exact hhost he
  refine ⟨htxe, fun ht => hpend (hrequest (hie.symm.trans ht)), Bool.eq_false_of_not_eq_true fun ht => ?_⟩
  obtain rfl := eventStep_starts_txirq h hhost hirq hreset hrun ht
  rw [quietPump_refuses_grant hquiet hs] at h
  cases h

theorem eventStep_quietPump {s t : State} {e : Event} {c : ChNum} (h : s.eventStep e = .next t) (hs : s.Inv)
    (hquiet : s.QuietPump c) (hstart : e = .host → s.StartsQuiet c) : t.QuietPump c := by
  by_cases hhost : e = .host
  · subst hhost; exact hostStep_quietPump h hs hquiet (hstart rfl)
  · by_cases hirq : e = .irq
    · subst hirq; exact irqStep_quietPump h hquiet
    · by_cases hreset : e = .reset
      · subst hreset
        obtain rfl := Host.Outcome.next.inj h
        exact quietPump_of_unarmed rfl
      · exact quietPump_of_no_agent h hhost hirq hreset hquiet

/-- Settles O60: either condition leaves no enabled request at P1, and from there to P3 the transmitter stays ready, so
no `TX_DONE` can raise one. -/
theorem eagerOrNoRequestKeepsPumpsUndisturbed : Obligations.EagerOrNoRequestKeepsPumpsUndisturbed := by
  refine ⟨fun s t c hs hquiet hor h => ?_, fun s c => quietPump_refuses_grant⟩
  rcases step_nextEvent h with ⟨e, es, hnext, he⟩ | rfl
  · refine eventStep_quietPump (s := { s with sched := es }) he hs hquiet ?_
    rintro rfl
    rcases hor with hpolicy | hstart
    · obtain ⟨hen, -⟩ := hostStep_cases he
      exact startsQuiet_of_eager (s := s) hpolicy hen hs
    · intro hpc hon hie
      have hstarts : s.startsPump c = true := by
        simp [State.startsPump, hnext, show s.hostPc = .p1 from hpc, show s.pumpsOn c = true from hon]
      exact (hstart hstarts).resolve_right fun hno => Bool.false_ne_true (hno.symm.trans hie)
  · exact hquiet

end Sys2Proof.Machine
end

/-! ## The derived output state, and what drains a buffer with `ie = 0` (R174, R250; assumption log 21) -/

section
namespace Sys2Proof.Machine

/-! ### Reading the output state -/

theorem armingOf_enqOut {s : State} {c : ChNum} {p : List Byte} (hcmd : s.hostCmd = some (.enqOut c p)) :
    s.armingOf c = true ↔ s.hostPc = .p1 ∨ s.hostPc = .p2 ∨ s.hostPc = .p3 := by
  simp [State.armingOf, hcmd, or_assoc]

theorem armingOf_none {s : State} {c : ChNum} (hcmd : s.hostCmd = none) : s.armingOf c = false := by
  rw [State.armingOf, hcmd]

theorem armingOf_sameHost {s t : State} (h : SameHost s t) (c : ChNum) : t.armingOf c = s.armingOf c := by
  obtain ⟨hpc, hcmd, -⟩ := h
  rw [State.armingOf, State.armingOf, hcmd, hpc]

theorem outState_arming {s : State} {c : ChNum} (h : s.armingOf c = true) : s.outState c = .arming :=
  if_pos h

theorem outState_of_not_arming {s : State} {c : ChNum} (h : s.armingOf c = false) :
    s.outState c = if s.drainingOf c then .draining else .idle := by
  simp [State.outState, h]

theorem drainingOf_busy {s : State} {c : ChNum} (h : (s.chan c).txe = false) : s.drainingOf c = true := by
  simp [State.drainingOf, h]

theorem drainingOf_running {s : State} {c : ChNum} (h : s.running c true = true) : s.drainingOf c = true := by
  simp [State.drainingOf, h]

theorem drainingOf_ready {s : State} {c : ChNum} (h : (s.chan c).txe = true) :
    s.drainingOf c = (s.running c true || ((s.chan c).txPending && s.ie)) := by
  simp [State.drainingOf, h]

theorem outState_busy {s : State} {c : ChNum} (h : s.armingOf c = false) (hbusy : (s.chan c).txe = false) :
    s.outState c = .draining := by
  rw [outState_of_not_arming h, drainingOf_busy hbusy, if_pos rfl]

theorem outState_idle_iff (s : State) (c : ChNum) :
    s.outState c = .idle ↔ s.armingOf c = false ∧ s.drainingOf c = false := by
  unfold State.outState
  cases s.armingOf c <;> cases s.drainingOf c <;> simp

/-! ### The moves of R174 -/

/-- Past its S0 an `ENQ_OUT` with a next state acts on a channel of the core. -/
theorem validCh_of_execEnqOut {s t : State} {c : ChNum} {p : List Byte} (hidle : s.hostPc ≠ .idle)
    (hs0 : s.hostPc ≠ .s0) (h : exec (.enqOut c p) s = .next t) : s.validCh c = true := by
  by_contra hc
  rw [validCh_iff, Nat.not_lt] at hc
  rw [exec_absent_channel rfl rfl (by simpa [hasHostLabel] using hidle) hs0 hc] at h
  cases h

/-- S3 that reads 1 goes on to the pump. -/
theorem s3_arms {s t : State} {c : ChNum} {p : List Byte} (hpc : s.hostPc = .s3)
    (hcmd : s.hostCmd = some (.enqOut c p)) (hready : (s.chan c).txe = true) (h : exec (.enqOut c p) s = .next t) :
    t.outState c = .arming := by
  have hc := validCh_of_execEnqOut (by simp [hpc]) (by simp [hpc]) h
  rw [execEnqOut_s3 p hc hpc, armCheck_idle p hready] at h
  obtain rfl := Host.Outcome.next.inj h
  exact outState_arming ((armingOf_enqOut (s := { s with hostT := true, hostPc := .p1 }) hcmd).mpr (.inl rfl))

/-- P3 writes the transmitter and ends the command. -/
theorem p3_starts_drain {s t : State} {c : ChNum} {p : List Byte} (hpc : s.hostPc = .p3)
    (hcmd : s.hostCmd = some (.enqOut c p)) (h : exec (.enqOut c p) s = .next t) :
    s.outState c = .arming ∧ t.outState c = .draining := by
  have hc := validCh_of_execEnqOut (by simp [hpc]) (by simp [hpc]) h
  rw [execEnqOut_at p .p3 hc hpc, hostPump_writes] at h
  obtain rfl := Host.Outcome.next.inj h
  exact ⟨outState_arming ((armingOf_enqOut hcmd).mpr (.inr (.inr hpc))),
    outState_busy (armingOf_none rfl) (writeTxData_txe (s := s) (v := s.hostB) rfl)⟩

/-- `TX_DONE` turns the byte in flight into a request, which waits for a grant only while `ie = 1`. -/
theorem txDone_moves {s t : State} {c : ChNum} (harming : s.armingOf c = false)
    (h : s.eventStep (.txDone c) = .next t) :
    s.outState c = .draining ∧ t.ring c .out = s.ring c .out ∧
      t.outState c = if s.ie || s.running c true then .draining else .idle := by
  have harming' := (armingOf_sameHost (eventStep_sameHost h (by simp) (by simp)) c).trans harming
  obtain ⟨-, hbusy, rfl⟩ := txDone_next h
  have hchan := chan_setChan_same s c { s.chan c with txe := true, txPending := true }
  refine ⟨outState_busy harming hbusy, by rw [State.ring, hchan]; rfl, ?_⟩
  rw [outState_of_not_arming harming', drainingOf_ready (by rw [hchan]), hchan, Bool.true_and, Bool.or_comm]
  rfl

/-- A `TXIRQ` that finds the buffer empty returns and leaves nothing of the drain. -/
theorem txirq_ends_drain {s t u : State} {c : ChNum} (harming : s.armingOf c = false) (hin : s.inHandler = true)
    (hcur : s.curIrq = requestNumber c true) (hpc : s.irqPc = .p2) (hempty : (s.ring c .out).occ = 0)
    (hready : (s.chan c).txe = true) (hrequest : (s.chan c).txPending = false) (h : s.eventStep .irq = .next t)
    (h' : t.eventStep .irq = .next u) : s.outState c = .draining ∧ u.outState c = .idle := by
  have hrun : s.running c true = true := by simp [State.running, hin, hcur]
  have hu : u = ({ s with irqPc := .t4 } : State).leaveHandler := by
    obtain ⟨-, hwf, h⟩ := irqStep_cases h
    rw [txirq_of_running hrun] at h hwf
    have hc : s.validCh c = true := hwf
    rw [execTxirq_at .p2 hc hpc, irqPump_empty hempty] at h
    obtain rfl := Host.Outcome.next.inj h
    obtain ⟨-, -, h'⟩ := irqStep_cases h'
    rw [txirq_of_running (s := { s with irqPc := .t4 }) hrun,
      execTxirq_t4 (s := { s with irqPc := .t4 }) hc rfl] at h'
    exact (Host.Outcome.next.inj h').symm
  refine ⟨?_, (outState_idle_iff u c).mpr ⟨?_, ?_⟩⟩
  · rw [outState_of_not_arming harming, drainingOf_running hrun, if_pos rfl]
  · rw [hu]; exact harming
  · have hchan : u.chan c = s.chan c := by rw [hu]; rfl
    rw [drainingOf_ready (by rw [hchan]; exact hready), running_of_stopped (by rw [hu]; rfl), hchan, hrequest]
    rfl

/-! ### What takes a byte out of an output buffer -/

theorem chanMove_out_occ_falls {cap : Nat} {i : Instr} {x y : Chan} (h : ChanMove cap i x y)
    (hlt : (y.ring .out).occ < (x.ring .out).occ) : popsFrom i .out = true := by
  cases h with
  | pushed d v _ _ =>
    cases d with
    | out => exact absurd hlt (by show ¬ x.out.occ + 1 < x.out.occ; omega)
    | inp => exact absurd hlt (lt_irrefl _)
  | popped d hpop _ =>
    cases d with
    | out => exact hpop
    | inp => exact absurd hlt (lt_irrefl _)
  | _ => exact absurd hlt (lt_irrefl _)

/-- The commands that pop from output buffers. -/
theorem popsFrom_out_command {i : Instr} {c : ChNum} (h : popsFrom i .out = true) (hi : i.isCommand = true)
    (hc : i.chan? = some c) : i = .pop .out c ∨ (∃ p, i = .enqOut c p) ∨ i = .pump c := by
  cases i with
  | pop d ch => cases hc; exact .inl (by rw [eq_of_beq h])
  | enqOut ch p => cases hc; exact .inr (.inl ⟨p, rfl⟩)
  | pump ch => cases hc; exact .inr (.inr rfl)
  | txirq ch => cases hi
  | _ => cases h

theorem occ_of_chans {s t : State} (h : t.chans = s.chans) (c : ChNum) :
    ¬ (t.ring c .out).occ < (s.ring c .out).occ := by
  rw [ring_congr h]
  exact lt_irrefl _

theorem writeTxData_ring (s : State) (c : ChNum) (v : Byte) : (s.writeTxData c v).ring c .out = s.ring c .out := by
  rcases writeTxData_cases s c v with ⟨-, -, hw⟩ | ⟨-, hw⟩ <;> rw [hw, State.ring]
  · rw [chan_setChan_same]; rfl
  · rw [chan_txFree, if_pos rfl]; rfl

theorem hostPump_occ_falls {s t : State} {i : Instr} {c : ChNum} {ret : ErrVal → ErrVal} {pc : PumpPc}
    (h : s.hostPump i c ret pc = .next t) (hlt : (t.ring c .out).occ < (s.ring c .out).occ) : pc = .p2 := by
  rcases hostPump_next h with ⟨-, -, rfl⟩ | ⟨-, -, rfl⟩ | ⟨rfl, -⟩ | ⟨rfl, -⟩ | ⟨-, rfl⟩
  · exact absurd hlt (occ_of_chans rfl c)
  · exact absurd hlt (occ_of_chans rfl c)
  · rfl
  · rfl
  · have hring : ((s.writeTxData c s.hostB).respond i (ret .none) 0).ring c .out = s.ring c .out :=
      writeTxData_ring s c s.hostB
    rw [hring] at hlt
    exact absurd hlt (lt_irrefl _)

/-- A command takes a byte out of the output buffer of `c` at the P2 of its pump on `c`, or as `POP OUT` at its S1. -/
theorem command_occ_falls {s t : State} {i : Instr} {c : ChNum} (h : exec i s = .next t) (hi : i.isCommand = true)
    (hlt : (t.ring c .out).occ < (s.ring c .out).occ) :
    (s.hostPc = .p2 ∧ ((∃ p, i = .enqOut c p) ∨ i = .pump c)) ∨ (s.hostPc = .s1 ∧ i = .pop .out c) := by
  have hmoves : i.chan? = some c ∧ popsFrom i .out = true := by
    rcases exec_movesChans h c with heq | ⟨hc, hm⟩
    · rw [State.ring, heq] at hlt
      exact absurd hlt (lt_irrefl _)
    · exact ⟨hc, chanMove_out_occ_falls hm hlt⟩
  obtain ⟨hc, hpop⟩ := hmoves
  rcases popsFrom_out_command hpop hi hc with rfl | ⟨p, rfl⟩ | rfl
  · cases exec_microStep h with
    | check _ _ _ h => exact absurd hlt (occ_of_chans (checkChannel_chans h) c)
    | pop hpc => exact .inr ⟨hpc, rfl⟩
  · refine .inl ⟨?_, .inl ⟨p, rfl⟩⟩
    cases exec_microStep h with
    | check _ _ _ h => exact absurd hlt (occ_of_chans (checkChannel_chans h) c)
    | preCheck _ _ h => exact absurd hlt (occ_of_chans (preCheck_chans h) c)
    | fill _ _ h =>
      obtain ⟨v, -, ⟨-, rfl⟩ | ⟨-, -, rfl⟩⟩ := fillStep_next h
      · exact absurd hlt (occ_of_chans rfl c)
      · change ((s.setRing c .out (Ring.pushed s.cfg.cap (s.ring c .out) v)).ring c .out).occ < _ at hlt
        rw [ring_setRing_same] at hlt
        simp only [Ring.pushed] at hlt
        omega
    | armCheck _ _ h => exact absurd hlt (occ_of_chans (armCheck_chans h) c)
    | enqOutPump pc hpc _ h => rw [hpc, hostPump_occ_falls h hlt]; rfl
  · refine .inl ⟨?_, .inr rfl⟩
    cases exec_microStep h with
    | check _ _ _ h => exact absurd hlt (occ_of_chans (checkChannel_chans h) c)
    | pump pc hpc _ h => rw [hpc, hostPump_occ_falls h hlt]; rfl

theorem hostStep_occ_falls {s t : State} {c : ChNum} (h : s.hostStep = .next t) (hs : s.Inv)
    (hlt : (t.ring c .out).occ < (s.ring c .out).occ) :
    (s.hostPc = .p2 ∧ s.pumpsOn c = true) ∨ s.hostCmd = some (.pop .out c) := by
  obtain ⟨-, -, hhost, -⟩ := (inv_iff s).mp hs
  obtain ⟨-, ⟨-, why, rest, -, rfl⟩ | ⟨-, i, rest, hdec, h⟩ | ⟨-, i, hcmd, h⟩⟩ := hostStep_cases h
  · exact absurd hlt (lt_irrefl _)
  · obtain ⟨hi, -⟩ := decodeCommand_sound hdec
    rcases command_occ_falls h hi hlt with ⟨hpc, ⟨p, rfl⟩ | rfl⟩ | ⟨hpc, rfl⟩ <;> simp [firstLabel] at hpc
  · obtain ⟨hl, -⟩ := (hostSeqOk_some hcmd).mp hhost
    rcases command_occ_falls h (hasHostLabel_isCommand hl) hlt with ⟨hpc, hon⟩ | ⟨-, rfl⟩
    · exact .inl ⟨hpc, (pumpsOn_iff hcmd).mpr hon⟩
    · exact .inr hcmd

/-! ### With `ie = 0` and no handler running -/

/-- Only HOST and the UART have a step: the arbiter waits for `ie` and no handler runs. -/
theorem event_of_ie_clear {s t : State} {e : Event} (h : s.eventStep e = .next t) (hie : s.ie = false)
    (hidle : s.inHandler = false) (hreset : e ≠ .reset) :
    e = .host ∨ (∃ c, e = .txDone c) ∨ ∃ c b, e = .rxArrive c b := by
  cases e with
  | host => exact .inl rfl
  | irq =>
    obtain ⟨hin, -⟩ := irqStep_cases h
    exact absurd (hidle.symm.trans hin) Bool.false_ne_true
  | grant r =>
    obtain ⟨hg, -⟩ := grant_next h
    obtain ⟨hon, -⟩ := canGrant_spec hg
    exact absurd (hie.symm.trans hon) Bool.false_ne_true
  | txDone c => exact .inr (.inl ⟨c, rfl⟩)
  | rxArrive c b => exact .inr (.inr ⟨c, b, rfl⟩)
  | reset => exact absurd rfl hreset

/-- The UART leaves an idle channel idle while `ie = 0`. -/
theorem uart_keeps_idle {s t : State} {e : Event} {c : ChNum} (h : s.eventStep e = .next t)
    (he : (∃ c, e = .txDone c) ∨ ∃ c b, e = .rxArrive c b) (hie : s.ie = false) (hidle : s.inHandler = false)
    (hs : s.outState c = .idle) : t.outState c = .idle := by
  obtain ⟨hhost, hreset⟩ : e ≠ .host ∧ e ≠ .reset := by rcases he with ⟨c, rfl⟩ | ⟨c, b, rfl⟩ <;> simp
  obtain ⟨harming, hdraining⟩ := (outState_idle_iff s c).mp hs
  have hready : (s.chan c).txe = true := by
    by_contra hbusy
    rw [drainingOf_busy (Bool.eq_false_of_not_eq_true hbusy)] at hdraining
    cases hdraining
  obtain ⟨-, -, htxe⟩ := chanStep_uart (eventStep_chanStep h c) he
  obtain ⟨hin, -⟩ := eventStep_sameHandler h he
  have hie' : t.ie = false := by
    by_contra hne
    rcases onlyInterruptControlChangesIe s t e h (by rw [hie]; exact hne) with heq | ⟨heq, -⟩
    · exact hreset heq
    · exact hhost heq
  refine (outState_idle_iff t c).mpr ⟨(armingOf_sameHost (eventStep_sameHost h hhost hreset) c).trans harming, ?_⟩
  rw [drainingOf_ready (htxe hready), running_of_stopped (hin.trans hidle), hie', Bool.and_false]
  rfl

/-- Settles O55: each move of R174 is read off the step that makes it; with `ie = 0` and no handler only HOST and the
UART move, and the UART takes no byte out of a buffer. -/
theorem outputStateMovesAsDescribed : Obligations.OutputStateMovesAsDescribed := by
  refine ⟨fun s t c p => s3_arms, fun s t c p => p3_starts_drain, fun s t c => txDone_moves,
    fun s t u c => txirq_ends_drain, fun s t c e hs hie hidle hreset h => ?_⟩
  rcases event_of_ie_clear h hie hidle hreset with rfl | huart
  · exact ⟨hostStep_stopped h hs, fun hlt => ⟨rfl, hostStep_occ_falls h hs hlt⟩, fun _ hne => absurd rfl hne⟩
  · obtain ⟨hin, -⟩ := eventStep_sameHandler h huart
    obtain ⟨hring, -⟩ := chanStep_uart (eventStep_chanStep h c) huart
    refine ⟨hin.trans hidle, fun hlt => ?_, fun hs _ => ⟨uart_keeps_idle h huart hie hidle hs, hring⟩⟩
    exact absurd hlt (by rw [show t.ring c .out = s.ring c .out from hring]; exact lt_irrefl _)

end Sys2Proof.Machine
end

/-! ## The race of the arming pump overruns the transmitter (R66, R177, R246) -/

section
namespace Sys2Proof.Machine

/-- HOST's P3 on a transmitter that a `TXIRQ` has filled sets the fault flag, leaves the output buffer alone and answers
`None` all the same. -/
theorem racing_p3_overruns {s : State} {c : ChNum} {p : List Byte} (hfree : s.HostFree) (hc : s.validCh c = true)
    (hcmd : s.hostCmd = some (.enqOut c p)) (hpc : s.hostPc = .p3) (hbusy : (s.chan c).txe = false) :
    s.Runs [.host] ((s.txFree c false).answered (.enqOut c p) 0x0000) :=
  host_runs_next hfree (by simp [hpc]) hcmd fun es => by
    rw [execEnqOut_at (s := { s with sched := es }) p .p3 hc hpc, hostPump_writes,
      writeTxData_overrun (s := { s with sched := es }) s.hostB (.inl hbusy)]
    rfl

/-- `IE_SET` and two batches on channel 0: the first byte is done before the second batch, and the grant of `TXIRQ(0)`
falls between P1 and P2 of the second one's pump (95_test_vectors.md P5, run C). -/
def overrunningRace : State :=
  { State.reset with
    words := [0x7000, 0x3002, 0x0061, 0x0062, 0x3001, 0x0063],
    sched := List.replicate 9 .host ++ [.txDone 0] ++ List.replicate 5 .host ++ [.grant 1] ++
      List.replicate 4 .irq ++ [.host] }

/-- After 21 steps `TXIRQ(0)` has sent 62 and returned, and HOST has popped 63 and stands at its P3. -/
theorem overrunningRace_reaches_p3 :
    ∃ t : State, Host.Core.run Sys2Proof.core 21 overrunningRace = .next t ∧ t.HostFree ∧ t.validCh 0 = true ∧
      t.hostCmd = some (.enqOut 0 [0x63]) ∧ t.hostPc = .p3 ∧ (t.chan 0).txe = false ∧ (t.chan 0).txOverrun = false ∧
      (t.chan 0).txlog = [0x61, 0x62] ∧ (t.ring 0 .out).occ = 0 ∧
      t.hostlog = [(.ieSet, 0x0000), (.enqOut 0 [0x61, 0x62], 0x0000)] :=
  ⟨_, rfl, ⟨rfl, rfl, .inl rfl⟩, by decide, by decide, by decide, by decide, by decide, by decide, by decide, by decide⟩

/-- Settles O56: after the run HOST's P3 writes to the transmitter that `TXIRQ(0)` has filled. -/
theorem armingRaceOverrunsTheTransmitter : Obligations.ArmingRaceOverrunsTheTransmitter := by
  obtain ⟨t, hrun, hfree, hc, hcmd, hpc, hbusy, hover, hlog, hempty, hhost⟩ := overrunningRace_reaches_p3
  have hstep := racing_p3_overruns hfree hc hcmd hpc hbusy []
  obtain ⟨u, hu, hend⟩ := exists_step_of_run_succ hstep
  obtain rfl := Host.Outcome.next.inj hend
  have hchan := (chan_txFree t 0 0 false).trans (if_pos rfl)
  refine ⟨t, hrun, hover, hlog, hpc, _, hu, ?flag, ?occ, ?responses⟩
  case flag => exact congrArg Chan.txOverrun hchan
  case occ => exact (congrArg (fun x : Chan => x.out.occ) hchan).trans hempty
  case responses => exact congrArg (fun l => (l ++ [(Instr.enqOut 0 [0x63], (0x0000 : Half))]).map fun x => x.2) hhost

end Sys2Proof.Machine
end

/-! ## The atomic section, and the commands that write `ie` (R190 to R192, R213) -/

section
namespace Sys2Proof.Machine

/-! ### The atomic section -/

theorem atomic_ie {α : Type} {s t : State} {body : State → Except Fault (α × State)} {r : α}
    (h : s.atomic body = .ok (r, t)) : t.ie = s.ie := by
  obtain ⟨u, -, rfl⟩ := atomic_ok h
  rfl

/-- Settles O13: `push` and `pop` are atomic sections, and an atomic section's answer is its body's from `ie = 0` with
the `ie` it found. -/
theorem atomicSectionRestoresIe : Obligations.AtomicSectionRestoresIe :=
  ⟨fun _ _ _ _ h => ⟨atomic_ie h, atomic_ok h⟩, fun _ _ _ _ _ _ h => atomic_ie h, fun _ _ _ _ _ h => atomic_ie h⟩

/-! ### `IE_SET` and `IE_CLR` -/

theorem decodeCommand_eq_instr_iff {ws rest : List Half} {i : Instr} (hi : i.isCommand = true) (hwf : i.wf 8 = true) :
    decodeCommand ws = .instr i rest ↔ ws = encodeWords i ++ rest := by
  refine ⟨fun h => ?_, fun h => h ▸ decodeCommand_encodeWords rest hi hwf⟩
  obtain ⟨-, -, hws⟩ := everyDecodedCommandIsItsEncoding ws rest i h
  exact hws

/-- One word is read as a one-word command exactly when it is that command's header. -/
theorem decodeCommand_word_iff {w w' : Half} {i : Instr} (hi : i.isCommand = true) (hwf : i.wf 8 = true)
    (hw : encodeWords i = [w']) : decodeCommand [w] = .instr i [] ↔ w = w' := by
  rw [decodeCommand_eq_instr_iff hi hwf, hw, List.append_nil, List.singleton_inj]

theorem execIeSet_s1 {s : State} (hpc : s.hostPc = .s1) :
    exec .ieSet s = .next (({ s with ie := true } : State).answered .ieSet 0x0000) := by
  simp only [exec, execIeSet, hpc]
  rfl

theorem execIeClr_s1 {s : State} (hpc : s.hostPc = .s1) :
    exec .ieClr s = .next (({ s with ie := false } : State).answered .ieClr 0x0000) := by
  simp only [exec, execIeClr, hpc]
  rfl

/-! ### `ie` masks grants, and an eager grant holds HOST back -/

theorem canGrant_of_ie_clear {s : State} (r : IrqNum) (h : s.ie = false) : s.canGrant r = false := by
  simp [State.canGrant, h]

theorem lowestPending_isSome {s : State} {r : IrqNum} (h : s.pending r = true) : s.lowestPending.isSome = true :=
  List.find?_isSome.mpr ⟨r, mem_requestNumbers r, h⟩

theorem grantWaiting_of_pending {s : State} {r : IrqNum} (hie : s.ie = true) (hidle : s.inHandler = false)
    (hpending : s.pending r = true) : s.grantWaiting = true := by
  simp [State.grantWaiting, hie, hidle, lowestPending_isSome hpending]

theorem hostEnabled_of_eager_grantWaiting {s : State} (hpolicy : s.cfg.grantPolicy = .eager)
    (hwaiting : s.grantWaiting = true) : s.hostEnabled = false := by
  simp [State.hostEnabled, hpolicy, hwaiting]

theorem grant_of_canGrant {s : State} {r : IrqNum} (h : s.canGrant r = true) : s.grant r = .next (s.enterHandler r) :=
  if_pos h

/-- A pending request may be granted as soon as `ie = 1` and no handler runs, and under `eager` HOST has no step before
that (R213). -/
theorem pending_is_granted {s : State} {r : IrqNum} (horder : s.cfg.arbOrder = .any) (hie : s.ie = true)
    (hidle : s.inHandler = false) (hpending : s.pending r = true) :
    s.eventStep (.grant r) = .next (s.enterHandler r) ∧
      (s.cfg.grantPolicy = .eager → s.eventStep .host = .refused .notEnabled) :=
  ⟨grant_of_canGrant (canGrant_of_pending horder hie hidle hpending), fun hpolicy =>
    hostStep_disabled (hostEnabled_of_eager_grantWaiting hpolicy (grantWaiting_of_pending hie hidle hpending))⟩

/-- Settles O22: each word is its command's whole encoding, and each micro-step is one equation; `ie = 0` falsifies the
guard of every grant, and the state after `IE_SET` has `ie = 1` and every request as it was. -/
theorem interruptControlWritesIe : Obligations.InterruptControlWritesIe := by
  refine ⟨fun w => decodeCommand_word_iff rfl rfl rfl, fun w => decodeCommand_word_iff rfl rfl rfl,
    fun s hpc => ⟨execIeSet_s1 hpc, execIeClr_s1 hpc⟩, fun s r hie => grant_disabled (canGrant_of_ie_clear r hie), ?_⟩
  intro s r hpc hidle horder hpending
  exact ⟨_, _, execIeSet_s1 hpc,
    pending_is_granted (s := State.answered { s with ie := true } .ieSet 0x0000) horder rfl hidle hpending⟩

end Sys2Proof.Machine
end

/-! ## Under eager grants no step overruns a transmitter (R66, R213, R246) -/

section
namespace Sys2Proof.Machine

theorem pumpSafe_of_eagerSafe {s : State} (h : s.EagerSafe) (c : ChNum) : s.PumpSafe c := by
  obtain ⟨hover, hquiet⟩ := h c
  refine ⟨hover, fun harmed => ?_⟩
  obtain ⟨hready, -, hstopped⟩ := hquiet harmed
  exact ⟨hready, hstopped⟩

/-- A quiet pump has no grant that could fall into it, so its write finds the transmitter ready. -/
theorem step_pumpSafe {s t : State} {c : ChNum} (h : step s = .next t) (hs : s.Inv) (hsafe : s.PumpSafe c)
    (hquiet : s.QuietPump c) : t.PumpSafe c := by
  rcases step_nextEvent h with ⟨e, es, -, he⟩ | rfl
  · refine eventStep_pumpSafe (s := { s with sched := es }) he hs hsafe fun harmed hgrant => ?_
    rw [hgrant, quietPump_refuses_grant (s := { s with sched := es }) hquiet harmed] at he
    cases he
  · exact hsafe

/-- Settles O44: under `eager` each of HOST's pumps stays quiet from its P1 to its P3 (O60), so nothing comes between its
read of the flag and its write. -/
theorem eagerGrantsNeverOverrunATransmitter : Obligations.EagerGrantsNeverOverrunATransmitter := by
  intro s t hpolicy hs hsafe h c
  obtain ⟨-, hquiet⟩ := hsafe c
  obtain ⟨hkeepsQuiet, -⟩ := eagerOrNoRequestKeepsPumpsUndisturbed
  obtain ⟨hover, -⟩ := step_pumpSafe h hs (pumpSafe_of_eagerSafe hsafe c) hquiet
  exact ⟨hover, hkeepsQuiet s t c hs hquiet (.inl hpolicy) h⟩

end Sys2Proof.Machine
end

/-! ## S0 of the commands that take a channel (R141, R208) -/

section
namespace Sys2Proof.Machine

theorem checkChannel_valid {s : State} {c : ChNum} (i : Instr) (pc : HostPc) (hc : s.validCh c = true) :
    s.checkChannel i c pc = .next { s with hostPc := pc } := if_pos hc

theorem checkChannel_invalid {s : State} {c : ChNum} (i : Instr) (pc : HostPc) (hc : s.validCh c = false) :
    s.checkChannel i c pc = .next (s.answered i 0x0600) := by
  rw [State.checkChannel, hc]
  rfl

/-- S0 of every command that takes a channel is the channel check alone. -/
theorem exec_s0 {s : State} {i : Instr} {c : ChNum} (hi : i.isCommand = true) (hc : i.chan? = some c)
    (hpc : s.hostPc = .s0) : exec i s = s.checkChannel i c (afterCheck i) := by
  cases i with
  | ieSet => cases hc
  | ieClr => cases hc
  | rxirq c' => cases hi
  | txirq c' => cases hi
  | _ =>
    cases hc
    simp only [exec, execPush, execPop, execEnqOut, execEnqIn, execDeqIn, execPump, hpc, afterCheck]

/-- `PUMP` goes on to P1, every other command to S1. -/
theorem afterCheck_of_chan {i : Instr} {c : ChNum} (hc : i.chan? = some c) :
    afterCheck i = if i = .pump c then .p1 else .s1 := by
  cases i with
  | pump ch => cases hc; exact (if_pos rfl).symm
  | _ => simp [afterCheck]

/-- Settles O14: S0 is the channel check alone, with an answer on one side of `N_CH` and the next label on the other. -/
theorem channelCheckComesFirst : Obligations.ChannelCheckComesFirst := by
  intro s i ch hi hchan hpc
  rw [exec_s0 hi hchan hpc, ← afterCheck_of_chan hchan]
  refine ⟨fun hout => checkChannel_invalid i _ (decide_eq_false (Nat.not_lt.mpr hout)), fun hch => ?_⟩
  exact checkChannel_valid i _ ((validCh_iff s ch).mpr hch)

end Sys2Proof.Machine
end

/-! ## `RX_ARRIVE` into an empty and onto an unread receive register (R226) -/

section
namespace Sys2Proof.Machine

theorem arrive_read {s : State} {c : ChNum} (b : Byte) (h : (s.chan c).rxPending = false) :
    s.arrive c b = s.setChan c ((s.chan c).arrived b) :=
  if_neg (ne_true_of_eq_false h)

/-- Onto an unread byte `rx_data[c]` becomes a free value (assumption log 9). -/
theorem arrive_unread {s : State} {c : ChNum} (b : Byte) (h : (s.chan c).rxPending = true) :
    s.arrive c b = { s.setChan c { s.chan c with
      rxlog := (s.chan c).rxlog ++ [b], rxOverrun := true, rxData := Config.freeByte s.freeCtr } with
      freeCtr := s.freeCtr + 1 } :=
  if_pos h

/-- Settles O33: the only guard is the channel's, and `rx_pending` alone decides between the two effects. -/
theorem rxArriveDeliversOrOverruns : Obligations.RxArriveDeliversOrOverruns := by
  intro s c b hch
  have harrive : s.eventStep (.rxArrive c b) = .next (s.arrive c b) := rxArrive_valid b ((validCh_iff s c).mpr hch)
  rw [harrive]
  refine ⟨fun hread => congrArg _ (arrive_read b hread), fun hunread => ?_⟩
  exact ⟨_, Config.freeByte s.freeCtr, congrArg _ (arrive_unread b hunread), rfl⟩

end Sys2Proof.Machine
end

/-! ## The arbiter: what a grant needs and what it does, under either `ARB_ORDER` (R213, R214, R217) -/

section
namespace Sys2Proof.Machine

/-! ### The guard -/

theorem grant_taken_iff (s : State) (r : IrqNum) : (∃ t, s.grant r = .next t) ↔ s.canGrant r = true := by
  refine ⟨fun ⟨t, h⟩ => ?_, fun h => ⟨_, grant_of_canGrant h⟩⟩
  obtain ⟨hgrant, -⟩ := grant_next h
  exact hgrant

theorem canGrant_any_iff {s : State} (r : IrqNum) (horder : s.cfg.arbOrder = .any) :
    s.canGrant r = true ↔ s.ie = true ∧ s.inHandler = false ∧ s.pending r = true :=
  ⟨canGrant_spec, fun ⟨hie, hidle, hpending⟩ => canGrant_of_pending horder hie hidle hpending⟩

theorem canGrant_lowest_iff {s : State} (r : IrqNum) (horder : s.cfg.arbOrder = .lowest) :
    s.canGrant r = true ↔ s.ie = true ∧ s.inHandler = false ∧ s.lowestPending = some r := by
  refine ⟨fun h => ?_, fun ⟨hie, hidle, hlowest⟩ => canGrant_of_lowest hie hidle hlowest⟩
  obtain ⟨hie, hidle, -⟩ := canGrant_spec h
  simp only [State.canGrant, horder, Bool.and_eq_true, beq_iff_eq] at h
  obtain ⟨-, hlowest⟩ := h
  exact ⟨hie, hidle, hlowest⟩

/-- The search goes through the request numbers as they rise, so what it finds is the lowest (R214). -/
theorem lowestPending_eq_some_iff (s : State) (r : IrqNum) :
    s.lowestPending = some r ↔ s.pending r = true ∧ ∀ r', s.pending r' = true → r.toNat ≤ r'.toNat := by
  have hnum (r : IrqNum) : BitVec.ofNat 4 r.toNat = r := BitVec.ofNat_toNat 4 r
  simp only [State.lowestPending, requestNumbers, List.find?_map, Option.map_eq_some_iff, List.find?_range_eq_some,
    List.mem_range, Function.comp_apply, Bool.not_eq_true']
  constructor
  · rintro ⟨n, ⟨hpending, hn, hbelow⟩, rfl⟩
    refine ⟨hpending, fun r' hr' => Nat.le_of_not_lt fun hlt => ?_⟩
    rw [BitVec.toNat_ofNat, Nat.mod_eq_of_lt hn] at hlt
    have hnot := hbelow _ hlt
    rw [hnum, hr'] at hnot
    cases hnot
  · rintro ⟨hpending, hleast⟩
    refine ⟨r.toNat, ⟨(hnum r).symm ▸ hpending, r.isLt, fun j hj => Bool.eq_false_of_not_eq_true fun hpend => ?_⟩, hnum r⟩
    have hle := hleast _ hpend
    rw [BitVec.toNat_ofNat] at hle
    exact absurd (hle.trans (Nat.mod_le j _)) (Nat.not_le.mpr hj)

/-! ### `ARB_ORDER` is read by the guard alone -/

/-- What either order grants, `any` grants. -/
theorem canGrant_setAny {s : State} {r : IrqNum} (h : s.canGrant r = true) :
    State.canGrant { s with cfg := { s.cfg with arbOrder := .any } } r = true :=
  (canGrant_any_iff r rfl).mpr (canGrant_spec (s := s) h)

theorem enterHandler_setCfg (s : State) (r : IrqNum) (p : Params) :
    State.enterHandler { s with cfg := p } r = { s.enterHandler r with cfg := p } := by
  unfold State.enterHandler
  split <;> rfl

/-- Settles O30: under `lowest` the guard asks for the request that the arbiter finds first; the effect of a grant reads
no parameter. -/
theorem lowestOrderGrantsTheLowestRequest : Obligations.LowestOrderGrantsTheLowestRequest := by
  intro s r horder
  refine ⟨?guard, fun t h => ?effect⟩
  case guard =>
    rw [← lowestPending_eq_some_iff, ← canGrant_lowest_iff r horder]
    exact grant_taken_iff s r
  case effect =>
    obtain ⟨hgrant, rfl⟩ := grant_next h
    exact (grant_of_canGrant (canGrant_setAny hgrant)).trans (congrArg _ (enterHandler_setCfg s r _))

/-! ### The two kinds of request -/

/-- The request flag of a kind: `tx_pending` or `rx_pending` (R33, R34). -/
def Chan.requested (x : Chan) (tx : Bool) : Bool := if tx then x.txPending else x.rxPending

theorem pending_requestNumber (s : State) (c : ChNum) (tx : Bool) :
    s.pending (requestNumber c tx) = true ↔ c.toNat < s.cfg.nCh ∧ (s.chan c).requested tx = true := by
  rw [State.pending, irqCh_requestNumber, irqIsTx_requestNumber, Bool.and_eq_true, validCh_iff]
  rfl

theorem enterHandler_tx (s : State) (c : ChNum) :
    s.enterHandler (requestNumber c true) = { s.setChan c { s.chan c with txPending := false } with
      inHandler := true, curIrq := requestNumber c true, irqPc := .p1 } := by
  simp [State.enterHandler, firstIrqLabel]

theorem enterHandler_rx (s : State) (c : ChNum) :
    s.enterHandler (requestNumber c false) =
      { s with inHandler := true, curIrq := requestNumber c false, irqPc := .g1 } := by
  simp [State.enterHandler, firstIrqLabel]

/-- A request whose guard has a false part is not granted, whatever `ARB_ORDER` is (R213). -/
theorem grant_requestNumber_refused {s : State} {c : ChNum} (tx : Bool)
    (h : s.ie = false ∨ s.inHandler = true ∨ s.cfg.nCh ≤ c.toNat ∨ (s.chan c).requested tx = false) :
    s.grant (requestNumber c tx) = .refused .notEnabled := by
  refine grant_disabled (Bool.eq_false_of_not_eq_true fun hgrant => ?_)
  obtain ⟨hie, hidle, hpending⟩ := canGrant_spec hgrant
  obtain ⟨hch, hflag⟩ := (pending_requestNumber s c tx).mp hpending
  rcases h with h | h | h | h
  · exact absurd (h.symm.trans hie) Bool.false_ne_true
  · exact absurd (hidle.symm.trans h) Bool.false_ne_true
  · exact absurd hch (Nat.not_lt.mpr h)
  · exact absurd (h.symm.trans hflag) Bool.false_ne_true

/-- Settles O29: the guard's parts decide, the effect is the start of the handler, and a grant that can be taken waits,
which holds HOST back under `eager`. -/
theorem grantStartsTheHandler : Obligations.GrantStartsTheHandler := by
  intro s c horder
  have htaken (tx : Bool) (hie : s.ie = true) (hidle : s.inHandler = false) (hch : c.toNat < s.cfg.nCh)
      (hflag : (s.chan c).requested tx = true) :
      s.grant (requestNumber c tx) = .next (s.enterHandler (requestNumber c tx)) :=
    grant_of_canGrant (canGrant_of_pending horder hie hidle ((pending_requestNumber s c tx).mpr ⟨hch, hflag⟩))
  refine ⟨?tx, ?rx, grant_requestNumber_refused true, grant_requestNumber_refused false, ?eager⟩
  case tx => rw [← enterHandler_tx]; exact htaken true
  case rx => rw [← enterHandler_rx]; exact htaken false
  case eager =>
    rintro hpolicy ⟨r, t, h⟩
    obtain ⟨hie, hidle, hpending⟩ := (canGrant_any_iff r horder).mp ((grant_taken_iff s r).mp ⟨t, h⟩)
    obtain ⟨-, hwaits⟩ := pending_is_granted horder hie hidle hpending
    exact hwaits hpolicy

end Sys2Proof.Machine
end

/-! ## `RXIRQ` before or after S1 of a `DEQ_IN` (R156, R157, R213, R216) -/

section
namespace Sys2Proof.Machine

/-- A `DEQ_IN c` is past its channel check, the input buffer of `c` is empty, and a byte is unread: HOST's S1 and the
grant of `RXIRQ(c)` are both enabled. -/
def State.DeqInBesideArrival (s : State) (c : ChNum) : Prop :=
  s.HostFree ∧ s.validCh c = true ∧ s.hostCmd = some (.deqIn c) ∧ s.hostPc = .s1 ∧ s.ie = true ∧
    s.cfg.arbOrder = .any ∧ (s.chan c).rxPending = true ∧ Ring.Inv s.cfg.cap (s.ring c .inp) ∧ (s.ring c .inp).occ = 0

/-- The handler of the unread byte has returned: the byte has been offered to the input buffer. -/
def State.rxServed (s : State) (c : ChNum) : State :=
  (s.setChan c { s.chan c with
    inp := (s.ring c .inp).offered s.cfg.cap (s.chan c).rxData, rxPending := false }).leaveHandler

theorem ring_rxServed (s : State) (c : ChNum) :
    (s.rxServed c).ring c .inp = (s.ring c .inp).offered s.cfg.cap (s.chan c).rxData :=
  congrArg Chan.inp (chan_setChan_same s c _)

/-- The grant of an unread byte's request, and its `RXIRQ`. -/
theorem rxGrant_runs_through {s : State} {c : ChNum} (horder : s.cfg.arbOrder = .any) (hie : s.ie = true)
    (hidle : s.inHandler = false) (hc : s.validCh c = true) (hunread : (s.chan c).rxPending = true)
    (hF : Ring.Inv s.cfg.cap (s.ring c .inp)) :
    s.Runs [.grant (requestNumber c false), .irq, .irq, .irq] (s.rxServed c) :=
  runs_cons (rxGrant_runs horder hie hidle hc hunread)
    (rxirq_runs_through (s := { s with inHandler := true, curIrq := requestNumber c false, irqPc := .g1 })
      (by simp [State.running]) hc rfl rfl hF)

/-- S1 of `DEQ_IN` returns the oldest held byte. -/
theorem deqIn_runs_held {s : State} {c : ChNum} {b : Byte} {bs : List Byte} (hfree : s.HostFree)
    (hc : s.validCh c = true) (hcmd : s.hostCmd = some (.deqIn c)) (hpc : s.hostPc = .s1)
    (ht : (s.ring c .inp).tail < s.cfg.cap) (hheld : Ring.held s.cfg.cap (s.ring c .inp) = b :: bs) :
    s.Runs [.host] ((s.setRing c .inp (Ring.popped s.cfg.cap (s.ring c .inp))).answered (.deqIn c) (b.setWidth 16)) := by
  have ho : (s.ring c .inp).occ ≠ 0 := by simp [← held_length s.cfg.cap, hheld]
  obtain ⟨rfl, -⟩ := List.cons_eq_cons.mp ((held_popped ho ht).symm.trans hheld)
  exact host_runs_next hfree (by simp [hpc]) hcmd fun es =>
    (execDeqIn_s1 (s := { s with sched := es }) hc hpc).trans (popAndRespond_held _ ho ht)

/-- S1 of `DEQ_IN` on an empty buffer answers `Empty`. -/
theorem deqIn_runs_empty {s : State} {c : ChNum} (hfree : s.HostFree) (hc : s.validCh c = true)
    (hcmd : s.hostCmd = some (.deqIn c)) (hpc : s.hostPc = .s1) (hempty : (s.ring c .inp).occ = 0) :
    s.Runs [.host] (s.answered (.deqIn c) 0x0200) :=
  host_runs_next hfree (by simp [hpc]) hcmd fun es =>
    (execDeqIn_s1 (s := { s with sched := es }) hc hpc).trans (popAndRespond_empty _ hempty)

section
variable {s : State} {c : ChNum} (h : s.DeqInBesideArrival c)

include h

theorem held_rxServed : Ring.held s.cfg.cap ((s.rxServed c).ring c .inp) = [(s.chan c).rxData] := by
  obtain ⟨-, -, -, -, -, -, -, hF, hempty⟩ := h
  obtain ⟨-, hhead, -⟩ := id hF
  rw [ring_rxServed, held_offered _ hF, (held_eq_nil_iff _ _).mpr hempty, if_pos (by omega)]
  rfl

/-- A handler before S1 brings the byte that S1 returns. -/
theorem handler_before_s1 : ∃ t, s.Runs [.grant (requestNumber c false), .irq, .irq, .irq, .host] t ∧
    t.hostlog = s.hostlog ++ [(.deqIn c, (s.chan c).rxData.setWidth 16)] := by
  have hheld := held_rxServed h
  obtain ⟨hfree, hc, hcmd, hpc, hie, horder, hunread, hF, -⟩ := h
  obtain ⟨hidle, hfault, hpolicy⟩ := hfree
  have htail : ((s.rxServed c).ring c .inp).tail < s.cfg.cap := by
    obtain ⟨-, -, ht, -⟩ := hF
    rw [ring_rxServed, Ring.offered]
    split <;> exact ht
  have hs1 := deqIn_runs_held (s := s.rxServed c) ⟨rfl, hfault, hpolicy⟩ hc hcmd hpc htail hheld
  exact ⟨_, runs_append (rxGrant_runs_through horder hie hidle hc hunread hF) hs1, rfl⟩

/-- A handler after S1 leaves the byte in the buffer that S1 has found empty. -/
theorem handler_after_s1 : ∃ t, s.Runs [.host, .grant (requestNumber c false), .irq, .irq, .irq] t ∧
    t.hostlog = s.hostlog ++ [(.deqIn c, 0x0200)] ∧ Ring.held t.cfg.cap (t.ring c .inp) = [(s.chan c).rxData] := by
  have hheld := held_rxServed h
  obtain ⟨hfree, hc, hcmd, hpc, hie, horder, hunread, hF, hempty⟩ := h
  obtain ⟨hidle, -⟩ := id hfree
  have hserved := rxGrant_runs_through (s := s.answered (.deqIn c) 0x0200) horder hie hidle hc hunread hF
  exact ⟨_, runs_cons (deqIn_runs_empty hfree hc hcmd hpc hempty) hserved, rfl, hheld⟩

end

/-- `IE_SET`, the arrival of 0xA1 on channel 2 and S0 of a `DEQ_IN`, then the entries `es` (95_test_vectors.md
V-ARB-3). -/
def arrivalInDeqIn (es : List Event) : State :=
  { State.reset with words := [0x7000, 0x5200], sched := [.host, .rxArrive 2 0xA1, .host] ++ es }

theorem arrivalInDeqIn_reaches_s1 (es : List Event) :
    ∃ s : State, Host.Core.run Sys2Proof.core 3 (arrivalInDeqIn es) = .next s ∧ s.DeqInBesideArrival 2 ∧
      (s.chan 2).rxData = 0xA1 ∧ s.hostlog = [(.ieSet, 0x0000)] ∧ s.sched = es :=
  ⟨_, rfl, ⟨⟨rfl, rfl, .inl rfl⟩, rfl, rfl, rfl, rfl, rfl, rfl, inv_fresh (cap := 128) 5 (by decide), rfl⟩, rfl, rfl, rfl⟩

/-- Settles O58: after three entries `DEQ_IN` is at its S1 beside an unread byte, and either order of S1 and `RXIRQ(2)`
goes on from there. -/
theorem grantMayFallInsideACommand : Obligations.GrantMayFallInsideACommand := by
  constructor
  · obtain ⟨s, hrun, hbeside, hbyte, hlog, hsched⟩ := arrivalInDeqIn_reaches_s1 [.grant 4, .irq, .irq, .irq, .host]
    obtain ⟨t, hruns, hresponses⟩ := handler_before_s1 hbeside
    refine ⟨_, (run_add 5 hrun).trans (run_of_runs (rest := []) hruns hsched), ?_⟩
    rw [hbyte, hlog] at hresponses
    exact hresponses
  · obtain ⟨s, hrun, hbeside, hbyte, hlog, hsched⟩ := arrivalInDeqIn_reaches_s1 [.host, .grant 4, .irq, .irq, .irq]
    obtain ⟨t, hruns, hresponses, hheld⟩ := handler_after_s1 hbeside
    refine ⟨_, (run_add 5 hrun).trans (run_of_runs (rest := []) hruns hsched), ?_, ?_⟩
    · rw [hlog] at hresponses
      exact hresponses
    · rw [hbyte] at hheld
      exact hheld

end Sys2Proof.Machine
end

/-! ## Quiescence: no agent has a step, and no drain is left alive (R250, R257) -/

section
namespace Sys2Proof.Machine

/-! ### The guards of the agents -/

/-- With no word on the port there is no command to take (R96). -/
theorem hostEnabled_of_no_words {s : State} (hpc : s.hostPc = .idle) (hwords : s.words = []) :
    s.hostEnabled = false := by
  simp [State.hostEnabled, State.commandReady, decodeCommand, hpc, hwords]

theorem irqStep_stopped {s : State} (h : s.inHandler = false) : s.irqStep = .refused .notEnabled := by
  simp [State.irqStep, h]

theorem txDone_invalid {s : State} {c : ChNum} (h : s.validCh c = false) : s.txDone c = .refused .notEnabled := by
  simp [State.txDone, h]

theorem pending_iff (s : State) (r : IrqNum) :
    s.pending r = true ↔ s.validCh (irqCh r) = true ∧ (s.chan (irqCh r)).requested (irqIsTx r) = true := by
  rw [State.pending, Bool.and_eq_true]
  rfl

theorem requested_of_quiet {x : Chan} (tx : Bool) (htx : x.txPending = false) (hrx : x.rxPending = false) :
    x.requested tx = false := by
  cases tx with
  | true => exact htx
  | false => exact hrx

/-- The machine's own choice is an agent, never the environment. -/
theorem ownChoice_agent {s : State} {e : Event} (h : s.ownChoice = some e) :
    e ≠ .reset ∧ ∀ c b, e ≠ .rxArrive c b := by
  unfold State.ownChoice at h
  split at h
  · cases h; simp
  · split at h
    · cases h; simp
    · split at h <;> cases h
      simp

/-! ### A quiescent state -/

section
variable {s : State}

theorem quiescent_canGrant (hq : s.Quiescent) (r : IrqNum) : s.canGrant r = false := by
  obtain ⟨-, -, -, -, hrequests, -⟩ := hq
  rcases hrequests with hie | hquiet
  · exact canGrant_of_ie_clear r hie
  · refine Bool.eq_false_of_not_eq_true fun hgrant => ?_
    obtain ⟨-, -, hpending⟩ := canGrant_spec hgrant
    obtain ⟨hvalid, hflag⟩ := (pending_iff s r).mp hpending
    obtain ⟨htx, hrx⟩ := hquiet _ hvalid
    exact Bool.false_ne_true ((requested_of_quiet _ htx hrx).symm.trans hflag)

theorem quiescent_txDone (hq : s.Quiescent) (c : ChNum) : s.txDone c = .refused .notEnabled := by
  obtain ⟨-, -, -, hready, -⟩ := hq
  cases hvalid : s.validCh c with
  | true => exact txDone_ready (hready c hvalid)
  | false => exact txDone_invalid hvalid

/-- Each conjunct of `Quiescent` falsifies the guard of one agent (R257). -/
theorem quiescent_refuses (hq : s.Quiescent) {e : Event} (hreset : e ≠ .reset) (harrive : ∀ c b, e ≠ .rxArrive c b) :
    s.eventStep e = .refused .notEnabled := by
  obtain ⟨hpc, hwords, hidle, -⟩ := id hq
  cases e with
  | host => exact hostStep_disabled (hostEnabled_of_no_words hpc hwords)
  | irq => exact irqStep_stopped hidle
  | grant r => exact grant_disabled (quiescent_canGrant hq r)
  | txDone c => exact quiescent_txDone hq c
  | rxArrive c b => exact absurd rfl (harrive c b)
  | reset => exact absurd rfl hreset

/-- What the machine chose would be enabled, and no agent is. -/
theorem quiescent_ownChoice (hq : s.Quiescent) (hs : s.Inv) : s.ownChoice = none := by
  cases hchoice : s.ownChoice with
  | none => rfl
  | some e =>
    obtain ⟨hreset, harrive⟩ := ownChoice_agent hchoice
    obtain ⟨t, ht⟩ := ownChoice_ok hs hchoice
    cases ht.symm.trans (quiescent_refuses hq hreset harrive)

/-- None of the four states that keep a drain alive is quiescent with `ie = 1` (R250). -/
theorem quiescent_drained {c : ChNum} (hq : s.Quiescent) (hs : s.Inv) (hvalid : s.validCh c = true)
    (hie : s.ie = true) (halive : s.DrainAlive c) (hdisciplined : s.noPushOut c = true) : (s.ring c .out).occ = 0 := by
  obtain ⟨hpc, -, hidle, hready, hrequests, -⟩ := hq
  obtain ⟨-, -, hhost, -⟩ := (inv_iff s).mp hs
  have hquiet := hrequests.resolve_left (by simp [hie])
  obtain ⟨htx, -⟩ := hquiet c hvalid
  refine Nat.eq_zero_of_not_pos fun hocc => ?_
  rcases (drainAlive_iff s c).mp halive hdisciplined hocc with hbusy | hrequested | hpumping | henqueuing
  · exact Bool.false_ne_true (hbusy.symm.trans (hready c hvalid))
  · exact Bool.false_ne_true (htx.symm.trans hrequested)
  · exact irqPumps_of_stopped hidle hpumping
  · exact Bool.false_ne_true ((enqueuing_none (hostCmd_of_idle hhost hpc)).symm.trans henqueuing)

end

/-- Settles O48: quiescence falsifies every agent's guard, so the machine has nothing to choose and stays put, and it
excludes each of the states that keep a drain alive. -/
theorem quiescentOutputsAreEmpty : Obligations.QuiescentOutputsAreEmpty := by
  intro s hs hq
  obtain ⟨-, -, -, -, -, hsched⟩ := id hq
  refine ⟨step_of_no_choice hsched (quiescent_ownChoice hq hs), fun e => quiescent_refuses hq, fun c hc hie halive => ?_⟩
  cases hdisciplined : s.noPushOut c with
  | true => exact .inl (quiescent_drained hq hs ((validCh_iff s c).mpr hc) hie halive hdisciplined)
  | false => exact .inr rfl

end Sys2Proof.Machine
end
